-- ==== Sys2Proof/Word.lean ====
section
/-! DEFINITION. The bit vectors LICORE is made of (00_scope R12, R13): the register word, the byte of the memories A and B, the
24-bit pixel word of R59 and the 22-bit bus address of R80. -/

namespace Sys2Proof

/-- A register, a bus data word or a command word (R31, R110). -/
abbrev Word := BitVec 32

/-- One byte of A or B, and one residual of RESBUF (R62, R63, R67). -/
abbrev Byte := BitVec 8

/-- The stored bits [23:0] of a pixel word `00RRGGBB` (R59, R60, R61). -/
abbrev Pixel := BitVec 24

/-- A byte address of the register bus (R80, R82). -/
abbrev BusAddr := BitVec 22

end Sys2Proof
end

