-- ==== Sys2Proof/Syntax.lean ====
section
/-! DEFINITION. The twelve commands of LICORE (30_encoding R114), one constructor for each row of spec/opcode_table.json. -/

namespace Sys2Proof

/-- A command (R114). Only BP_WRITE and BU_READ carry an operand in the command word, their field width CNT, an unsigned
integer (R111); every other operand is implicit (R116). -/
inductive Instr where
  /-- NOP, 0x00 (R270) -/
  | nop
  /-- CT_FWD, 0x01 (R146) -/
  | ctFwd
  /-- CT_INV, 0x02 (R147) -/
  | ctInv
  /-- BQ_ENCODE, 0x10 (R168) -/
  | bqEncode
  /-- BQ_DECODE, 0x11 (R181) -/
  | bqDecode
  /-- BQ_SERIALIZE, 0x12 (R216) -/
  | bqSerialize
  /-- BQ_DESERIALIZE, 0x13 (R222) -/
  | bqDeserialize
  /-- BP_WRITE n, 0x20 (R204) -/
  | bpWrite (cnt : Nat)
  /-- BP_CLEAR, 0x21 (R206) -/
  | bpClear
  /-- BU_READ n, 0x22 (R208) -/
  | buRead (cnt : Nat)
  /-- RLE_ENC, 0x30 (R245) -/
  | rleEnc
  /-- RLE_DEC, 0x31 (R252) -/
  | rleDec
  deriving DecidableEq, Repr

end Sys2Proof
end

