-- ==== Sys2Proof/WellFormed.lean ====
section
/-! DEFINITION. Which terms of `Instr` stand for a command word: CNT is a 6-bit field (30_encoding R110, R111). -/

namespace Sys2Proof

/-- CNT fits bits [13:8] of the command word: 0..63 (R111). The legal range 1..32 is not an encoding rule: BP_WRITE and BU_READ
check it when they run and raise PARAM (R203). -/
def cntFits (cnt : Nat) : Bool := decide (cnt < 64)

/-- The command has a command word (R110, R111). -/
def Instr.wellFormed : Instr → Bool
  | .bpWrite cnt => cntFits cnt
  | .buRead cnt => cntFits cnt
  | .nop => true
  | .ctFwd => true
  | .ctInv => true
  | .bqEncode => true
  | .bqDecode => true
  | .bqSerialize => true
  | .bqDeserialize => true
  | .bpClear => true
  | .rleEnc => true
  | .rleDec => true

end Sys2Proof
end

