-- ==== Sys2Proof/Decode.lean ====
section
/-! DEFINITION. The decoder of 30_encoding R113, the encoder of the same tables (R110, R114), and the match and mask rows of
R115. -/

namespace Sys2Proof

/-- Why a command word is illegal, in the order of R113. Every one of them completes with the error ILLEGAL. -/
inductive Illegal where
  /-- RSV, bits [31:14], is not zero -/
  | reservedBits
  /-- OP, bits [7:0], is not in the opcode map of R114 -/
  | unknownOpcode (op : Nat)
  /-- CNT, bits [13:8], is not zero and the opcode takes no CNT -/
  | strayCount (op cnt : Nat)
  deriving DecidableEq, Repr

/-- OP, bits [7:0] (R110). -/
def opField (w : Word) : Nat := (w.extractLsb' 0 8).toNat

/-- CNT, bits [13:8], zero-extended (R110, R111). -/
def cntField (w : Word) : Nat := (w.extractLsb' 8 6).toNat

/-- RSV, bits [31:14] (R110). -/
def rsvField (w : Word) : Nat := (w.extractLsb' 14 18).toNat

/-- The opcode map of R114, with CNT handed to the two commands that take it. -/
def instrOf (op cnt : Nat) : Option Instr :=
  match op with
  | 0x00 => some .nop
  | 0x01 => some .ctFwd
  | 0x02 => some .ctInv
  | 0x10 => some .bqEncode
  | 0x11 => some .bqDecode
  | 0x12 => some .bqSerialize
  | 0x13 => some .bqDeserialize
  | 0x20 => some (.bpWrite cnt)
  | 0x21 => some .bpClear
  | 0x22 => some (.buRead cnt)
  | 0x30 => some .rleEnc
  | 0x31 => some .rleDec
  | _ => none

/-- The two opcodes that take a CNT (R113, third line). -/
def takesCount (op : Nat) : Bool := op == 0x20 || op == 0x22

/-- R113: the engine's classification of a command word, its three tests in the order given. -/
def decode (w : Word) : Except Illegal Instr :=
  if rsvField w ≠ 0 then .error .reservedBits
  else
    match instrOf (opField w) (cntField w) with
    | none => .error (.unknownOpcode (opField w))
    | some i =>
      if !takesCount (opField w) && cntField w != 0 then .error (.strayCount (opField w) (cntField w))
      else .ok i

/-- The command's OP (R114). -/
def Instr.opcode : Instr → Nat
  | .nop => 0x00
  | .ctFwd => 0x01
  | .ctInv => 0x02
  | .bqEncode => 0x10
  | .bqDecode => 0x11
  | .bqSerialize => 0x12
  | .bqDeserialize => 0x13
  | .bpWrite _ => 0x20
  | .bpClear => 0x21
  | .buRead _ => 0x22
  | .rleEnc => 0x30
  | .rleDec => 0x31

/-- The command's CNT: 0 for every opcode that takes none (R110). -/
def Instr.count : Instr → Nat
  | .bpWrite cnt => cnt
  | .buRead cnt => cnt
  | .nop => 0
  | .ctFwd => 0
  | .ctInv => 0
  | .bqEncode => 0
  | .bqDecode => 0
  | .bqSerialize => 0
  | .bqDeserialize => 0
  | .bpClear => 0
  | .rleEnc => 0
  | .rleDec => 0

/-- The command word of a well-formed command: OP in [7:0], CNT in [13:8], RSV = 0 (R110). -/
def encode (i : Instr) : Word := BitVec.ofNat 32 (i.opcode + 256 * i.count)

/-- One row of R115: the mnemonic, and the words `w` with `w &&& mask = pattern`. -/
structure OpcodeRow where
  mnemonic : String
  pattern : Word
  mask : Word
  deriving DecidableEq, Repr

/-- The rows of R115, in the spec's order. -/
def opcodeRows : List OpcodeRow :=
  [⟨"NOP", 0x00000000, 0xFFFFFFFF⟩,
   ⟨"CT_FWD", 0x00000001, 0xFFFFFFFF⟩,
   ⟨"CT_INV", 0x00000002, 0xFFFFFFFF⟩,
   ⟨"BQ_ENCODE", 0x00000010, 0xFFFFFFFF⟩,
   ⟨"BQ_DECODE", 0x00000011, 0xFFFFFFFF⟩,
   ⟨"BQ_SERIALIZE", 0x00000012, 0xFFFFFFFF⟩,
   ⟨"BQ_DESERIALIZE", 0x00000013, 0xFFFFFFFF⟩,
   ⟨"BP_WRITE", 0x00000020, 0xFFFFC0FF⟩,
   ⟨"BP_CLEAR", 0x00000021, 0xFFFFFFFF⟩,
   ⟨"BU_READ", 0x00000022, 0xFFFFC0FF⟩,
   ⟨"RLE_ENC", 0x00000030, 0xFFFFFFFF⟩,
   ⟨"RLE_DEC", 0x00000031, 0xFFFFFFFF⟩]

/-- The command's name in R114. -/
def Instr.mnemonic : Instr → String
  | .nop => "NOP"
  | .ctFwd => "CT_FWD"
  | .ctInv => "CT_INV"
  | .bqEncode => "BQ_ENCODE"
  | .bqDecode => "BQ_DECODE"
  | .bqSerialize => "BQ_SERIALIZE"
  | .bqDeserialize => "BQ_DESERIALIZE"
  | .bpWrite _ => "BP_WRITE"
  | .bpClear => "BP_CLEAR"
  | .buRead _ => "BU_READ"
  | .rleEnc => "RLE_ENC"
  | .rleDec => "RLE_DEC"

/-- A word belongs to a row of R115. -/
def OpcodeRow.accepts (r : OpcodeRow) (w : Word) : Bool := w &&& r.mask == r.pattern

/-- The host's view of the decoder: an instruction's bits as the table numbers them. A command is exactly one 32-bit word
(R110), so bits above `nbits` are zero and anything longer is no command. -/
def decodeTableWord (nbits w : Nat) : Option Instr :=
  if w % 2 ^ nbits < 2 ^ 32 then (decode (BitVec.ofNat 32 (w % 2 ^ nbits))).toOption else none

end Sys2Proof
end

