-- ==== Sys2Proof/Config.lean ====
section
/-! DEFINITION. The instance parameters of 00_scope R10 and the free values of 93_implementation_defined (U8 to U12). -/

namespace Sys2Proof.Config

/-- The default of `P_ID` (R10, R32): ASCII "LI", version 1. Held by State in its ID register (log 5). -/
def defaultId : Word := 0x4C490001

/-- The default of `P_MEM_BYTES` (R10): held by State in its MEM_CAP register (log 5). -/
def defaultMemBytes : Nat := 65536

/-- The legal values of `P_MEM_BYTES` (R10): multiples of 4 in 256..1048576. -/
def legalMemBytes (n : Nat) : Bool := n % 4 == 0 && decide (256 ≤ n) && decide (n ≤ 1048576)

/-- The free values: the bits that the spec calls unspecified, of width `w`, for draw number `draw` and entry `index` of
what was drawn. It has no body: no proof can learn any bit of it, so whatever holds of the model holds for every value
(R76, R252, R245, R324, R332; log 1, log 2). -/
opaque freeBits : (w : Nat) → (draw : Nat) → (index : Nat) → BitVec w

end Sys2Proof.Config
end

