-- ==== Sys2Proof/Machine/State.lean ====
section
/-! DEFINITION. The architectural state of LICORE (10_state R30, R76), the bus events that reach it (20_memory R80, R81), the
reasons a step can stop, and the state after a hardware reset. Plain data throughout. -/

namespace Sys2Proof.Machine

/-- The error codes of 60_exceptions R281. Codes 7..15 are reserved and never produced, so they have no constructor
(log 13). -/
inductive ErrCode where
  /-- 0 -/
  | noError
  /-- 1 -/
  | illegal
  /-- 2 -/
  | param
  /-- 3 -/
  | noRecord
  /-- 4 -/
  | capacity
  /-- 5 -/
  | underrun
  /-- 6 -/
  | format
  deriving DecidableEq, Repr

/-- STATUS (R34): its fields, the reserved bits having no storage (R32). `busy` is also the engine state of R70: IDLE when
false, BUSY(CMD) when true (R35). -/
structure Status where
  busy : Bool
  done : Bool
  err : Bool
  fieldOvf : Bool
  cmdOvr : Bool
  wrIgn : Bool
  errCode : ErrCode
  recValid : Bool
  deriving DecidableEq, Repr

/-- QCFG (R45): each field as written, legal or not. -/
structure Qcfg where
  blockSize : BitVec 4
  yDeltaBits : BitVec 4
  crcbBits : BitVec 4
  deriving DecidableEq, Repr

/-- The registers of the block record (R50 to R56); its residuals are `State.resbuf` and its flag is
`Status.recValid`. -/
structure BlockRecord where
  /-- QB_POS.X, QB_POS.Y (R51) -/
  posX : BitVec 16
  posY : BitVec 16
  /-- QB_DIM.W, QB_DIM.H (R52) -/
  dimW : BitVec 4
  dimH : BitVec 4
  /-- QB_BITS.YDBITS, .CBITS, .RBN, .SHIFT (R53) -/
  ydBits : BitVec 4
  cBits : BitVec 4
  rbn : BitVec 4
  shift : BitVec 4
  /-- QB_LUMA.BASEY, .MAXDELTA (R54) -/
  baseY : BitVec 8
  maxDelta : BitVec 8
  /-- QB_CHROMA.AVGCR, .AVGCB (R55) -/
  avgCr : BitVec 8
  avgCb : BitVec 8
  /-- QB_CSIZE[15:0] (R56) -/
  csize : BitVec 16
  deriving DecidableEq, Repr

/-- A memory or buffer of `w`-bit entries (R60 to R63, R67): the entries that have been written, as (index, entry) pairs with
rising indices. An index that is not listed has no stored entry: it reads as the free value of draw `epoch` at that index
(R76, U10; log 1). With w = 8 the list is a list of `Host.Cell`. -/
structure Memory (w : Nat) where
  epoch : Nat
  cells : List (Nat × BitVec w)
  deriving DecidableEq, Repr

/-- One bus transaction `(we, addr, wdata, wstrb)` (R80, R81). -/
structure Transaction where
  we : Bool
  addr : BusAddr
  wdata : Word
  wstrb : BitVec 4
  deriving DecidableEq, Repr

/-- What the host can do: complete one bus transaction (R81), or pulse `rst_n` low and high again (R320; log 10). -/
inductive HostAction where
  | transaction (t : Transaction)
  | hardReset
  deriving DecidableEq, Repr

/-- One host event still to come. `early` says where it lands when a command is running: before that command's completion, or
after it. Both orders exist (R286, U15), and this is the datum that selects one (log 3). -/
structure HostEvent where
  action : HostAction
  early : Bool
  deriving DecidableEq, Repr

/-- What the bus answered to the last completed transaction (R80, R81): a read returns data and `bus_err`, a write returns
`bus_err`; before the first transaction after a hardware reset there is no answer (log 11). -/
inductive BusResponse where
  | silent
  | readDone (rdata : Word) (err : Bool)
  | writeDone (err : Bool)
  deriving DecidableEq, Repr

/-- The whole machine. INVENTORY.md lists each field with its rule and reset value. -/
structure State where
  /-- ID (R32), the instance parameter P_ID -/
  id : Word
  /-- MEM_CAP[20:0] (R68), the instance parameter P_MEM_BYTES -/
  memCap : BitVec 21
  /-- CTRL.IRQ_EN (R33) -/
  irqEn : Bool
  /-- STATUS (R34) and the engine state (R70) -/
  status : Status
  /-- CMD (R41) -/
  cmd : Word
  /-- ARG0 (R42) -/
  arg0 : Word
  /-- RESULT (R43) -/
  result : Word
  /-- ERR_CMD (R44) -/
  errCmd : Word
  /-- ERR_POS[23:0] (R44) -/
  errPos : BitVec 24
  /-- IMG_W[15:0], IMG_H[15:0] (R46) -/
  imgW : BitVec 16
  imgH : BitVec 16
  /-- BLK_X[15:0], BLK_Y[15:0] (R47) -/
  blkX : BitVec 16
  blkY : BitVec 16
  /-- QCFG (R45) -/
  qcfg : Qcfg
  /-- QB_POS to QB_CSIZE (R51 to R56) -/
  qb : BlockRecord
  /-- A_LEN[20:0], A_CUR[2:0] (R64) -/
  aLen : BitVec 21
  aCur : BitVec 3
  /-- RD_POS[23:0] (R66) -/
  rdPos : BitVec 24
  /-- B_LEN[20:0] (R67) -/
  bLen : BitVec 21
  /-- PIXBUF[0..63], bits [23:0] (R60) -/
  pixbuf : Memory 24
  /-- OUTBUF[0..63], bits [23:0] (R61) -/
  outbuf : Memory 24
  /-- RESBUF[0..63], bits [7:0] (R62) -/
  resbuf : Memory 8
  /-- byte memory A (R63) -/
  memA : Memory 8
  /-- byte memory B (R67) -/
  memB : Memory 8
  /-- the bus answer to the last transaction (R80, R81) -/
  resp : BusResponse
  /-- the MODEL's own: how many free draws have been made (log 2) -/
  draws : Nat
  /-- the MODEL's own: the host events still to come, first one first (log 3) -/
  pending : List HostEvent
  deriving DecidableEq, Repr

/-- Why the machine stops. Both are the model's own and safe: the spec gives no effect there, because the byte or entry does not
exist, and no state that a run reaches raises them (log 12). -/
inductive Fault where
  /-- Raised by BU_READ, BQ_DESERIALIZE, RLE_ENC and RLE_DEC when A_LEN or B_LEN is above P_MEM_BYTES, so that the engine would read a
  byte that its memory does not have (R63, R64, R67). Safe. -/
  | beyondMemory
  /-- Raised by BQ_SERIALIZE when the record's footprint is wider or higher than 8, so that the engine would read a RESBUF entry at or
  above 64 (R57, R58, R62). Safe. -/
  | beyondBuffer
  deriving DecidableEq, Repr

/-- Why a command is turned away without a meaning. -/
inductive Refusal where
  /-- Raised by `exec` for a command whose meaning has not been written. No arm of this model answers it. Safe. -/
  | notModelled (mnemonic : String)
  deriving DecidableEq, Repr

/-- STATUS after a reset: 0 (R76, R321). -/
def Status.reset : Status :=
  { busy := false, done := false, err := false, fieldOvf := false, cmdOvr := false, wrIgn := false,
    errCode := .noError, recValid := false }

/-- QB_POS to QB_CSIZE after a reset: 0 (R76). -/
def BlockRecord.reset : BlockRecord :=
  { posX := 0, posY := 0, dimW := 0, dimH := 0, ydBits := 0, cBits := 0, rbn := 0, shift := 0,
    baseY := 0, maxDelta := 0, avgCr := 0, avgCb := 0, csize := 0 }

/-- The machine right after a hardware reset of the default instance (R76, R320, R321). The five memories list nothing: each
reads as free values of a draw of its own (log 1, log 2). No host event is to come (log 4). -/
def State.reset : State :=
  { id := Config.defaultId
    memCap := BitVec.ofNat 21 Config.defaultMemBytes
    irqEn := false
    status := Status.reset
    cmd := 0, arg0 := 0, result := 0, errCmd := 0, errPos := 0
    imgW := 0, imgH := 0, blkX := 0, blkY := 0
    qcfg := { blockSize := 0, yDeltaBits := 0, crcbBits := 0 }
    qb := BlockRecord.reset
    aLen := 0, aCur := 0, rdPos := 0, bLen := 0
    pixbuf := { epoch := 0, cells := [] }
    outbuf := { epoch := 1, cells := [] }
    resbuf := { epoch := 2, cells := [] }
    memA := { epoch := 3, cells := [] }
    memB := { epoch := 4, cells := [] }
    resp := .silent
    draws := 5
    pending := [] }

end Sys2Proof.Machine
end

