-- ==== Sys2Proof/Machine/Ops.lean ====
section
/-! DEFINITION. The shared operations: the memories, how a command completes or ends in an error (60_exceptions R289, R290), how a
command is issued (30_encoding R112), and how state becomes unspecified. -/

namespace Sys2Proof.Machine

/-! ## Memories -/

/-- The stored entry at index `k`, if one is listed. -/
def findCell {w : Nat} (k : Nat) : List (Nat × BitVec w) → Option (BitVec w)
  | [] => none
  | (a, x) :: rest => if a = k then some x else findCell k rest

/-- `cells` with the entry at index `k` set to `v`, in rising order of index. -/
def insertCell {w : Nat} (k : Nat) (v : BitVec w) : List (Nat × BitVec w) → List (Nat × BitVec w)
  | [] => [(k, v)]
  | (a, x) :: rest =>
    if k < a then (k, v) :: (a, x) :: rest
    else if k = a then (k, v) :: rest
    else (a, x) :: insertCell k v rest

/-- The one reading of a memory: what was written at `k`, or the free value of the memory's draw where nothing was (R76, U10;
log 1). -/
def Memory.get {w : Nat} (m : Memory w) (k : Nat) : BitVec w :=
  (findCell k m.cells).getD (Config.freeBits w m.epoch k)

/-- The one writing of a memory. -/
def Memory.set {w : Nat} (m : Memory w) (k : Nat) (v : BitVec w) : Memory w :=
  { m with cells := insertCell k v m.cells }

/-- A memory whose every entry is unspecified, drawn as draw number `draw`. -/
def Memory.unspecified {w : Nat} (draw : Nat) : Memory w := { epoch := draw, cells := [] }

/-- `m` with all of its `n` entries written: entry `i` becomes `f i` (R61, R62). -/
def Memory.fill {w : Nat} (m : Memory w) (n : Nat) (f : Nat → BitVec w) : Memory w :=
  { m with cells := (List.range n).map fun i => (i, f i) }

/-- `MemRead(M, k, n)` of R15. -/
def Memory.read {w : Nat} (m : Memory w) (k : Nat) : Nat → List (BitVec w)
  | 0 => []
  | n + 1 => m.get k :: m.read (k + 1) n

/-- `MemWrite(M, k, n, bytes)` of R15, `n` being the number of bytes given. -/
def Memory.write {w : Nat} (m : Memory w) (k : Nat) : List (BitVec w) → Memory w
  | [] => m
  | v :: rest => (m.set k v).write (k + 1) rest

/-- The canonical form: indices strictly rising and below `n`. An unlisted index has no stored entry, so none can be equal to one;
equal lists and epochs are equal memories (log 1). -/
abbrev Memory.wf {w : Nat} (m : Memory w) (n : Nat) : Prop :=
  m.cells.Pairwise (fun a b => a.1 < b.1) ∧ ∀ c ∈ m.cells, c.1 < n

/-- `P_MEM_BYTES` of this instance, as MEM_CAP holds it (R10, R68). -/
def State.cap (s : State) : Nat := s.memCap.toNat

/-! ## Issue, completion and error completion -/

/-- The number of an error code (R281). -/
def ErrCode.code : ErrCode → BitVec 4
  | .noError => 0
  | .illegal => 1
  | .param => 2
  | .noRecord => 3
  | .capacity => 4
  | .underrun => 5
  | .format => 6

/-- What an error completion reports: `raise Error(code, pos)` of R15. -/
structure CmdError where
  code : ErrCode
  pos : Nat
  deriving DecidableEq, Repr

/-- R112: an accepted CMD write. -/
def issue (w : Word) (s : State) : State :=
  { s with cmd := w,
           status := { s.status with done := false, err := false, errCode := .noError, busy := true } }

/-- R289: successful completion, after the command's own writes. -/
def complete (s : State) : State :=
  { s with status := { s.status with busy := false, done := true } }

/-- R290: error completion, LICORE's taking of an exception (R280, R291), after the partial effects R284 allows. It saves the command
word, the position and the code; DONE is not written. -/
def raiseError (code : ErrCode) (pos : Nat) (s : State) : State :=
  { s with errCmd := s.cmd
           errPos := BitVec.ofNat 24 pos
           status := { s.status with errCode := code, err := true, busy := false } }

/-- A command that ends in an error from the state `s`. -/
def errorExit (code : ErrCode) (pos : Nat) (s : State) : Host.Outcome State Fault Refusal :=
  .next (raiseError code pos s)

/-- The end of a precise command started in `s` (R284, R291): with a result it completes, with an error it leaves exactly `s` plus the
error recording. -/
def settle (s : State) : Except CmdError State → Host.Outcome State Fault Refusal
  | .ok t => .next (complete t)
  | .error e => errorExit e.code e.pos s

/-- The engine reads the first A_LEN bytes of A: every one of them exists, or it stops (log 12). -/
def needStream (s : State) (go : Host.Outcome State Fault Refusal) : Host.Outcome State Fault Refusal :=
  if s.aLen.toNat ≤ s.cap then go else .fault .beyondMemory

/-- The engine reads the first B_LEN bytes of B: every one of them exists, or it stops (log 12). -/
def needChunks (s : State) (go : Host.Outcome State Fault Refusal) : Host.Outcome State Fault Refusal :=
  if s.bLen.toNat ≤ s.cap then go else .fault .beyondMemory

/-! ## State that becomes unspecified -/

/-- Every byte of A becomes unspecified: a draw that was never made before (R252, R324; log 7, log 8). -/
def forgetA (s : State) : State :=
  { s with memA := Memory.unspecified s.draws, draws := s.draws + 1 }

/-- Every byte of B becomes unspecified (R245, R324; log 7, log 8). -/
def forgetB (s : State) : State :=
  { s with memB := Memory.unspecified s.draws, draws := s.draws + 1 }

/-- Every entry of OUTBUF becomes unspecified (R324; log 7). -/
def forgetOutbuf (s : State) : State :=
  { s with outbuf := Memory.unspecified s.draws, draws := s.draws + 1 }

/-- Every entry of RESBUF becomes unspecified (R324; log 7). -/
def forgetResbuf (s : State) : State :=
  { s with resbuf := Memory.unspecified s.draws, draws := s.draws + 1 }

/-! ## Resets -/

/-- Every register at its R76 value, except ID and MEM_CAP, which never change; the engine IDLE; the five memories, the bus answer and
the model's own fields as they were (R324, R76). -/
def resetRegisters (s : State) : State :=
  { State.reset with
      id := s.id, memCap := s.memCap,
      pixbuf := s.pixbuf, outbuf := s.outbuf, resbuf := s.resbuf, memA := s.memA, memB := s.memB,
      resp := s.resp, draws := s.draws, pending := s.pending }

/-- R320, R76: the hardware reset pulse. Any running command is abandoned, every register takes its reset value, the buffers and byte
memories become unspecified, and the bus has answered nothing yet (log 10, log 11). -/
def hardReset (s : State) : State :=
  { resetRegisters s with
      pixbuf := Memory.unspecified s.draws
      outbuf := Memory.unspecified (s.draws + 1)
      resbuf := Memory.unspecified (s.draws + 2)
      memA := Memory.unspecified (s.draws + 3)
      memB := Memory.unspecified (s.draws + 4)
      resp := .silent
      draws := s.draws + 5 }

end Sys2Proof.Machine
end

