-- ==== Sys2Proof/Machine/Flags.lean ====
section
/-! DEFINITION. STATUS as the host sees it, its write-one-to-clear bits, the FIELD_OVF rule and the interrupt output (10_state R34 to
R40, 60_exceptions R295). -/

namespace Sys2Proof.Machine

/-- One flag as a bit. -/
def flagBit (b : Bool) : BitVec 1 := if b then 1 else 0

/-- STATUS as a word (R34); reserved bits [7:6] and [31:13] read 0. -/
def Status.word (t : Status) : Word :=
  0#19 ++ flagBit t.recValid ++ t.errCode.code ++ 0#2 ++ flagBit t.wrIgn ++ flagBit t.cmdOvr ++
    flagBit t.fieldOvf ++ flagBit t.err ++ flagBit t.done ++ flagBit t.busy

/-- A host write of `v` to STATUS: each of bits 1 to 5 that is 1 in `v` is cleared; BUSY, ERRCODE and REC_VALID ignore it (R34, R37). -/
def Status.acknowledge (t : Status) (v : Word) : Status :=
  { t with done := t.done && !v.getLsbD 1
           err := t.err && !v.getLsbD 2
           fieldOvf := t.fieldOvf && !v.getLsbD 3
           cmdOvr := t.cmdOvr && !v.getLsbD 4
           wrIgn := t.wrIgn && !v.getLsbD 5 }

/-- `v` does not fit `n` bits: it has a 1 bit at or above bit `n` (R38, R204, R216). -/
def overflows (v n : Nat) : Bool := v >>> n != 0

/-- FIELD_OVF after packing `v` in `n` bits: set when it does not fit, never cleared (R38). -/
def noteOverflow (v n : Nat) (s : State) : State :=
  { s with status := { s.status with fieldOvf := s.status.fieldOvf || overflows v n } }

/-- The `irq` output (R295). -/
def State.irq (s : State) : Bool := s.irqEn && (s.status.done || s.status.err)

end Sys2Proof.Machine
end

