-- ==== Sys2Proof/Machine/Stream.lean ====
section
/-! DEFINITION. The packed bit stream in A (42_bit_packer R200 to R202, R207; 10_state R64, R65). -/

namespace Sys2Proof.Machine

/-- `A_NBITS` (R65). A_CUR ≠ 0 implies A_LEN ≥ 1 (R64), so the subtraction never goes below zero in a state that a run
reaches (log 12). -/
def nbits (s : State) : Nat :=
  if s.aCur = 0 then 8 * s.aLen.toNat else 8 * (s.aLen.toNat - 1) + s.aCur.toNat

/-- `StreamBit(k)` (R201, R87). -/
def streamBit (m : Memory 8) (k : Nat) : Bool := (m.get (k / 8)).getLsbD (k % 8)

/-- `x` with bit `i` assigned (R202: assigned, not OR-ed). -/
def assignBit (x : Byte) (i : Nat) (b : Bool) : Byte :=
  if b then x ||| (1#8 <<< i) else x &&& ~~~(1#8 <<< i)

/-- One turn of the loop of R202: a byte that stream bit `k` opens is zeroed first. -/
def putBit (k : Nat) (b : Bool) (m : Memory 8) : Memory 8 :=
  let opened := if k % 8 = 0 then m.set (k / 8) 0 else m
  opened.set (k / 8) (assignBit (opened.get (k / 8)) (k % 8) b)

/-- A after the loop of R202 has appended bits `0 .. n−1` of `v` at stream bit `start`. -/
def putBits (start v : Nat) : Nat → Memory 8 → Memory 8
  | 0, m => m
  | n + 1, m => putBit (start + n) (v.testBit n) (putBits start v n m)

/-- A_LEN after the same loop: the last byte that was opened sets it (R202). -/
def lenAfter (start : Nat) : Nat → BitVec 21 → BitVec 21
  | 0, len => len
  | n + 1, len =>
    if (start + n) % 8 = 0 then BitVec.ofNat 21 ((start + n) / 8 + 1) else lenAfter start n len

/-- `AppendBits(v, n)` (R202). The caller has checked that the stream has room. -/
def appendBits (v n : Nat) (s : State) : State :=
  { s with memA := putBits (nbits s) v n s.memA
           aLen := lenAfter (nbits s) n s.aLen
           aCur := BitVec.ofNat 3 ((nbits s + n) % 8) }

/-- `AppendField(v, n)` of R216, and the last steps of R204: FIELD_OVF when `v` does not fit, then its `n` low bits. -/
def appendField (v n : Nat) (s : State) : State := appendBits (v % 2 ^ n) n (noteOverflow v n s)

/-- `ReadBits(pos, n)` (R207). -/
def readBits (m : Memory 8) (pos : Nat) : Nat → Nat
  | 0 => 0
  | n + 1 => readBits m pos n + if streamBit m (pos + n) then 2 ^ n else 0

end Sys2Proof.Machine
end

