-- ==== Sys2Proof/Machine/Bus.lean ====
section
/-! DEFINITION. The register bus: the address map (10_state R31), bus errors (20_memory R84), reads and writes (R83, R86, R89), host accesses
while a command runs (70_reset_and_hazards R330 to R332), the soft reset (R324), and one host event. -/

namespace Sys2Proof.Machine

/-- The registers of R31. -/
inductive Reg where
  | id | ctrl | status | cmd | arg0 | result | errCmd | errPos
  | imgW | imgH | blkX | blkY | qcfg
  | qbPos | qbDim | qbBits | qbLuma | qbChroma | qbCsize
  | aLen | aCur | aNbits | rdPos | bLen | memCap
  deriving DecidableEq, Repr

/-- What a mapped bus address names: a register, a buffer entry, or the word of a byte memory that starts at byte `k` (R31). -/
inductive Target where
  | reg (r : Reg)
  | pixbuf (i : Nat)
  | outbuf (i : Nat)
  | resbuf (i : Nat)
  | memA (k : Nat)
  | memB (k : Nat)
  deriving DecidableEq, Repr

/-- The bus errors of R84, in the order they are checked. -/
inductive BusError where
  | misaligned
  | unmapped
  | readOnly
  | partialStrobe
  deriving DecidableEq, Repr

/-- The offset of each register (R31). -/
def Reg.offset : Reg → Nat
  | .id => 0x000
  | .ctrl => 0x004
  | .status => 0x008
  | .cmd => 0x00C
  | .arg0 => 0x010
  | .result => 0x014
  | .errCmd => 0x018
  | .errPos => 0x01C
  | .imgW => 0x020
  | .imgH => 0x024
  | .blkX => 0x028
  | .blkY => 0x02C
  | .qcfg => 0x030
  | .qbPos => 0x040
  | .qbDim => 0x044
  | .qbBits => 0x048
  | .qbLuma => 0x04C
  | .qbChroma => 0x050
  | .qbCsize => 0x054
  | .aLen => 0x080
  | .aCur => 0x084
  | .aNbits => 0x088
  | .rdPos => 0x08C
  | .bLen => 0x090
  | .memCap => 0x094

/-- Every register (R31). -/
def Reg.all : List Reg :=
  [.id, .ctrl, .status, .cmd, .arg0, .result, .errCmd, .errPos, .imgW, .imgH, .blkX, .blkY, .qcfg,
   .qbPos, .qbDim, .qbBits, .qbLuma, .qbChroma, .qbCsize, .aLen, .aCur, .aNbits, .rdPos, .bLen, .memCap]

/-- The registers whose access type is RO in R31: a write to one is a bus error (R32, R84). STATUS is not among them (R34). -/
def Reg.readOnly : Reg → Bool
  | .id => true
  | .result => true
  | .errCmd => true
  | .errPos => true
  | .qbPos => true
  | .qbDim => true
  | .qbBits => true
  | .qbLuma => true
  | .qbChroma => true
  | .qbCsize => true
  | .aCur => true
  | .aNbits => true
  | .memCap => true
  | .ctrl => false
  | .status => false
  | .cmd => false
  | .arg0 => false
  | .imgW => false
  | .imgH => false
  | .blkX => false
  | .blkY => false
  | .qcfg => false
  | .aLen => false
  | .rdPos => false
  | .bLen => false

/-- The address map of R31 for an instance of `cap` memory bytes, on a 4-byte-aligned address; `none` is unmapped (R84). -/
def targetAt (cap addr : Nat) : Option Target :=
  if addr < 0x100 then (Reg.all.find? fun r => r.offset == addr).map Target.reg
  else if 0x400 ≤ addr ∧ addr < 0x500 then some (.pixbuf ((addr - 0x400) / 4))
  else if 0x500 ≤ addr ∧ addr < 0x600 then some (.outbuf ((addr - 0x500) / 4))
  else if 0x600 ≤ addr ∧ addr < 0x700 then some (.resbuf ((addr - 0x600) / 4))
  else if 0x100000 ≤ addr ∧ addr < 0x100000 + cap then some (.memA (addr - 0x100000))
  else if 0x200000 ≤ addr ∧ addr < 0x200000 + cap then some (.memB (addr - 0x200000))
  else none

/-- The target's access type is RO (R31). -/
def Target.readOnly : Target → Bool
  | .reg r => r.readOnly
  | .pixbuf _ => false
  | .outbuf _ => true
  | .resbuf _ => true
  | .memA _ => false
  | .memB _ => false

/-- The target is a register at 0x000..0x0FF (R83). -/
def Target.isReg : Target → Bool
  | .reg _ => true
  | .pixbuf _ => false
  | .outbuf _ => false
  | .resbuf _ => false
  | .memA _ => false
  | .memB _ => false

/-- R84: the first bus error of a transaction, or what it reaches. -/
def access (cap : Nat) (t : Transaction) : Except BusError Target :=
  if t.addr.toNat % 4 ≠ 0 then .error .misaligned
  else
    match targetAt cap t.addr.toNat with
    | none => .error .unmapped
    | some x =>
      if t.we && x.readOnly then .error .readOnly
      else if t.we && x.isReg && t.wstrb != 0xF then .error .partialStrobe
      else .ok x

/-- The four bytes `M[k], .., M[k+3]` as a word, `M[k]` in bits [7:0] (R86). -/
def wordAt (m : Memory 8) (k : Nat) : Word :=
  m.get (k + 3) ++ m.get (k + 2) ++ m.get (k + 1) ++ m.get k

/-- The value a register reads as, reserved bits 0 (R32 to R68). -/
def readReg (s : State) : Reg → Word
  | .id => s.id
  | .ctrl => (flagBit s.irqEn).setWidth 32
  | .status => s.status.word
  | .cmd => s.cmd
  | .arg0 => s.arg0
  | .result => s.result
  | .errCmd => s.errCmd
  | .errPos => s.errPos.setWidth 32
  | .imgW => s.imgW.setWidth 32
  | .imgH => s.imgH.setWidth 32
  | .blkX => s.blkX.setWidth 32
  | .blkY => s.blkY.setWidth 32
  | .qcfg => 0#12 ++ s.qcfg.crcbBits ++ 0#4 ++ s.qcfg.yDeltaBits ++ 0#4 ++ s.qcfg.blockSize
  | .qbPos => s.qb.posY ++ s.qb.posX
  | .qbDim => 0#20 ++ s.qb.dimH ++ 0#4 ++ s.qb.dimW
  | .qbBits => 0#4 ++ s.qb.shift ++ 0#4 ++ s.qb.rbn ++ 0#4 ++ s.qb.cBits ++ 0#4 ++ s.qb.ydBits
  | .qbLuma => 0#16 ++ s.qb.maxDelta ++ s.qb.baseY
  | .qbChroma => 0#16 ++ s.qb.avgCb ++ s.qb.avgCr
  | .qbCsize => s.qb.csize.setWidth 32
  | .aLen => s.aLen.setWidth 32
  | .aCur => s.aCur.setWidth 32
  | .aNbits => (BitVec.ofNat 24 (nbits s)).setWidth 32
  | .rdPos => s.rdPos.setWidth 32
  | .bLen => s.bLen.setWidth 32
  | .memCap => s.memCap.setWidth 32

/-- The word a target reads as (R60 to R63, R67, R86). -/
def readTarget (s : State) : Target → Word
  | .reg r => readReg s r
  | .pixbuf i => (s.pixbuf.get i).setWidth 32
  | .outbuf i => (s.outbuf.get i).setWidth 32
  | .resbuf i => (s.resbuf.get i).setWidth 32
  | .memA k => wordAt s.memA k
  | .memB k => wordAt s.memB k

/-- Byte `j` of a bus word (R80, R86). -/
def busByte (v : Word) (j : Nat) : Byte := v.extractLsb' (8 * j) 8

/-- One byte of `old` replaced by byte `j` of `v` when strobe bit `j` is 1 (R80, R83). -/
def strobed (v : Word) (strb : BitVec 4) (j : Nat) (old : Byte) : Byte :=
  if strb.getLsbD j then busByte v j else old

/-- The strobed bytes of a word stored at `M[k..k+3]`; a byte whose strobe is 0 is not written (R83, R86). -/
def storeByte (v : Word) (strb : BitVec 4) (k j : Nat) (m : Memory 8) : Memory 8 :=
  if strb.getLsbD j then m.set (k + j) (busByte v j) else m

/-- A word write to a byte memory (R83, R86, R90). -/
def storeWord (v : Word) (strb : BitVec 4) (k : Nat) (m : Memory 8) : Memory 8 :=
  storeByte v strb k 3 (storeByte v strb k 2 (storeByte v strb k 1 (storeByte v strb k 0 m)))

/-- A word write to PIXBUF: strobe bit 3 and data bits [31:24] have no effect (R60, R83). A write with none of the strobes 0 to 2
stores nothing. -/
def storePixel (v : Word) (strb : BitVec 4) (i : Nat) (m : Memory 24) : Memory 24 :=
  if strb.extractLsb' 0 3 = 0 then m
  else
    let old := m.get i
    m.set i (strobed v strb 2 (old.extractLsb' 16 8) ++ strobed v strb 1 (old.extractLsb' 8 8) ++
      strobed v strb 0 (old.extractLsb' 0 8))

/-- A length written by the host: `min(wdata[20:0], P_MEM_BYTES)` (R64, R67). -/
def clampLen (s : State) (v : Word) : BitVec 21 :=
  BitVec.ofNat 21 (min (v.extractLsb' 0 21).toNat s.cap)

/-- What a command writes on success and what a soft reset therefore leaves unspecified when it abandons it: the memories and buffers in
the "writes" column of R116. The registers of that column take their reset values next (R324; log 7). -/
def abandonWrites (i : Instr) (s : State) : State :=
  match i with
  | .nop => s
  | .ctFwd => s
  | .ctInv => s
  | .bqEncode => forgetResbuf s
  | .bqDecode => forgetOutbuf s
  | .bqSerialize => forgetA s
  | .bqDeserialize => forgetResbuf s
  | .bpWrite _ => forgetA s
  | .bpClear => s
  | .buRead _ => s
  | .rleEnc => forgetB s
  | .rleDec => forgetA s

/-- The running command, if one runs, is abandoned; the engine's command word is CMD (R30, R70). A word that is no command writes
nothing (R113; log 7). -/
def abandon (s : State) : State :=
  if s.status.busy then
    match decode s.cmd with
    | .ok i => abandonWrites i s
    | .error _ => s
  else s

/-- The soft reset (R324). -/
def softReset (s : State) : State := resetRegisters (abandon s)

/-- A write to CTRL, at any time (R33, R324, R330). -/
def writeCtrl (v : Word) (s : State) : State :=
  if v.getLsbD 1 then softReset s else { s with irqEn := v.getLsbD 0 }

/-- A write to STATUS, at any time (R34, R330). -/
def writeStatus (v : Word) (s : State) : State := { s with status := s.status.acknowledge v }

/-- A write to a register while no command runs (R41 to R47, R64, R66, R67, R112). The read-only registers are never reached
(R84). -/
def writeReg (v : Word) (s : State) : Reg → State
  | .ctrl => writeCtrl v s
  | .status => writeStatus v s
  | .cmd => issue v s
  | .arg0 => { s with arg0 := v }
  | .imgW => { s with imgW := v.extractLsb' 0 16 }
  | .imgH => { s with imgH := v.extractLsb' 0 16 }
  | .blkX => { s with blkX := v.extractLsb' 0 16 }
  | .blkY => { s with blkY := v.extractLsb' 0 16 }
  | .qcfg => { s with qcfg := { blockSize := v.extractLsb' 0 4
                                yDeltaBits := v.extractLsb' 8 4
                                crcbBits := v.extractLsb' 16 4 } }
  | .aLen => { s with aLen := clampLen s v, aCur := 0 }
  | .rdPos => { s with rdPos := v.extractLsb' 0 24 }
  | .bLen => { s with bLen := clampLen s v }
  | .id => s
  | .result => s
  | .errCmd => s
  | .errPos => s
  | .qbPos => s
  | .qbDim => s
  | .qbBits => s
  | .qbLuma => s
  | .qbChroma => s
  | .qbCsize => s
  | .aCur => s
  | .aNbits => s
  | .memCap => s

/-- A write while no command runs (R83, R89). OUTBUF and RESBUF are never reached (R84). -/
def writeIdle (v : Word) (strb : BitVec 4) (s : State) : Target → State
  | .reg r => writeReg v s r
  | .pixbuf i => { s with pixbuf := storePixel v strb i s.pixbuf }
  | .outbuf _ => s
  | .resbuf _ => s
  | .memA k => { s with memA := storeWord v strb k s.memA }
  | .memB k => { s with memB := storeWord v strb k s.memB }

/-- A write that is not a bus error while a command runs: CTRL and STATUS as always (R330), CMD not accepted and CMD_OVR set, every other
one ignored and WR_IGN set (R39, R40, R331). -/
def writeBusy (v : Word) (s : State) (x : Target) : State :=
  if x = .reg .ctrl then writeCtrl v s
  else if x = .reg .status then writeStatus v s
  else if x = .reg .cmd then { s with status := { s.status with cmdOvr := true } }
  else { s with status := { s.status with wrIgn := true } }

/-- The reads that return the current value while a command runs (R49, R332). -/
def Target.steady (x : Target) : Bool :=
  [Target.reg .id, Target.reg .ctrl, Target.reg .status, Target.reg .memCap].contains x

/-- A read that is not a bus error: it changes nothing but the bus answer (R89). While a command runs, any target but the steady ones
answers a free value, a new draw each time (R49, R332, U11; log 9). -/
def busRead (s : State) (x : Target) : State :=
  if s.status.busy && !x.steady then
    { s with resp := .readDone (Config.freeBits 32 s.draws 0) false, draws := s.draws + 1 }
  else { s with resp := .readDone (readTarget s x) false }

/-- A write that is not a bus error. -/
def busWrite (v : Word) (strb : BitVec 4) (s : State) (x : Target) : State :=
  { (if s.status.busy then writeBusy v s x else writeIdle v strb s x) with resp := .writeDone false }

/-- One completed bus transaction (R81). A bus error changes nothing but the answer, and a failing read answers 0 (R84, R85, R287). -/
def transact (t : Transaction) (s : State) : State :=
  match access s.cap t with
  | .error _ => { s with resp := if t.we then .writeDone true else .readDone 0 true }
  | .ok x => if t.we then busWrite t.wdata t.wstrb s x else busRead s x

/-- One host event (R81, R320). -/
def hostStep (a : HostAction) (s : State) : State :=
  match a with
  | .transaction t => transact t s
  | .hardReset => hardReset s

/-- A command word loaded as if its CMD write had just been accepted (R112), with the next host event, if there is one, after the
command's completion: what `State.withFetchWord` does (log 4). -/
def loadCommand (w : Word) (s : State) : State :=
  { issue w s with
      pending := match s.pending with
        | [] => []
        | e :: rest => { e with early := false } :: rest }

/-- The engine's step: it decodes CMD (R113) and executes and completes the command, or completes with ILLEGAL. `run` is the meaning of
a command. -/
def engineStep (run : Instr → State → Host.Outcome State Fault Refusal) (s : State) :
    Host.Outcome State Fault Refusal :=
  match decode s.cmd with
  | .ok i => run i s
  | .error _ => errorExit .illegal 0 s

/-- Whether the engine, and not the host, moves next: a command runs, and the next host event is not one that lands before its
completion (R81, R286; log 3). -/
def engineTurn (s : State) : Bool :=
  s.status.busy &&
    match s.pending with
    | [] => true
    | e :: _ => !e.early

end Sys2Proof.Machine
end

