-- ==== Sys2Proof/Machine/Arith.lean ====
section
/-! DEFINITION. The primitive functions of 00_scope R14, on integers of unbounded width (R13). -/

namespace Sys2Proof.Machine

/-- `tdiv(a, b)`: the quotient of `a` by `b > 0` truncated toward zero (R14). -/
def truncDiv (a b : Int) : Int := if 0 ≤ a then a / b else -(-a / b)

/-- `clamp8(v)` (R14). -/
def clamp8 (v : Int) : Nat := if v < 0 then 0 else if 255 < v then 255 else v.toNat

/-- `ceil_div(a, b)` (R14). -/
def ceilDiv (a b : Nat) : Nat := (a + b - 1) / b

/-- The least `b` from `start` on with `m ≤ 2 ^ b`, trying at most `fuel` values. -/
def leastPower (m start : Nat) : Nat → Nat
  | 0 => start
  | fuel + 1 => if m ≤ 2 ^ start then start else leastPower m (start + 1) fuel

/-- `rbn(m)`, residualBitsNeeded: the smallest `b ≥ 0` with `2 ^ b ≥ m` (R14, R161). It is not the bit length of `m` (C5, U7). -/
def rbn (m : Nat) : Nat := leastPower m 0 m

end Sys2Proof.Machine
end

