-- ==== Sys2Proof/Machine/Operands.lean ====
section
/-! DEFINITION. How the commands read their operands: the channels of a pixel word (10_state R59), the block geometry and the parameter
checks (41_block_quantizer R160, R162), the field width check (42_bit_packer R203). -/

namespace Sys2Proof.Machine

/-- An RGB triple, each channel 0..255 (R140). -/
structure Rgb where
  r : Nat
  g : Nat
  b : Nat
  deriving DecidableEq, Repr

/-- A YCbCr triple, each channel 0..255 (R140). -/
structure Ycc where
  y : Nat
  cr : Nat
  cb : Nat
  deriving DecidableEq, Repr

/-- The three channels of a pixel word: bits [23:16], [15:8], [7:0] (R59). -/
def channel2 (p : Pixel) : Nat := (p.extractLsb' 16 8).toNat
def channel1 (p : Pixel) : Nat := (p.extractLsb' 8 8).toNat
def channel0 (p : Pixel) : Nat := (p.extractLsb' 0 8).toNat

/-- `{R, G, B}` (R59). -/
def rgbOfPixel (p : Pixel) : Rgb := ⟨channel2 p, channel1 p, channel0 p⟩

/-- `{Y, Cr, Cb}` (R59). -/
def yccOfPixel (p : Pixel) : Ycc := ⟨channel2 p, channel1 p, channel0 p⟩

/-- Three channel values packed into bits [23:16], [15:8], [7:0] (R59). -/
def packChannels (a b c : Nat) : Pixel := BitVec.ofNat 8 a ++ BitVec.ofNat 8 b ++ BitVec.ofNat 8 c

/-- `ARG0[23:0]`: CT_FWD and CT_INV ignore bits [31:24] (R42, R146, R147). -/
def argPixel (s : State) : Pixel := s.arg0.extractLsb' 0 24

/-- `{8'h00, p}` (R59). -/
def wordOfPixel (p : Pixel) : Word := p.setWidth 32

/-- `geom()` of R160: the actual width and height of the block at the configured origin. -/
def geomW (s : State) : Nat := min s.qcfg.blockSize.toNat (s.imgW.toNat - s.blkX.toNat)
def geomH (s : State) : Nat := min s.qcfg.blockSize.toNat (s.imgH.toNat - s.blkY.toNat)

/-- `checkGeom()` of R162 passes. -/
def geomOk (s : State) : Bool :=
  decide (1 ≤ s.imgW.toNat) && decide (1 ≤ s.imgH.toNat) &&
  decide (s.blkX.toNat < s.imgW.toNat) && decide (s.blkY.toNat < s.imgH.toNat) &&
  [2, 4, 6, 8].contains s.qcfg.blockSize.toNat

/-- `checkBits()` of R162 passes. -/
def bitsOk (s : State) : Bool :=
  decide (1 ≤ s.qcfg.yDeltaBits.toNat) && decide (s.qcfg.yDeltaBits.toNat ≤ 8) &&
  decide (1 ≤ s.qcfg.crcbBits.toNat) && decide (s.qcfg.crcbBits.toNat ≤ 8)

/-- The field width check of BP_WRITE and BU_READ passes: `1 ≤ n ≤ 32` (R203). -/
def widthOk (n : Nat) : Bool := decide (1 ≤ n) && decide (n ≤ 32)

/-- Buffer index `i = row·8 + col` lies in a `w` by `h` footprint (R58). -/
def inFootprint (w h i : Nat) : Bool := decide (i % 8 < w) && decide (i / 8 < h)

/-- The buffer indices of a `w` by `h` footprint in row-major order, `col` fastest (R16, R58, R211). -/
def footprint (w h : Nat) : List Nat :=
  (List.range h).flatMap fun row => (List.range w).map fun col => row * 8 + col

end Sys2Proof.Machine
end

