-- ==== Sys2Proof/Machine/BitPacker.lean ====
section
/-! DEFINITION. BP_WRITE, BP_CLEAR and BU_READ (42_bit_packer R203 to R208). -/

namespace Sys2Proof.Machine

/-- BP_WRITE n (R204). -/
def execBpWrite (cnt : Nat) (s : State) : Host.Outcome State Fault Refusal :=
  if !widthOk cnt then errorExit .param 0 s
  else if 8 * s.cap < nbits s + cnt then errorExit .capacity (nbits s) s
  else settle s (.ok (appendField s.arg0.toNat cnt s))

/-- BP_CLEAR (R206): the bytes of A and FIELD_OVF are kept. -/
def execBpClear (s : State) : Host.Outcome State Fault Refusal :=
  settle s (.ok { s with aLen := 0, aCur := 0, rdPos := 0 })

/-- BU_READ n (R208). -/
def execBuRead (cnt : Nat) (s : State) : Host.Outcome State Fault Refusal :=
  if !widthOk cnt then errorExit .param 0 s
  else needStream s
    (if nbits s < s.rdPos.toNat + cnt then errorExit .underrun s.rdPos.toNat s
     else settle s (.ok { s with
       result := BitVec.ofNat 32 (readBits s.memA s.rdPos.toNat cnt)
       rdPos := BitVec.ofNat 24 (s.rdPos.toNat + cnt) }))

end Sys2Proof.Machine
end

