-- ==== Sys2Proof/Machine/ColorTransform.lean ====
section
/-! DEFINITION. The colour transform functions and the commands CT_FWD and CT_INV (40_color_transform R140 to R147). -/

namespace Sys2Proof.Machine

/-- Luma (R141). -/
def luma (c : Rgb) : Nat := clamp8 (((299 * c.r + 587 * c.g + 114 * c.b) / 1000 : Nat) : Int)

/-- `toYCrCb` (R140 to R143): the chroma channels use the integer luma. -/
def toYCrCb (c : Rgb) : Ycc :=
  let y := luma c
  { y := y
    cr := clamp8 (truncDiv (713 * ((c.r : Int) - y) + 128000) 1000)
    cb := clamp8 (truncDiv (564 * ((c.b : Int) - y) + 128000) 1000) }

/-- `toRGB` (R144): truncation first, then the clamp. -/
def toRGB (c : Ycc) : Rgb :=
  { r := clamp8 (truncDiv (1000 * (c.y : Int) + 1403 * ((c.cr : Int) - 128)) 1000)
    g := clamp8 (truncDiv (1000 * (c.y : Int) - 344 * ((c.cb : Int) - 128) - 714 * ((c.cr : Int) - 128)) 1000)
    b := clamp8 (truncDiv (1000 * (c.y : Int) + 1770 * ((c.cb : Int) - 128)) 1000) }

/-- `{Y, Cr, Cb}` as a pixel word (R59). -/
def pixelOfYcc (c : Ycc) : Pixel := packChannels c.y c.cr c.cb

/-- `{R, G, B}` as a pixel word (R59). -/
def pixelOfRgb (c : Rgb) : Pixel := packChannels c.r c.g c.b

/-- CT_FWD (R146). -/
def execCtFwd (s : State) : Host.Outcome State Fault Refusal :=
  settle s (.ok { s with result := wordOfPixel (pixelOfYcc (toYCrCb (rgbOfPixel (argPixel s)))) })

/-- CT_INV (R147). -/
def execCtInv (s : State) : Host.Outcome State Fault Refusal :=
  settle s (.ok { s with result := wordOfPixel (pixelOfRgb (toRGB (yccOfPixel (argPixel s)))) })

end Sys2Proof.Machine
end

