-- ==== Sys2Proof/Machine/Record.lean ====
section
/-! DEFINITION. The writing of the block record, shared by BQ_ENCODE and BQ_DESERIALIZE (10_state R50 to R57, 41_block_quantizer R165,
R168, R175, 42_bit_packer R222). -/

namespace Sys2Proof.Machine

/-- The residual shift `s = max(0, rbn(maxDelta) − d)` (R165). -/
def residualShift (maxDelta d : Nat) : Nat := rbn maxDelta - d

/-- `csize(n, d, maxDelta)` (R175). -/
def csize (n d maxDelta : Nat) : Nat := 4 + if 0 < maxDelta then ceilDiv (n * d) 8 else 0

/-- The values a record is made of. -/
structure BlockData where
  w : Nat
  h : Nat
  d : Nat
  c : Nat
  baseY : Nat
  maxDelta : Nat
  avgCr : Nat
  avgCb : Nat
  deriving DecidableEq, Repr

/-- The QB registers of a block at the configured origin (R168, R222). -/
def recordOf (s : State) (q : BlockData) : BlockRecord :=
  { posX := s.blkX
    posY := s.blkY
    dimW := BitVec.ofNat 4 q.w
    dimH := BitVec.ofNat 4 q.h
    ydBits := BitVec.ofNat 4 q.d
    cBits := BitVec.ofNat 4 q.c
    rbn := BitVec.ofNat 4 (rbn q.maxDelta)
    shift := BitVec.ofNat 4 (residualShift q.maxDelta q.d)
    baseY := BitVec.ofNat 8 q.baseY
    maxDelta := BitVec.ofNat 8 q.maxDelta
    avgCr := BitVec.ofNat 8 q.avgCr
    avgCb := BitVec.ofNat 8 q.avgCb
    csize := BitVec.ofNat 16 (csize (q.w * q.h) q.d q.maxDelta) }

/-- The commit of a record: the QB registers, all 64 entries of RESBUF (0 outside the footprint, R62) and REC_VALID. `residual row col`
is the residual of that footprint pixel. -/
def commitRecord (s : State) (q : BlockData) (residual : Nat → Nat → Nat) : State :=
  { s with qb := recordOf s q
           resbuf := s.resbuf.fill 64 fun i =>
             if inFootprint q.w q.h i then BitVec.ofNat 8 (residual (i / 8) (i % 8)) else 0
           status := { s.status with recValid := true } }

end Sys2Proof.Machine
end

