-- ==== Sys2Proof/Machine/BlockQuantizer.lean ====
section
/-! DEFINITION. BQ_ENCODE and BQ_DECODE (41_block_quantizer R160 to R184). -/

namespace Sys2Proof.Machine

/-- The YCbCr triple of PIXBUF entry `i` (R163). -/
def pixelYcc (s : State) (i : Nat) : Ycc := toYCrCb (rgbOfPixel (s.pixbuf.get i))

/-- The YCbCr triples of the footprint, row-major (R163). -/
def blockYcc (s : State) : List Ycc := (footprint (geomW s) (geomH s)).map (pixelYcc s)

/-- `minY`, from 255 down (R168). -/
def minLuma (l : List Ycc) : Nat := l.foldl (fun m p => min m p.y) 255

/-- `maxY`, from 0 up (R168). -/
def maxLuma (l : List Ycc) : Nat := l.foldl (fun m p => max m p.y) 0

/-- `sCr` and `sCb` (R168). -/
def sumCr (l : List Ycc) : Nat := l.foldl (fun t p => t + p.cr) 0
def sumCb (l : List Ycc) : Nat := l.foldl (fun t p => t + p.cb) 0

/-- `floor(sum / n) >> (8 − c)` (R169). -/
def chromaAverage (sum n c : Nat) : Nat := (sum / n) >>> (8 - c)

/-- The values of the record that BQ_ENCODE writes (R168). -/
def encodeData (s : State) : BlockData :=
  let l := blockYcc s
  let n := geomW s * geomH s
  let c := s.qcfg.crcbBits.toNat
  { w := geomW s
    h := geomH s
    d := s.qcfg.yDeltaBits.toNat
    c := c
    baseY := minLuma l
    maxDelta := maxLuma l - minLuma l
    avgCr := chromaAverage (sumCr l) n c
    avgCb := chromaAverage (sumCb l) n c }

/-- The residual of footprint pixel (row, col): `(Y − baseY) >> s` (R166). -/
def encodeResidual (s : State) (row col : Nat) : Nat :=
  ((pixelYcc s (row * 8 + col)).y - (encodeData s).baseY) >>>
    residualShift (encodeData s).maxDelta (encodeData s).d

/-- BQ_ENCODE (R168): the checks of R162, then the record. -/
def execBqEncode (s : State) : Host.Outcome State Fault Refusal :=
  if geomOk s && bitsOk s then settle s (.ok (commitRecord s (encodeData s) (encodeResidual s)))
  else errorExit .param 0 s

/-- The luma of record entry `i`: `min(255, BASEY + (RESBUF[i] << SHIFT))` (R181, R182). -/
def decodeLuma (s : State) (i : Nat) : Nat :=
  min 255 (s.qb.baseY.toNat + (s.resbuf.get i).toNat <<< s.qb.shift.toNat)

/-- `avg << (8 − c)` (R183). -/
def decodeChroma (avg : BitVec 8) (c : BitVec 4) : Nat := avg.toNat <<< (8 - c.toNat)

/-- The pixel that BQ_DECODE reconstructs for a footprint entry (R181). -/
def decodePixel (s : State) (i : Nat) : Pixel :=
  pixelOfRgb (toRGB { y := decodeLuma s i
                      cr := decodeChroma s.qb.avgCr s.qb.cBits
                      cb := decodeChroma s.qb.avgCb s.qb.cBits })

/-- BQ_DECODE (R181): all 64 entries of OUTBUF, 0 outside the footprint. -/
def execBqDecode (s : State) : Host.Outcome State Fault Refusal :=
  if s.status.recValid then
    settle s (.ok { s with
      outbuf := s.outbuf.fill 64 fun i =>
        if inFootprint s.qb.dimW.toNat s.qb.dimH.toNat i then decodePixel s i else 0 })
  else errorExit .noRecord 0 s

end Sys2Proof.Machine
end

