-- ==== Sys2Proof/Machine/Control.lean ====
section
/-! DEFINITION. NOP (44_control R270). -/

namespace Sys2Proof.Machine

/-- NOP (R270): it completes and does nothing else. -/
def execNop (s : State) : Host.Outcome State Fault Refusal := settle s (.ok s)

end Sys2Proof.Machine
end

