-- ==== Sys2Proof/Machine/RunLength.lean ====
section
/-! DEFINITION. The run-length encoder and decoder, RLE_ENC and RLE_DEC (43_run_length R240 to R252). -/

namespace Sys2Proof.Machine

/-- How many bytes at the front equal `v`, counting at most `limit` (R242, the inner loop). -/
def runLength (v : Byte) : Nat → List Byte → Nat
  | 0, _ => 0
  | _ + 1, [] => 0
  | limit + 1, a :: rest => if a = v then runLength v limit rest + 1 else 0

/-- `[0x00, length(lit)] ++ lit`, or nothing for an empty span (R242, FlushLit). -/
def literalChunk (lit : List Byte) : List Byte :=
  if lit.isEmpty then [] else 0x00 :: BitVec.ofNat 8 lit.length :: lit

/-- `[0x01, r, v]` (R240, R242). -/
def runChunk (r : Nat) (v : Byte) : List Byte := [0x01, BitVec.ofNat 8 r, v]

/-- The loop of R242 on what is left of the input, with the open literal span `lit`: the bytes still to be put out. Every turn takes at
least one byte, so `fuel` as large as the input never runs out. -/
def rleEncodeFrom : Nat → List Byte → List Byte → List Byte
  | 0, lit, _ => literalChunk lit
  | _ + 1, lit, [] => literalChunk lit
  | fuel + 1, lit, a :: rest =>
    let r := 1 + runLength a 254 rest
    if 2 ≤ r then
      literalChunk lit ++ runChunk r a ++ rleEncodeFrom fuel [] (rest.drop (r - 1))
    else if (lit ++ [a]).length = 255 then
      literalChunk (lit ++ [a]) ++ rleEncodeFrom fuel [] rest
    else rleEncodeFrom fuel (lit ++ [a]) rest

/-- `RleEncode(a, n)` (R242). -/
def rleEncode (a : List Byte) : List Byte := rleEncodeFrom a.length [] a

/-- The loop of R251 on what is left of the input: `p` is the offset of the next chunk, `o` the number of bytes produced. Every turn
takes at least one byte, so `fuel` as large as the input never runs out. -/
def rleDecodeFrom (cap : Nat) : Nat → Nat → Nat → List Byte → Except CmdError (List Byte)
  | 0, _, _, _ => .ok []
  | _ + 1, _, _, [] => .ok []
  | fuel + 1, p, o, t :: rest =>
    if 1 < t.toNat then .error ⟨.format, p⟩
    else
      match rest with
      | [] => .error ⟨.format, p⟩
      | len :: body =>
        let l := len.toNat
        if t.toNat = 1 then
          if l < 2 then .error ⟨.format, p⟩
          else
            match body with
            | [] => .error ⟨.format, p⟩
            | v :: more =>
              if cap < o + l then .error ⟨.capacity, p⟩
              else (rleDecodeFrom cap fuel (p + 3) (o + l) more).map (List.replicate l v ++ ·)
        else if l < 1 then .error ⟨.format, p⟩
        else if body.length < l then .error ⟨.format, p⟩
        else if cap < o + l then .error ⟨.capacity, p⟩
        else (rleDecodeFrom cap fuel (p + 2 + l) (o + l) (body.drop l)).map (body.take l ++ ·)

/-- `RleDecode(b, m)` (R251). -/
def rleDecode (cap : Nat) (b : List Byte) : Except CmdError (List Byte) := rleDecodeFrom cap b.length 0 0 b

/-- RLE_ENC (R245). On CAPACITY B_LEN becomes 0 and B unspecified (R284). -/
def execRleEnc (s : State) : Host.Outcome State Fault Refusal :=
  needStream s
    (let out := rleEncode (s.memA.read 0 s.aLen.toNat)
     if s.cap < out.length then errorExit .capacity 0 { forgetB s with bLen := 0 }
     else settle s (.ok { s with memB := s.memB.write 0 out, bLen := BitVec.ofNat 21 out.length }))

/-- RLE_DEC (R252). On FORMAT and CAPACITY A_LEN, A_CUR and RD_POS become 0 and A unspecified (R284). -/
def execRleDec (s : State) : Host.Outcome State Fault Refusal :=
  needChunks s
    (match rleDecode s.cap (s.memB.read 0 s.bLen.toNat) with
     | .error e => errorExit e.code e.pos { forgetA s with aLen := 0, aCur := 0, rdPos := 0 }
     | .ok out => settle s (.ok { s with
         memA := s.memA.write 0 out, aLen := BitVec.ofNat 21 out.length, aCur := 0, rdPos := 0 }))

end Sys2Proof.Machine
end

