-- ==== Sys2Proof/Machine/Serializer.lean ====
section
/-! DEFINITION. BQ_SERIALIZE and BQ_DESERIALIZE (42_bit_packer R210 to R223). -/

namespace Sys2Proof.Machine

/-- The fields of a serialized block as (value, width), in stream order (R210, R211). -/
def blockFields (s : State) : List (Nat × Nat) :=
  let c := s.qb.cBits.toNat
  let d := s.qb.ydBits.toNat
  [(c, 8), (s.qb.avgCr.toNat, c), (s.qb.avgCb.toNat, c), (d, 8), (s.qb.baseY.toNat, 8), (s.qb.maxDelta.toNat, 8)] ++
    if 0 < s.qb.maxDelta.toNat then
      (footprint s.qb.dimW.toNat s.qb.dimH.toNat).map fun i => ((s.resbuf.get i).toNat, d)
    else []

/-- The serialized length `T` (R213). -/
def serialLength (q : BlockRecord) : Nat :=
  32 + 2 * q.cBits.toNat +
    if 0 < q.maxDelta.toNat then q.dimW.toNat * q.dimH.toNat * q.ydBits.toNat else 0

/-- The fields appended one after another (R216). -/
def appendFields (fields : List (Nat × Nat)) (s : State) : State :=
  fields.foldl (fun t f => appendField f.1 f.2 t) s

/-- BQ_SERIALIZE (R216), with the checks of R215. A record wider or higher than 8 exists in no state that a run reaches (log 12). -/
def execBqSerialize (s : State) : Host.Outcome State Fault Refusal :=
  if !s.status.recValid then errorExit .noRecord 0 s
  else if 8 * s.cap < nbits s + serialLength s.qb then errorExit .capacity (nbits s) s
  else if 8 < s.qb.dimW.toNat || 8 < s.qb.dimH.toNat then .fault .beyondBuffer
  else settle s (.ok (appendFields (blockFields s) s))

/-- `field(n)` of R220 at position `pos`: the value and the position after it. -/
def field (s : State) (n pos : Nat) : Except CmdError (Nat × Nat) :=
  if nbits s < pos + n then .error ⟨.underrun, pos⟩ else .ok (readBits s.memA pos n, pos + n)

/-- A field of width `n` whose value must satisfy `ok`, else FORMAT at the field's first bit (R221). -/
def fieldWhere (s : State) (n pos : Nat) (ok : Nat → Bool) : Except CmdError (Nat × Nat) :=
  match field s n pos with
  | .error e => .error e
  | .ok (v, p) => if ok v then .ok (v, p) else .error ⟨.format, pos⟩

/-- `k` fields of width `n` one after another (R222, the residuals). -/
def fieldList (s : State) (n : Nat) : Nat → Nat → Except CmdError (List Nat × Nat)
  | 0, pos => .ok ([], pos)
  | k + 1, pos =>
    match field s n pos with
    | .error e => .error e
    | .ok (v, p) =>
      match fieldList s n k p with
      | .error e => .error e
      | .ok (vs, q) => .ok (v :: vs, q)

/-- A bit width the source allows: 1..8 (R221). -/
def widthTagOk (v : Nat) : Bool := decide (1 ≤ v) && decide (v ≤ 8)

/-- What BQ_DESERIALIZE has read when it commits (R222). -/
structure ParsedBlock where
  data : BlockData
  residuals : List Nat
  stop : Nat
  deriving DecidableEq, Repr

/-- The reads and checks of R222, in stream order, at `RD_POS`. -/
def parseBlock (s : State) : Except CmdError ParsedBlock := do
  let w := geomW s
  let h := geomH s
  let (c, p1) ← fieldWhere s 8 s.rdPos.toNat widthTagOk
  let (acr, p2) ← field s c p1
  let (acb, p3) ← field s c p2
  let (d, p4) ← fieldWhere s 8 p3 widthTagOk
  let (base, p5) ← field s 8 p4
  let (md, p6) ← fieldWhere s 8 p5 (fun v => decide (base + v ≤ 255))
  let (res, p7) ← if 0 < md then fieldList s d (w * h) p6 else .ok (List.replicate (w * h) 0, p6)
  return { data := { w := w, h := h, d := d, c := c, baseY := base, maxDelta := md, avgCr := acr, avgCb := acb }
           residuals := res
           stop := p7 }

/-- The commit of R222: `res[row][col]` is residual number `row·w + col`. -/
def commitParsed (s : State) (b : ParsedBlock) : State :=
  { commitRecord s b.data (fun row col => b.residuals.getD (row * b.data.w + col) 0) with
      rdPos := BitVec.ofNat 24 b.stop }

/-- BQ_DESERIALIZE (R222). -/
def execBqDeserialize (s : State) : Host.Outcome State Fault Refusal :=
  if !geomOk s then errorExit .param 0 s
  else needStream s (settle s ((parseBlock s).map (commitParsed s)))

end Sys2Proof.Machine
end

