-- ==== Sys2Proof/Machine/Dispatch.lean ====
section
/-! DEFINITION. The engine's choice of a command's rule (30_encoding R113, last line; R114): execution and completion of a command
that was issued. -/

namespace Sys2Proof.Machine

def exec (i : Instr) (s : State) : Host.Outcome State Fault Refusal :=
  match i with
  | .nop => Sys2Proof.Machine.execNop s
  | .ctFwd => Sys2Proof.Machine.execCtFwd s
  | .ctInv => Sys2Proof.Machine.execCtInv s
  | .bqEncode => Sys2Proof.Machine.execBqEncode s
  | .bqDecode => Sys2Proof.Machine.execBqDecode s
  | .bqSerialize => Sys2Proof.Machine.execBqSerialize s
  | .bqDeserialize => Sys2Proof.Machine.execBqDeserialize s
  | .bpWrite cnt => Sys2Proof.Machine.execBpWrite cnt s
  | .bpClear => Sys2Proof.Machine.execBpClear s
  | .buRead cnt => Sys2Proof.Machine.execBuRead cnt s
  | .rleEnc => Sys2Proof.Machine.execRleEnc s
  | .rleDec => Sys2Proof.Machine.execRleDec s

end Sys2Proof.Machine
end

