-- ==== Sys2Proof/Machine/Step.lean ====
section
/-! DEFINITION. One step of the machine: either the engine completes the running command or the next host event lands (20_memory R81, R286);
an idle machine with no event to come waits (R322; log 15). And how a command word is placed for the next step (log 4). -/

namespace Sys2Proof.Machine

def step (s : State) : Host.Outcome State Fault Refusal :=
  if engineTurn s then engineStep exec s
  else
    match s.pending with
    | [] => .next s
    | e :: rest => .next (hostStep e.action { s with pending := rest })

/-- `s` with the command word loaded into CMD and the engine about to run it (log 4). -/
def State.withFetchWord (s : State) (nbits w : Nat) : State :=
  loadCommand (BitVec.ofNat 32 (w % 2 ^ nbits)) s

end Sys2Proof.Machine
end

