-- ==== Sys2Proof/Safety.lean ====
section
/-! DEFINITION. What counts as a safe run of LICORE, in the terms the statements use: the invariant of every state that a run reaches, the
values of a valid block record, and small drivers for statements about several commands in a row. -/

namespace Sys2Proof.Machine

/-- The step ran: neither a fault nor a refusal. -/
def Ran (o : Host.Outcome State Fault Refusal) : Prop := ∃ t, o = .next t

/-- The engine moves next (R81, R286): a command runs, and the next host event, if any, lands after its completion. -/
def EngineNext (s : State) : Prop :=
  s.status.busy = true ∧ ∀ e rest, s.pending = e :: rest → e.early = false

/-- `s` with the error recording of R290 and nothing else changed: what a precise command that failed leaves (R284, R291). -/
def failedWith (s : State) (code : ErrCode) (pos : BitVec 24) : State :=
  { s with errCmd := s.cmd
           errPos := pos
           status := { s.status with errCode := code, err := true, busy := false } }

/-- The instance parameter P_MEM_BYTES is legal (R10). -/
def ParamsOk (s : State) : Prop := s.cap % 4 = 0 ∧ 256 ≤ s.cap ∧ s.cap ≤ 1048576

/-- The packer's registers agree: A_LEN within the memory, and A_CUR ≠ 0 only over a byte (R64). -/
def PackerOk (s : State) : Prop := s.aLen.toNat ≤ s.cap ∧ (s.aCur ≠ 0 → 1 ≤ s.aLen.toNat)

/-- Every memory is in canonical form and within its size (R31, R60 to R63, R67). -/
def MemoriesOk (s : State) : Prop :=
  s.pixbuf.wf 64 ∧ s.outbuf.wf 64 ∧ s.resbuf.wf 64 ∧ s.memA.wf s.cap ∧ s.memB.wf s.cap

/-- The draws the five memories come from. -/
def State.epochs (s : State) : List Nat :=
  [s.pixbuf.epoch, s.outbuf.epoch, s.resbuf.epoch, s.memA.epoch, s.memB.epoch]

/-- No two memories share a draw of free values, and every draw was counted (log 2). -/
def DrawsOk (s : State) : Prop := s.epochs.Nodup ∧ ∀ e ∈ s.epochs, e < s.draws

/-- STATUS agrees with the engine: while a command runs DONE, ERR and ERRCODE are 0, and DONE and ERR are never both 1 (R36, R37, R112). -/
def StatusOk (s : State) : Prop :=
  (s.status.busy = true → s.status.done = false ∧ s.status.err = false ∧ s.status.errCode = .noError) ∧
    ¬ (s.status.done = true ∧ s.status.err = true)

/-- The values of R57 for a record with REC_VALID = 1, with three that follow from the same commands: QB_CSIZE is the statistic of
the record (R175), a residual is 0 where MAXDELTA is (R166, R222), and RESBUF is 0 outside the footprint. -/
def RecordOk (s : State) : Prop :=
  s.status.recValid = true →
    (1 ≤ s.qb.dimW.toNat ∧ s.qb.dimW.toNat ≤ 8 ∧ 1 ≤ s.qb.dimH.toNat ∧ s.qb.dimH.toNat ≤ 8) ∧
    (1 ≤ s.qb.ydBits.toNat ∧ s.qb.ydBits.toNat ≤ 8 ∧ 1 ≤ s.qb.cBits.toNat ∧ s.qb.cBits.toNat ≤ 8) ∧
    s.qb.rbn.toNat = rbn s.qb.maxDelta.toNat ∧
    s.qb.shift.toNat = rbn s.qb.maxDelta.toNat - s.qb.ydBits.toNat ∧
    s.qb.baseY.toNat + s.qb.maxDelta.toNat ≤ 255 ∧
    s.qb.avgCr.toNat < 2 ^ s.qb.cBits.toNat ∧ s.qb.avgCb.toNat < 2 ^ s.qb.cBits.toNat ∧
    s.qb.csize.toNat = csize (s.qb.dimW.toNat * s.qb.dimH.toNat) s.qb.ydBits.toNat s.qb.maxDelta.toNat ∧
    (∀ i < 64, inFootprint s.qb.dimW.toNat s.qb.dimH.toNat i = false → s.resbuf.get i = 0) ∧
    (s.qb.maxDelta = 0 → ∀ i < 64, s.resbuf.get i = 0)

/-- The invariant of every state that a run from reset reaches, whatever the host sends. -/
def StateOk (s : State) : Prop :=
  ParamsOk s ∧ PackerOk s ∧ s.bLen.toNat ≤ s.cap ∧ MemoriesOk s ∧ DrawsOk s ∧ StatusOk s ∧ RecordOk s

/-- The state right after a hardware reset of the instance with these parameters (R10, R76). -/
def State.resetOf (id : Word) (memCap : BitVec 21) : State := { State.reset with id := id, memCap := memCap }

/-- A command issued from the idle engine and run to its completion, with no host event in between (R112, R113). -/
def runCommandWord (i : Instr) (s : State) : Host.Outcome State Fault Refusal := exec i (issue (encode i) s)

/-- A read of bus address `a` answers `n` without a bus error and changes nothing else, whatever the data and the strobes on the bus
(R83, R89). -/
def ReadsAs (s : State) (a n : Nat) : Prop :=
  ∀ (v : Word) (strb : BitVec 4),
    transact ⟨false, BitVec.ofNat 22 a, v, strb⟩ s = { s with resp := .readDone (BitVec.ofNat 32 n) false }

/-- A write of `v` to bus address `a`, all strobes on, is accepted and leaves `t`. -/
def WriteLeaves (s : State) (a : Nat) (v : Word) (t : State) : Prop :=
  transact ⟨true, BitVec.ofNat 22 a, v, 0xF⟩ s = { t with resp := .writeDone false }

/-- `BP_WRITE n` of each value in turn, each with ARG0 set first, as `bp.write v, n` does (R119); `none` where one does not end with
DONE. -/
def packFields : List (Word × Nat) → State → Option State
  | [], s => some s
  | (v, n) :: rest, s =>
    match runCommandWord (.bpWrite n) { s with arg0 := v } with
    | .next t => if t.status.done then packFields rest t else none
    | .fault _ => none
    | .refused _ => none

/-- `BU_READ n` of each width in turn: the values of RESULT; `none` where one does not end with DONE. -/
def unpackFields : List Nat → State → Option (List Word)
  | [], _ => some []
  | n :: rest, s =>
    match runCommandWord (.buRead n) s with
    | .next t => if t.status.done then (unpackFields rest t).map (t.result :: ·) else none
    | .fault _ => none
    | .refused _ => none

/-- The chunks of R240: a RUN of `len` copies, or a LITERAL span. -/
inductive Chunk where
  | run (len : Nat) (v : Byte)
  | literal (bytes : List Byte)
  deriving DecidableEq, Repr

/-- The bytes that encode a chunk (R240). -/
def Chunk.bytes : Chunk → List Byte
  | .run len v => [0x01, BitVec.ofNat 8 len, v]
  | .literal l => 0x00 :: BitVec.ofNat 8 l.length :: l

/-- The bytes that a chunk stands for (R240). -/
def Chunk.data : Chunk → List Byte
  | .run len v => List.replicate len v
  | .literal l => l

/-- The chunk lengths of R240. -/
def Chunk.lengthOk : Chunk → Prop
  | .run len _ => 2 ≤ len ∧ len ≤ 255
  | .literal l => 1 ≤ l.length ∧ l.length ≤ 255

/-- A chunk that the encoder may put out: a length of R240, and no two equal neighbours inside a LITERAL (R243). -/
def Chunk.legal (c : Chunk) : Prop :=
  c.lengthOk ∧
    match c with
    | .run _ _ => True
    | .literal l => l.IsChain (· ≠ ·)

/-- A LITERAL may follow a LITERAL only where the first is full (R243). -/
def Chunk.mayPrecede : Chunk → Chunk → Prop
  | .literal l, .literal _ => l.length = 255
  | .literal _, .run _ _ => True
  | .run _ _, _ => True

/-- The codes that R281 lets a command raise when its word is legal. -/
def raisedBy : Instr → List ErrCode
  | .nop => []
  | .ctFwd => []
  | .ctInv => []
  | .bqEncode => [.param]
  | .bqDecode => [.noRecord]
  | .bqSerialize => [.noRecord, .capacity]
  | .bqDeserialize => [.param, .underrun, .format]
  | .bpWrite _ => [.param, .capacity]
  | .bpClear => []
  | .buRead _ => [.param, .underrun]
  | .rleEnc => [.capacity]
  | .rleDec => [.capacity, .format]

end Sys2Proof.Machine
end

