-- ==== Sys2Proof/Certificates/Slice0/Obligations.lean ====
section
/-! DEFINITION. The statements about LICORE for the provers: encoding, the step, each command's result with its frame, the bus, the resets
and the invariant. -/

open Sys2Proof Sys2Proof.Machine

/-! ## Encoding and decoding -/

/-- R110, R113, R114: the decoder reads back every command word that the encoder writes, with every CNT the field admits. -/
def Obligations.DecodeInvertsEncode : Prop :=
  ∀ i : Instr, i.wellFormed = true → decode (encode i) = .ok i

/-- R110, R113, R117: a word that decodes is exactly the encoding of what it decodes to; no bit of it is ignored. -/
def Obligations.EncodeInvertsDecode : Prop :=
  ∀ (w : Word) (i : Instr), decode w = .ok i → i.wellFormed = true ∧ encode i = w

/-- R115, which the spec derives from R110, R113 and R114: the words that decode to a command are those of its row; a BP_WRITE or BU_READ word with
CNT 0 or at least 33 matches its row and raises PARAM; a word that matches no row is illegal. -/
def Obligations.DecodingFollowsTheMatchMaskRows : Prop :=
  (∀ r ∈ opcodeRows, ∀ w, r.accepts w = true → ∃ i, decode w = .ok i ∧ i.mnemonic = r.mnemonic) ∧
  (∀ w i, decode w = .ok i → ∃ r ∈ opcodeRows, r.accepts w = true ∧ r.mnemonic = i.mnemonic) ∧
  (∀ cnt, cnt < 64 → (cnt = 0 ∨ 33 ≤ cnt) →
    decode (BitVec.ofNat 32 (256 * cnt + 0x20)) = .ok (.bpWrite cnt) ∧
    decode (BitVec.ofNat 32 (256 * cnt + 0x22)) = .ok (.buRead cnt) ∧
    ∀ s, exec (.bpWrite cnt) s = errorExit .param 0 s ∧ exec (.buRead cnt) s = errorExit .param 0 s) ∧
  (∀ w, (∀ r ∈ opcodeRows, r.accepts w = false) → ∃ e, decode w = .error e)

/-- A few words written out from R115: sanity of the decoder. -/
def Obligations.SampleWordsDecode : Prop :=
  decode 0x00000000 = .ok .nop ∧ decode 0x00000001 = .ok .ctFwd ∧ decode 0x00000012 = .ok .bqSerialize ∧
  decode 0x00000320 = .ok (.bpWrite 3) ∧ decode 0x00002022 = .ok (.buRead 32) ∧ decode 0x00000031 = .ok .rleDec ∧
  decode 0x00000103 = .error (.unknownOpcode 3) ∧ decode 0x00004000 = .error .reservedBits ∧
  decode 0x00000100 = .error (.strayCount 0 1)

/-- R113, whole: the three tests in their order; each failing word ends with ILLEGAL at position 0 and changes nothing but STATUS, ERR_CMD
and ERR_POS, and every other word runs the command of its opcode. -/
def Obligations.EngineClassifiesCommandWords : Prop :=
  ∀ s, EngineNext s →
    let op := (s.cmd.extractLsb' 0 8).toNat
    let cnt := (s.cmd.extractLsb' 8 6).toNat
    let known := op ∈ [0x00, 0x01, 0x02, 0x10, 0x11, 0x12, 0x13, 0x20, 0x21, 0x22, 0x30, 0x31]
    if (s.cmd.extractLsb' 14 18).toNat ≠ 0 ∨ ¬ known ∨ (op ≠ 0x20 ∧ op ≠ 0x22 ∧ cnt ≠ 0) then
      step s = .next (failedWith s .illegal 0)
    else ∃ i : Instr, i.opcode = op ∧ i.count = cnt ∧ step s = exec i s

/-! ## The step -/

/-- R81, R112: a step of the engine is the execution of the command that CMD decodes to. -/
def Obligations.StepRunsTheDecodedCommand : Prop :=
  ∀ (s : State) (i : Instr), EngineNext s → decode s.cmd = .ok i → step s = exec i s

/-- R81, R286, R322: a host event lands when no command runs or when it is one that lands before the completion; with no event to
come an idle machine waits. -/
def Obligations.HostEventLandsInItsPlace : Prop :=
  (∀ (s : State) (e : HostEvent) (rest : List HostEvent), s.pending = e :: rest →
    (s.status.busy = false ∨ e.early = true) → step s = .next (hostStep e.action { s with pending := rest })) ∧
  (∀ s : State, s.pending = [] → s.status.busy = false → step s = .next s)

/-- R41, whole: a CMD write is accepted while idle and issues the command (R112); while BUSY it is not; a read gives the last accepted
word, 0 after reset. -/
def Obligations.CmdWriteIssuesOnlyWhenIdle : Prop :=
  State.reset.cmd = 0 ∧
  ∀ (s : State) (v : Word),
    (s.status.busy = false →
      transact ⟨true, 0x00C, v, 0xF⟩ s =
        { s with cmd := v, resp := .writeDone false,
                 status := { s.status with busy := true, done := false, err := false, errCode := .noError } } ∧
      (transact ⟨false, 0x00C, 0, 0⟩ s).resp = .readDone s.cmd false) ∧
    (s.status.busy = true →
      transact ⟨true, 0x00C, v, 0xF⟩ s =
        { s with resp := .writeDone false, status := { s.status with cmdOvr := true } })

/-! ## NOP and the colour transform -/

/-- R270, R289: NOP clears BUSY, sets DONE and does nothing else. -/
def Obligations.NopOnlyCompletes : Prop :=
  ∀ s, exec .nop s = .next { s with status := { s.status with busy := false, done := true } }

/-- R141, R142, R143: each output of the forward transform is its exact quotient, which lies in the stated range, so that neither the
truncation toward zero nor the clamp changes it. -/
def Obligations.ForwardTransformIsExactAndInRange : Prop :=
  ∀ r g b : Nat, r ≤ 255 → g ≤ 255 → b ≤ 255 →
    let c := toYCrCb ⟨r, g, b⟩
    let y : Int := (299 * r + 587 * g + 114 * b) / 1000
    let nr : Int := 713 * (r - y) + 128000
    let nb : Int := 564 * (b - y) + 128000
    (c.y : Int) = clamp8 y ∧ clamp8 y = y ∧
    1086 ≤ nr ∧ nr ≤ 255627 ∧
    (c.cr : Int) = clamp8 (truncDiv nr 1000) ∧ (c.cr : Int) = nr / 1000 ∧ truncDiv nr 1000 = nr / 1000 ∧ 1 ≤ c.cr ∧ c.cr ≤ 255 ∧
    (c.cb : Int) = clamp8 (truncDiv nb 1000) ∧ (c.cb : Int) = nb / 1000 ∧ truncDiv nb 1000 = nb / 1000 ∧ 1 ≤ c.cb ∧ c.cb ≤ 255

/-- R144, whole: truncation toward zero and then the clamp equal the clamped floor, for every input; and the clamp acts. -/
def Obligations.InverseTransformIsClampedFloor : Prop :=
  (∀ y cr cb : Nat, y ≤ 255 → cr ≤ 255 → cb ≤ 255 →
    let nr : Int := 1000 * y + 1403 * ((cr : Int) - 128)
    let ng : Int := 1000 * y - 344 * ((cb : Int) - 128) - 714 * ((cr : Int) - 128)
    let nb : Int := 1000 * y + 1770 * ((cb : Int) - 128)
    toRGB ⟨y, cr, cb⟩ = ⟨clamp8 (truncDiv nr 1000), clamp8 (truncDiv ng 1000), clamp8 (truncDiv nb 1000)⟩ ∧
    toRGB ⟨y, cr, cb⟩ = ⟨clamp8 (nr / 1000), clamp8 (ng / 1000), clamp8 (nb / 1000)⟩) ∧
  toRGB ⟨0, 0, 0⟩ = ⟨0, 135, 0⟩

/-- R145, which the spec derives from R141 to R144: the round trip is exact on greys, and three pixels show that it is not the identity. -/
def Obligations.ColourRoundTripIsExactOnGreysAndNotTheIdentity : Prop :=
  (∀ v ≤ 255, toYCrCb ⟨v, v, v⟩ = ⟨v, 128, 128⟩ ∧ toRGB ⟨v, 128, 128⟩ = ⟨v, v, v⟩) ∧
  toRGB (toYCrCb ⟨255, 0, 0⟩) = ⟨254, 0, 0⟩ ∧ toRGB (toYCrCb ⟨0, 0, 2⟩) = ⟨0, 0, 1⟩ ∧ toRGB (toYCrCb ⟨0, 0, 1⟩) = ⟨0, 0, 0⟩

/-- R146: CT_FWD writes `{00, Y, Cr, Cb}` of the pixel in ARG0[23:0] to RESULT and changes nothing else but BUSY and DONE. -/
def Obligations.CtFwdWritesYCrCb : Prop :=
  ∀ s : State,
    let r : Int := s.arg0.toNat / 65536 % 256
    let g : Int := s.arg0.toNat / 256 % 256
    let b : Int := s.arg0.toNat % 256
    let y : Int := (299 * r + 587 * g + 114 * b) / 1000
    ∃ v : Word,
      exec .ctFwd s = .next { s with result := v, status := { s.status with busy := false, done := true } } ∧
      (v.toNat : Int) = 65536 * y + 256 * ((713 * (r - y) + 128000) / 1000) + (564 * (b - y) + 128000) / 1000

/-- R147: CT_INV writes `{00, R, G, B}` of the triple in ARG0[23:0] to RESULT and changes nothing else but BUSY and DONE. -/
def Obligations.CtInvWritesRgb : Prop :=
  ∀ s : State,
    let y : Int := s.arg0.toNat / 65536 % 256
    let cr : Int := s.arg0.toNat / 256 % 256
    let cb : Int := s.arg0.toNat % 256
    ∃ v : Word,
      exec .ctInv s = .next { s with result := v, status := { s.status with busy := false, done := true } } ∧
      v.toNat = 65536 * clamp8 ((1000 * y + 1403 * (cr - 128)) / 1000) +
        256 * clamp8 ((1000 * y - 344 * (cb - 128) - 714 * (cr - 128)) / 1000) +
        clamp8 ((1000 * y + 1770 * (cb - 128)) / 1000)

/-! ## The block quantizer -/

/-- R161, whole: `rbn(m)` is the least `b` with `2 ^ b ≥ m`, with the table's values. -/
def Obligations.RbnIsTheLeastExponent : Prop :=
  ∀ m ≤ 255,
    m ≤ 2 ^ rbn m ∧ (∀ b, m ≤ 2 ^ b → rbn m ≤ b) ∧
    rbn m = if m ≤ 1 then 0 else if m ≤ 2 then 1 else if m ≤ 4 then 2 else if m ≤ 8 then 3 else if m ≤ 16 then 4
      else if m ≤ 32 then 5 else if m ≤ 64 then 6 else if m ≤ 128 then 7 else 8

/-- R162: which parameters BQ_ENCODE rejects with PARAM, and BQ_DESERIALIZE by the geometry alone (R222); on rejection nothing but the
error recording changes (R283). -/
def Obligations.BadParametersRaiseParam : Prop :=
  ∀ s : State,
    let geometry := 1 ≤ s.imgW.toNat ∧ 1 ≤ s.imgH.toNat ∧ s.blkX.toNat < s.imgW.toNat ∧ s.blkY.toNat < s.imgH.toNat ∧
      (s.qcfg.blockSize = 2 ∨ s.qcfg.blockSize = 4 ∨ s.qcfg.blockSize = 6 ∨ s.qcfg.blockSize = 8)
    let bits := 1 ≤ s.qcfg.yDeltaBits.toNat ∧ s.qcfg.yDeltaBits.toNat ≤ 8 ∧
      1 ≤ s.qcfg.crcbBits.toNat ∧ s.qcfg.crcbBits.toNat ≤ 8
    let rejected := failedWith s .param 0
    (¬ (geometry ∧ bits) → exec .bqEncode s = .next rejected) ∧
    (geometry ∧ bits → ∃ t, exec .bqEncode s = .next t ∧ t.status.done = true ∧ t.status.err = s.status.err) ∧
    (¬ geometry → exec .bqDeserialize s = .next rejected)

/-- R160, R163 to R166, R168, R169, R175: the record that BQ_ENCODE writes, and its frame. -/
def Obligations.BqEncodeWritesTheRecord : Prop :=
  ∀ s : State, geomOk s = true → bitsOk s = true →
    let w := min s.qcfg.blockSize.toNat (s.imgW.toNat - s.blkX.toNat)
    let h := min s.qcfg.blockSize.toNat (s.imgH.toNat - s.blkY.toNat)
    let d := s.qcfg.yDeltaBits.toNat
    let c := s.qcfg.crcbBits.toNat
    ∃ (q : BlockRecord) (m : Memory 8),
      exec .bqEncode s =
        .next { s with qb := q, resbuf := m, status := { s.status with busy := false, done := true, recValid := true } } ∧
      q.posX = s.blkX ∧ q.posY = s.blkY ∧ q.dimW.toNat = w ∧ q.dimH.toNat = h ∧ q.ydBits.toNat = d ∧ q.cBits.toNat = c ∧
      (∀ i ∈ footprint w h, q.baseY.toNat ≤ (pixelYcc s i).y ∧ (pixelYcc s i).y ≤ q.baseY.toNat + q.maxDelta.toNat) ∧
      (∃ i ∈ footprint w h, (pixelYcc s i).y = q.baseY.toNat) ∧
      (∃ i ∈ footprint w h, (pixelYcc s i).y = q.baseY.toNat + q.maxDelta.toNat) ∧
      q.rbn.toNat = rbn q.maxDelta.toNat ∧ q.shift.toNat = rbn q.maxDelta.toNat - d ∧
      q.avgCr.toNat = ((footprint w h).map fun i => (pixelYcc s i).cr).sum / (w * h) / 2 ^ (8 - c) ∧
      q.avgCb.toNat = ((footprint w h).map fun i => (pixelYcc s i).cb).sum / (w * h) / 2 ^ (8 - c) ∧
      q.csize.toNat = 4 + (if 0 < q.maxDelta.toNat then (w * h * d + 7) / 8 else 0) ∧
      ∀ i < 64, (m.get i).toNat =
        if i % 8 < w ∧ i / 8 < h then ((pixelYcc s i).y - q.baseY.toNat) / 2 ^ q.shift.toNat else 0

/-- R170: BQ_ENCODE's record is a function of its operands; PIXBUF entries outside the footprint, and the rest of the state, do not reach
it. -/
def Obligations.EncodeIgnoresPixelsOutsideFootprint : Prop :=
  ∀ s t s' t' : State,
    s.imgW = t.imgW → s.imgH = t.imgH → s.blkX = t.blkX → s.blkY = t.blkY → s.qcfg = t.qcfg →
    (∀ i ∈ footprint (geomW s) (geomH s), s.pixbuf.get i = t.pixbuf.get i) →
    geomOk s = true → bitsOk s = true →
    exec .bqEncode s = .next s' → exec .bqEncode t = .next t' →
    s'.qb = t'.qb ∧ ∀ i < 64, s'.resbuf.get i = t'.resbuf.get i

/-- R167, which the spec derives from R161, R165 and R166: how large a residual can be, and exactly when one does not fit its `d` bits. -/
def Obligations.ResidualOverflowsOnlyAtPowersOfTwo : Prop :=
  ∀ s t : State, geomOk s = true → bitsOk s = true → exec .bqEncode s = .next t →
    ∀ i ∈ footprint t.qb.dimW.toNat t.qb.dimH.toNat,
      let r := (t.resbuf.get i).toNat
      let d := s.qcfg.yDeltaBits.toNat
      let above := (pixelYcc s i).y - t.qb.baseY.toNat
      r ≤ t.qb.maxDelta.toNat >>> t.qb.shift.toNat ∧ t.qb.maxDelta.toNat >>> t.qb.shift.toNat ≤ 255 ∧
      (2 ^ d ≤ r ↔ ∃ k, d ≤ k ∧ t.qb.maxDelta.toNat = 2 ^ k ∧ 2 ^ k ≤ above) ∧
      (2 ^ d ≤ r → r = 2 ^ d)

/-- R181, R182, R183: what BQ_DECODE writes to all 64 entries of OUTBUF, and its frame. -/
def Obligations.BqDecodeReconstructsTheBlock : Prop :=
  ∀ s : State, s.status.recValid = true →
    ∃ m : Memory 24,
      exec .bqDecode s = .next { s with outbuf := m, status := { s.status with busy := false, done := true } } ∧
      ∀ i < 64, m.get i =
        if i % 8 < s.qb.dimW.toNat ∧ i / 8 < s.qb.dimH.toNat then
          pixelOfRgb (toRGB
            { y := min 255 (s.qb.baseY.toNat + (s.resbuf.get i).toNat * 2 ^ s.qb.shift.toNat)
              cr := s.qb.avgCr.toNat * 2 ^ (8 - s.qb.cBits.toNat)
              cb := s.qb.avgCb.toNat * 2 ^ (8 - s.qb.cBits.toNat) })
        else 0

/-- R182, R164: the luma that BQ_DECODE reconstructs from a record that BQ_ENCODE wrote needs no clamp, and falls short of the pixel's own
luma by less than `2 ^ SHIFT`. -/
def Obligations.DecodedLumaOfAnEncodedBlockNeedsNoClamp : Prop :=
  ∀ s t : State, geomOk s = true → bitsOk s = true → exec .bqEncode s = .next t →
    ∀ i ∈ footprint t.qb.dimW.toNat t.qb.dimH.toNat,
      let y := t.qb.baseY.toNat + (t.resbuf.get i).toNat * 2 ^ t.qb.shift.toNat
      y ≤ t.qb.baseY.toNat + t.qb.maxDelta.toNat ∧ t.qb.baseY.toNat + t.qb.maxDelta.toNat ≤ 255 ∧
      y ≤ (pixelYcc s i).y ∧ (pixelYcc s i).y < y + 2 ^ t.qb.shift.toNat

/-- 95_test_vectors L1.3 and L1.8 for every block: a flat block of grey 128, of any legal geometry and bit widths, encodes with MAXDELTA 0
and QB_CSIZE 4 and decodes to the same grey. -/
def Obligations.FlatGrey128BlockSurvivesQuantization : Prop :=
  ∀ s : State, geomOk s = true → bitsOk s = true →
    (∀ i ∈ footprint (geomW s) (geomH s), s.pixbuf.get i = 0x808080) →
    ∃ t u : State, exec .bqEncode s = .next t ∧ t.qb.maxDelta = 0 ∧ t.qb.csize = 4 ∧
      exec .bqDecode t = .next u ∧
      ∀ i < 64, u.outbuf.get i = if i % 8 < geomW s ∧ i / 8 < geomH s then 0x808080 else 0

/-! ## The bit-packer -/

/-- R203, whole: the field width of BP_WRITE and BU_READ must be 1..32, else PARAM at position 0 with nothing else changed; in range it is
not PARAM that ends the command. -/
def Obligations.FieldWidthOutsideRangeRaisesParam : Prop :=
  ∀ (s : State) (n : Nat),
    (¬ (1 ≤ n ∧ n ≤ 32) →
      let failed := failedWith s .param 0
      exec (.bpWrite n) s = .next failed ∧ exec (.buRead n) s = .next failed) ∧
    (1 ≤ n → n ≤ 32 → s.status.errCode ≠ .param →
      ∀ t, exec (.bpWrite n) s = .next t ∨ exec (.buRead n) s = .next t → t.status.errCode ≠ .param)

/-- R202, R204, R205: BP_WRITE n appends the n low bits of ARG0, least significant first, in bytes that it zeroes when it opens them; no
other byte of A changes, the stream before it reads the same, and FIELD_OVF records a value that does not fit. -/
def Obligations.BpWriteAppendsTheField : Prop :=
  ∀ (s : State) (n : Nat), 1 ≤ n → n ≤ 32 → s.cap ≤ 1048576 → PackerOk s → nbits s + n ≤ 8 * s.cap →
    ∃ (m : Memory 8) (len : BitVec 21) (cur : BitVec 3),
      exec (.bpWrite n) s =
        .next { s with memA := m, aLen := len, aCur := cur,
                       status := { s.status with busy := false, done := true,
                                                 fieldOvf := s.status.fieldOvf || decide (2 ^ n ≤ s.arg0.toNat) } } ∧
      len.toNat = (nbits s + n + 7) / 8 ∧ cur.toNat = (nbits s + n) % 8 ∧
      (∀ k < nbits s, streamBit m k = streamBit s.memA k) ∧
      (∀ j < n, streamBit m (nbits s + j) = s.arg0.getLsbD j) ∧
      (∀ k, nbits s + n ≤ k → nbits s ≤ 8 * (k / 8) → k < 8 * len.toNat → streamBit m k = false) ∧
      (∀ k, nbits s + n ≤ k → 8 * (k / 8) < nbits s → streamBit m k = streamBit s.memA k) ∧
      (∀ a, a < nbits s / 8 ∨ len.toNat ≤ a → m.get a = s.memA.get a)

/-- R180 and R215, whole, with R204: without a record BQ_DECODE and BQ_SERIALIZE raise NO_RECORD at position 0, whatever the capacity; an append
that does not fit raises CAPACITY at A_NBITS; each changes nothing else. -/
def Obligations.RecordAndCapacityChecksArePrecise : Prop :=
  ∀ s : State,
    let full := failedWith s .capacity (BitVec.ofNat 24 (nbits s))
    let empty := failedWith s .noRecord 0
    (s.status.recValid = false → exec .bqDecode s = .next empty ∧ exec .bqSerialize s = .next empty) ∧
    (s.status.recValid = true →
      8 * s.cap < nbits s + (32 + 2 * s.qb.cBits.toNat +
        if 0 < s.qb.maxDelta.toNat then s.qb.dimW.toNat * s.qb.dimH.toNat * s.qb.ydBits.toNat else 0) →
      exec .bqSerialize s = .next full) ∧
    (∀ n, 1 ≤ n → n ≤ 32 → 8 * s.cap < nbits s + n → exec (.bpWrite n) s = .next full)

/-- R206: BP_CLEAR empties the packer and rewinds the reader; no byte of A changes. -/
def Obligations.BpClearEmptiesThePacker : Prop :=
  ∀ s : State, ∃ t : State, exec .bpClear s = .next t ∧ nbits t = 0 ∧
    t = { s with aLen := 0, aCur := 0, rdPos := 0, status := { s.status with busy := false, done := true } }

/-- R207, R208: BU_READ n puts stream bits RD_POS .. RD_POS+n−1 into the low bits of RESULT and advances RD_POS; past the valid bits it
raises UNDERRUN at RD_POS and changes nothing else. -/
def Obligations.BuReadReadsTheField : Prop :=
  ∀ (s : State) (n : Nat), 1 ≤ n → n ≤ 32 → s.cap ≤ 1048576 → PackerOk s →
    (s.rdPos.toNat + n ≤ nbits s →
      ∃ (v : Word) (p : BitVec 24),
        exec (.buRead n) s =
          .next { s with result := v, rdPos := p, status := { s.status with busy := false, done := true } } ∧
        p.toNat = s.rdPos.toNat + n ∧
        ∀ j, v.getLsbD j = (decide (j < n) && streamBit s.memA (s.rdPos.toNat + j))) ∧
    (nbits s < s.rdPos.toNat + n →
      exec (.buRead n) s = .next (failedWith s .underrun s.rdPos))

/-- The source's property of 42_bit_packer (R208) and L1.7, for every list of fields: fields packed one after another and then read back with the
same widths give the values again, cut to their widths. -/
def Obligations.PackedFieldsReadBackInOrder : Prop :=
  ∀ (s : State) (fields : List (Word × Nat)), s.cap ≤ 1048576 → PackerOk s →
    (∀ f ∈ fields, 1 ≤ f.2 ∧ f.2 ≤ 32) → nbits s + (fields.map Prod.snd).sum ≤ 8 * s.cap →
    ∃ t : State, packFields fields s = some t ∧
      unpackFields (fields.map Prod.snd) { t with rdPos := BitVec.ofNat 24 (nbits s) } =
        some (fields.map fun f => BitVec.ofNat 32 (f.1.toNat % 2 ^ f.2))

/-! ## The block serializer -/

/-- R210, R211, R213, R216: BQ_SERIALIZE of a valid record appends its fields in the order and widths of the layout, T bits in all, each
residual cut to `d` bits, and FIELD_OVF records a residual that does not fit; nothing else changes. -/
def Obligations.BqSerializeAppendsTheLayout : Prop :=
  ∀ s : State, s.cap ≤ 1048576 → PackerOk s → s.status.recValid = true → RecordOk s →
    let c := s.qb.cBits.toNat
    let d := s.qb.ydBits.toNat
    let fp := footprint s.qb.dimW.toNat s.qb.dimH.toNat
    let N := nbits s
    let T := 32 + 2 * c + (if 0 < s.qb.maxDelta.toNat then s.qb.dimW.toNat * s.qb.dimH.toNat * d else 0)
    N + T ≤ 8 * s.cap →
    ∃ (m : Memory 8) (len : BitVec 21) (cur : BitVec 3) (ovf : Bool),
      exec .bqSerialize s =
        .next { s with memA := m, aLen := len, aCur := cur,
                       status := { s.status with busy := false, done := true, fieldOvf := ovf } } ∧
      len.toNat = (N + T + 7) / 8 ∧ cur.toNat = (N + T) % 8 ∧
      (ovf = true ↔ s.status.fieldOvf = true ∨ ∃ i ∈ fp, 2 ^ d ≤ (s.resbuf.get i).toNat) ∧
      readBits m N 8 = c ∧ readBits m (N + 8) c = s.qb.avgCr.toNat ∧ readBits m (N + 8 + c) c = s.qb.avgCb.toNat ∧
      readBits m (N + 8 + 2 * c) 8 = d ∧ readBits m (N + 16 + 2 * c) 8 = s.qb.baseY.toNat ∧
      readBits m (N + 24 + 2 * c) 8 = s.qb.maxDelta.toNat ∧
      (0 < s.qb.maxDelta.toNat → ∀ j (hj : j < fp.length),
        readBits m (N + 32 + 2 * c + j * d) d = (s.resbuf.get fp[j]).toNat % 2 ^ d) ∧
      (∀ k < N, streamBit m k = streamBit s.memA k) ∧
      (∀ k, N + T ≤ k → k < 8 * len.toNat → streamBit m k = false) ∧
      (∀ a, a < N / 8 ∨ len.toNat ≤ a → m.get a = s.memA.get a)

/-- R220, R222: BQ_DESERIALIZE of a well-formed block at RD_POS writes the record that the stream holds, advances RD_POS past the block, and
changes nothing else. -/
def Obligations.BqDeserializeReadsTheLayout : Prop :=
  ∀ s : State, s.cap ≤ 1048576 → PackerOk s → geomOk s = true →
    let P := s.rdPos.toNat
    let w := geomW s
    let h := geomH s
    let c := readBits s.memA P 8
    let d := readBits s.memA (P + 8 + 2 * c) 8
    let base := readBits s.memA (P + 16 + 2 * c) 8
    let md := readBits s.memA (P + 24 + 2 * c) 8
    let T := 32 + 2 * c + (if 0 < md then w * h * d else 0)
    1 ≤ c → c ≤ 8 → 1 ≤ d → d ≤ 8 → base + md ≤ 255 → P + T ≤ nbits s →
    ∃ (q : BlockRecord) (m : Memory 8) (p : BitVec 24),
      exec .bqDeserialize s =
        .next { s with qb := q, resbuf := m, rdPos := p,
                       status := { s.status with busy := false, done := true, recValid := true } } ∧
      p.toNat = P + T ∧
      q.posX = s.blkX ∧ q.posY = s.blkY ∧ q.dimW.toNat = w ∧ q.dimH.toNat = h ∧ q.ydBits.toNat = d ∧ q.cBits.toNat = c ∧
      q.rbn.toNat = rbn md ∧ q.shift.toNat = rbn md - d ∧ q.baseY.toNat = base ∧ q.maxDelta.toNat = md ∧
      q.avgCr.toNat = readBits s.memA (P + 8) c ∧ q.avgCb.toNat = readBits s.memA (P + 8 + c) c ∧
      q.csize.toNat = 4 + (if 0 < md then (w * h * d + 7) / 8 else 0) ∧
      ∀ i < 64, (m.get i).toNat =
        if i % 8 < w ∧ i / 8 < h ∧ 0 < md then readBits s.memA (P + 32 + 2 * c + (i / 8 * w + i % 8) * d) d else 0

/-- R221, whole, with R220, R282 and R285: the three FORMAT checks of BQ_DESERIALIZE, each at the first bit of its field, once the field is there;
and the UNDERRUN of every field that runs past A_NBITS, at its first bit, before the field's own check. Each changes nothing else. -/
def Obligations.DeserializeRejectsBadOrMissingFields : Prop :=
  ∀ s : State, PackerOk s → geomOk s = true →
    let P := s.rdPos.toNat
    let N := nbits s
    let c := readBits s.memA P 8
    let d := readBits s.memA (P + 8 + 2 * c) 8
    let base := readBits s.memA (P + 16 + 2 * c) 8
    let md := readBits s.memA (P + 24 + 2 * c) 8
    let failsAt (code : ErrCode) (p : Nat) := exec .bqDeserialize s = .next (failedWith s code (BitVec.ofNat 24 p))
    (N < P + 8 → failsAt .underrun P) ∧
    (P + 8 ≤ N → ¬ (1 ≤ c ∧ c ≤ 8) → failsAt .format P) ∧
    (1 ≤ c ∧ c ≤ 8 →
      (P + 8 ≤ N → N < P + 8 + c → failsAt .underrun (P + 8)) ∧
      (P + 8 + c ≤ N → N < P + 8 + 2 * c → failsAt .underrun (P + 8 + c)) ∧
      (P + 8 + 2 * c ≤ N → N < P + 16 + 2 * c → failsAt .underrun (P + 8 + 2 * c)) ∧
      (P + 16 + 2 * c ≤ N → ¬ (1 ≤ d ∧ d ≤ 8) → failsAt .format (P + 8 + 2 * c)) ∧
      (1 ≤ d ∧ d ≤ 8 →
        (P + 16 + 2 * c ≤ N → N < P + 24 + 2 * c → failsAt .underrun (P + 16 + 2 * c)) ∧
        (P + 24 + 2 * c ≤ N → N < P + 32 + 2 * c → failsAt .underrun (P + 24 + 2 * c)) ∧
        (P + 32 + 2 * c ≤ N → 255 < base + md → failsAt .format (P + 24 + 2 * c)) ∧
        (base + md ≤ 255 → 0 < md → ∀ j < geomW s * geomH s,
          P + 32 + 2 * c + j * d ≤ N → N < P + 32 + 2 * c + (j + 1) * d → failsAt .underrun (P + 32 + 2 * c + j * d))))

/-- R223, which the spec derives from R216 and R222: serializing a valid record and deserializing it at its own geometry gives every record field
again, and every residual cut to `d` bits: the residual itself where it fits, 0 where it is `2 ^ d`. -/
def Obligations.SerializeThenDeserializeRestoresTheRecord : Prop :=
  ∀ s : State, s.cap ≤ 1048576 → PackerOk s → s.status.recValid = true → RecordOk s → geomOk s = true →
    geomW s = s.qb.dimW.toNat → geomH s = s.qb.dimH.toNat → s.blkX = s.qb.posX → s.blkY = s.qb.posY →
    nbits s + serialLength s.qb ≤ 8 * s.cap →
    ∃ t u : State,
      exec .bqSerialize s = .next t ∧
      exec .bqDeserialize { t with rdPos := BitVec.ofNat 24 (nbits s) } = .next u ∧
      u.status.recValid = true ∧ u.qb = s.qb ∧
      ∀ i < 64,
        ((s.resbuf.get i).toNat < 2 ^ s.qb.ydBits.toNat → u.resbuf.get i = s.resbuf.get i) ∧
        ((s.resbuf.get i).toNat = 2 ^ s.qb.ydBits.toNat → u.resbuf.get i = 0)

/-! ## The run-length codec -/

/-- R244, which the spec derives from R242 and R251: decoding an encoding gives the bytes again, for every byte sequence the output memory can hold.
-/
def Obligations.RleDecodeInvertsEncode : Prop :=
  ∀ (cap : Nat) (a : List Byte), a.length ≤ cap → rleDecode cap (rleEncode a) = .ok a

/-- R240, R241, R243: the encoding is a sequence of legal chunks that stand for the input, with a LITERAL after a LITERAL only where the first
is full. -/
def Obligations.RleEncodingIsASequenceOfLegalChunks : Prop :=
  ∀ a : List Byte, ∃ cs : List Chunk,
    rleEncode a = cs.flatMap Chunk.bytes ∧ cs.flatMap Chunk.data = a ∧
    (∀ c ∈ cs, c.legal) ∧ cs.IsChain Chunk.mayPrecede

/-- R243, second property: a sequence of m equal bytes becomes full RUN chunks and then the rest, a rest of one byte as a LITERAL. -/
def Obligations.RleEncodesARunInCappedChunks : Prop :=
  ∀ (m : Nat) (v : Byte),
    rleEncode (List.replicate m v) =
      (List.replicate (m / 255) [0x01, 0xFF, v]).flatten ++
        if 2 ≤ m % 255 then [0x01, BitVec.ofNat 8 (m % 255), v] else if m % 255 = 1 then [0x00, 0x01, v] else []

/-- R251, whole: a sequence of chunks with lengths of R240, whether the encoder would write it or not, decodes to what the chunks stand for; and
after any such sequence that fits, each failure of the rule is reported at the offset of the failing chunk's tag: a byte that is no tag, a
missing length, a RUN below 2, a RUN without its value, an empty LITERAL, missing literal bytes, and then an output beyond the memory. -/
def Obligations.RleDecodeReadsChunksAndReportsTheFirstBadOne : Prop :=
  ∀ (cap : Nat) (cs : List Chunk), (∀ c ∈ cs, c.lengthOk) → (cs.flatMap Chunk.data).length ≤ cap →
    let good := cs.flatMap Chunk.bytes
    let made := (cs.flatMap Chunk.data).length
    let failsWith (code : ErrCode) (chunk : List Byte) := rleDecode cap (good ++ chunk) = .error ⟨code, good.length⟩
    rleDecode cap good = .ok (cs.flatMap Chunk.data) ∧
    (∀ (t : Byte) (rest : List Byte), 1 < t.toNat → failsWith .format (t :: rest)) ∧
    (∀ t : Byte, failsWith .format [t]) ∧
    (∀ (len : Byte) (rest : List Byte), len.toNat < 2 → failsWith .format (0x01 :: len :: rest)) ∧
    (∀ len : Byte, failsWith .format [0x01, len]) ∧
    (∀ (len v : Byte) (rest : List Byte), 2 ≤ len.toNat → cap < made + len.toNat →
      failsWith .capacity (0x01 :: len :: v :: rest)) ∧
    (∀ rest : List Byte, failsWith .format (0x00 :: 0x00 :: rest)) ∧
    (∀ (len : Byte) (body : List Byte), body.length < len.toNat → failsWith .format (0x00 :: len :: body)) ∧
    (∀ (len : Byte) (body : List Byte), 1 ≤ len.toNat → len.toNat ≤ body.length → cap < made + len.toNat →
      failsWith .capacity (0x00 :: len :: body))

/-- R245: RLE_ENC writes the encoding of A[0..A_LEN−1] to the start of B and its length to B_LEN, every other byte of B keeping its value;
where the encoding does not fit it raises CAPACITY at 0 with B_LEN 0 and B unspecified. -/
def Obligations.RleEncStoresTheEncoding : Prop :=
  ∀ s : State, s.cap ≤ 1048576 → s.aLen.toNat ≤ s.cap →
    let out := rleEncode (s.memA.read 0 s.aLen.toNat)
    (out.length ≤ s.cap →
      ∃ (m : Memory 8) (len : BitVec 21),
        exec .rleEnc s = .next { s with memB := m, bLen := len, status := { s.status with busy := false, done := true } } ∧
        len.toNat = out.length ∧ m.read 0 out.length = out ∧ ∀ k, out.length ≤ k → m.get k = s.memB.get k) ∧
    (s.cap < out.length →
      ∃ (m : Memory 8) (n : Nat),
        exec .rleEnc s =
          .next { failedWith s .capacity 0 with memB := m, bLen := 0, draws := n })

/-- R252: RLE_DEC writes the decoding of B[0..B_LEN−1] to the start of A, sets A_LEN and clears A_CUR and RD_POS; on a decoding failure it
raises that error with A_LEN, A_CUR and RD_POS 0 and A unspecified. -/
def Obligations.RleDecStoresTheDecoding : Prop :=
  ∀ s : State, s.cap ≤ 1048576 → s.bLen.toNat ≤ s.cap →
    (∀ out, rleDecode s.cap (s.memB.read 0 s.bLen.toNat) = .ok out →
      ∃ (m : Memory 8) (len : BitVec 21),
        exec .rleDec s =
          .next { s with memA := m, aLen := len, aCur := 0, rdPos := 0,
                         status := { s.status with busy := false, done := true } } ∧
        len.toNat = out.length ∧ m.read 0 out.length = out ∧ ∀ k, out.length ≤ k → m.get k = s.memA.get k) ∧
    (∀ e, rleDecode s.cap (s.memB.read 0 s.bLen.toNat) = .error e →
      ∃ (m : Memory 8) (n : Nat),
        exec .rleDec s =
          .next { failedWith s e.code (BitVec.ofNat 24 e.pos) with memA := m, aLen := 0, aCur := 0, rdPos := 0, draws := n })

/-- R244, R245, R252 on the machine: RLE_ENC and then RLE_DEC leave A_LEN and the bytes of the stream as they were. -/
def Obligations.RleCommandsRestoreTheStream : Prop :=
  ∀ s : State, s.cap ≤ 1048576 → s.aLen.toNat ≤ s.cap → (rleEncode (s.memA.read 0 s.aLen.toNat)).length ≤ s.cap →
    ∃ t u : State, exec .rleEnc s = .next t ∧ exec .rleDec t = .next u ∧
      u.aLen = s.aLen ∧ u.aCur = 0 ∧ u.rdPos = 0 ∧ ∀ k, u.memA.get k = s.memA.get k

/-! ## Errors and the interrupt -/

/-- R284, R281, R290: what a failed command changes, and that its code is one that the table gives it. -/
def Obligations.FailedCommandsArePrecise : Prop :=
  ∀ (i : Instr) (s t : State), exec i s = .next t → s.status.err = false → t.status.err = true →
    ∃ (code : ErrCode) (pos : BitVec 24),
      let recorded := failedWith s code pos
      code ∈ raisedBy i ∧
      (i = .rleEnc → ∃ n, t = { recorded with bLen := 0, memB := ⟨s.draws, []⟩, draws := n }) ∧
      (i = .rleDec → ∃ n, t = { recorded with aLen := 0, aCur := 0, rdPos := 0, memA := ⟨s.draws, []⟩, draws := n }) ∧
      (i ≠ .rleEnc → i ≠ .rleDec → t = recorded)

/-- R35, R36, R37: a command that was issued and runs to its end leaves BUSY 0 and exactly one of DONE and ERR 1; ERRCODE is NONE exactly
when it is DONE. -/
def Obligations.CompletionSetsExactlyOneOfDoneAndErr : Prop :=
  ∀ (i : Instr) (w : Word) (s t : State), exec i (issue w s) = .next t →
    t.status.busy = false ∧ (t.status.done = true ↔ t.status.err = false) ∧
      (t.status.done = true ↔ t.status.errCode = .noError)

/-- R295, whole: irq is IRQ_EN and (DONE or ERR); the three sticky warnings do not raise it; setting IRQ_EN while DONE or ERR is 1 raises it at
once; clearing both bits drops it (R292). -/
def Obligations.IrqFollowsEnableAndCompletion : Prop :=
  (∀ s : State, s.irq = true ↔ s.irqEn = true ∧ (s.status.done = true ∨ s.status.err = true)) ∧
  (∀ (s : State) (a b c : Bool),
    ({ s with status := { s.status with fieldOvf := a, cmdOvr := b, wrIgn := c } } : State).irq = s.irq) ∧
  (∀ s : State, s.status.done = true ∨ s.status.err = true → (transact ⟨true, 0x004, 1, 0xF⟩ s).irq = true) ∧
  (∀ s : State, (transact ⟨true, 0x008, 6, 0xF⟩ s).irq = false)

/-- The model's own stops (log 12), exactly: no command is refused, and one stops only where it would read a byte of A or B or an entry of
RESBUF that does not exist, which no state that a run reaches lets it do. -/
def Obligations.CommandsStopOnlyBeyondTheirMemories : Prop :=
  ∀ (i : Instr) (s : State),
    (∀ r, exec i s ≠ .refused r) ∧
    (exec i s = .fault .beyondMemory ↔
      ((i = .rleEnc ∨ (i = .bqDeserialize ∧ geomOk s = true) ∨ ∃ n, i = .buRead n ∧ 1 ≤ n ∧ n ≤ 32) ∧ s.cap < s.aLen.toNat) ∨
      (i = .rleDec ∧ s.cap < s.bLen.toNat)) ∧
    (exec i s = .fault .beyondBuffer ↔
      i = .bqSerialize ∧ s.status.recValid = true ∧ nbits s + serialLength s.qb ≤ 8 * s.cap ∧
        (8 < s.qb.dimW.toNat ∨ 8 < s.qb.dimH.toNat))

/-! ## What a command never writes -/

/-- R43: RESULT is written by CT_FWD, CT_INV and BU_READ only, and by none of them when it ends in error; 0 after reset. -/
def Obligations.ResultIsWrittenByThreeCommandsOnly : Prop :=
  State.reset.result = 0 ∧
  ∀ (i : Instr) (s t : State), exec i s = .next t →
    ((i = .ctFwd ∨ i = .ctInv ∨ ∃ n, i = .buRead n) → s.status.err = false → t.status.err = true → t.result = s.result) ∧
    (¬ (i = .ctFwd ∨ i = .ctInv ∨ ∃ n, i = .buRead n) → t.result = s.result)

/-- R32, R33, R41, R42, R45 to R47, R60, R68, R116: no command writes ID, MEM_CAP, CTRL, CMD, ARG0, the configuration registers or PIXBUF, nor
the model's queue of host events and the bus answer; CMD_OVR and WR_IGN stay too. -/
def Obligations.CommandsKeepTheirInputs : Prop :=
  ∀ (i : Instr) (s t : State), exec i s = .next t →
    t.id = s.id ∧ t.memCap = s.memCap ∧ t.irqEn = s.irqEn ∧ t.cmd = s.cmd ∧ t.arg0 = s.arg0 ∧ t.imgW = s.imgW ∧
    t.imgH = s.imgH ∧ t.blkX = s.blkX ∧ t.blkY = s.blkY ∧ t.qcfg = s.qcfg ∧ t.pixbuf = s.pixbuf ∧
    t.resp = s.resp ∧ t.pending = s.pending ∧ t.status.cmdOvr = s.status.cmdOvr ∧ t.status.wrIgn = s.status.wrIgn

/-- R50, R57: only BQ_ENCODE and BQ_DESERIALIZE write the record, RESBUF and REC_VALID, and a failed one leaves them. -/
def Obligations.OnlyTwoCommandsWriteTheRecord : Prop :=
  ∀ (i : Instr) (s t : State), exec i s = .next t →
    (i ≠ .bqEncode ∧ i ≠ .bqDeserialize) ∨ (s.status.err = false ∧ t.status.err = true) →
    t.qb = s.qb ∧ t.resbuf = s.resbuf ∧ t.status.recValid = s.status.recValid

/-! ## The bus -/

/-- R84, whole: each of the four bus errors answers `bus_err = 1` with read data 0 and changes nothing. -/
def Obligations.BusErrorsChangeNothing : Prop :=
  ∀ (t : Transaction) (s : State),
    let a := t.addr.toNat
    let registers : List Nat := [0x000, 0x004, 0x008, 0x00C, 0x010, 0x014, 0x018, 0x01C, 0x020, 0x024, 0x028, 0x02C, 0x030,
      0x040, 0x044, 0x048, 0x04C, 0x050, 0x054, 0x080, 0x084, 0x088, 0x08C, 0x090, 0x094]
    let readOnly : List Nat := [0x000, 0x014, 0x018, 0x01C, 0x040, 0x044, 0x048, 0x04C, 0x050, 0x054, 0x084, 0x088, 0x094]
    let mapped := a ∈ registers ∨ (0x400 ≤ a ∧ a < 0x700) ∨ (0x100000 ≤ a ∧ a < 0x100000 + s.cap) ∨
      (0x200000 ≤ a ∧ a < 0x200000 + s.cap)
    let failing := a % 4 ≠ 0 ∨ ¬ mapped ∨ (t.we = true ∧ (a ∈ readOnly ∨ (0x500 ≤ a ∧ a < 0x700))) ∨
      (t.we = true ∧ a < 0x100 ∧ t.wstrb ≠ 0xF)
    (failing → transact t s = { s with resp := if t.we then .writeDone true else .readDone 0 true }) ∧
    (¬ failing → (transact t s).resp = .writeDone false ∨ ∃ v, (transact t s).resp = .readDone v false)

/-- R89: a read changes nothing but the bus answer (and, for a free value, the model's own count of draws, log 9). While idle (R49) a read
answers every register in its layout of R32 to R34, R41 to R47, R51 to R56 and R64 to R68, and every buffer entry as R60 to R62 say; reserved
bits read 0. The words of A and B are in `WindowWritesAreLittleEndianAndStrobed`. -/
def Obligations.ReadsAnswerTheStateAndChangeNothing : Prop :=
  (∀ (t : Transaction) (s : State), t.we = false →
    ∃ (r : BusResponse) (n : Nat), transact t s = { s with resp := r, draws := n } ∧ (s.status.busy = false → n = s.draws)) ∧
  ∀ s : State, s.status.busy = false →
    (ReadsAs s 0x000 s.id.toNat ∧ ReadsAs s 0x004 s.irqEn.toNat ∧
      ReadsAs s 0x008 (2 * s.status.done.toNat + 4 * s.status.err.toNat + 8 * s.status.fieldOvf.toNat +
        16 * s.status.cmdOvr.toNat + 32 * s.status.wrIgn.toNat + 256 * s.status.errCode.code.toNat +
        4096 * s.status.recValid.toNat) ∧
      ReadsAs s 0x00C s.cmd.toNat ∧ ReadsAs s 0x010 s.arg0.toNat ∧ ReadsAs s 0x014 s.result.toNat ∧
      ReadsAs s 0x018 s.errCmd.toNat ∧ ReadsAs s 0x01C s.errPos.toNat) ∧
    (ReadsAs s 0x020 s.imgW.toNat ∧ ReadsAs s 0x024 s.imgH.toNat ∧ ReadsAs s 0x028 s.blkX.toNat ∧
      ReadsAs s 0x02C s.blkY.toNat ∧
      ReadsAs s 0x030 (s.qcfg.blockSize.toNat + 256 * s.qcfg.yDeltaBits.toNat + 65536 * s.qcfg.crcbBits.toNat)) ∧
    (ReadsAs s 0x040 (s.qb.posX.toNat + 65536 * s.qb.posY.toNat) ∧
      ReadsAs s 0x044 (s.qb.dimW.toNat + 256 * s.qb.dimH.toNat) ∧
      ReadsAs s 0x048 (s.qb.ydBits.toNat + 256 * s.qb.cBits.toNat + 65536 * s.qb.rbn.toNat + 16777216 * s.qb.shift.toNat) ∧
      ReadsAs s 0x04C (s.qb.baseY.toNat + 256 * s.qb.maxDelta.toNat) ∧
      ReadsAs s 0x050 (s.qb.avgCr.toNat + 256 * s.qb.avgCb.toNat) ∧ ReadsAs s 0x054 s.qb.csize.toNat) ∧
    (ReadsAs s 0x080 s.aLen.toNat ∧ ReadsAs s 0x084 s.aCur.toNat ∧
      ReadsAs s 0x088 (if s.aCur = 0 then 8 * s.aLen.toNat else 8 * (s.aLen.toNat - 1) + s.aCur.toNat) ∧
      ReadsAs s 0x08C s.rdPos.toNat ∧ ReadsAs s 0x090 s.bLen.toNat ∧ ReadsAs s 0x094 s.memCap.toNat) ∧
    ∀ i < 64, ReadsAs s (0x400 + 4 * i) (s.pixbuf.get i).toNat ∧ ReadsAs s (0x500 + 4 * i) (s.outbuf.get i).toNat ∧
      ReadsAs s (0x600 + 4 * i) (s.resbuf.get i).toNat

/-- R332: while BUSY a read of ID, CTRL, STATUS or MEM_CAP answers the current value; a read of any other register, buffer or memory word
answers a free value of a new draw (log 9). -/
def Obligations.BusyReadsAreCurrentForFourRegistersOnly : Prop :=
  ∀ s : State, s.status.busy = true →
    (transact ⟨false, 0x000, 0, 0⟩ s).resp = .readDone s.id false ∧
    (transact ⟨false, 0x004, 0, 0⟩ s).resp = .readDone (if s.irqEn then 1 else 0) false ∧
    (transact ⟨false, 0x008, 0, 0⟩ s).resp = .readDone s.status.word false ∧
    (transact ⟨false, 0x094, 0, 0⟩ s).resp = .readDone (s.memCap.setWidth 32) false ∧
    ∀ (addr : BusAddr) (x : Target), access s.cap ⟨false, addr, 0, 0⟩ = .ok x →
      x ≠ .reg .id → x ≠ .reg .ctrl → x ≠ .reg .status → x ≠ .reg .memCap →
      transact ⟨false, addr, 0, 0⟩ s =
        { s with resp := .readDone (Config.freeBits 32 s.draws 0) false, draws := s.draws + 1 }

/-- R331, whole: while BUSY a write that is no bus error, other than to CTRL and STATUS, changes nothing but CMD_OVR, for CMD, or WR_IGN. -/
def Obligations.BusyWritesAreIgnored : Prop :=
  ∀ (t : Transaction) (s : State) (x : Target), s.status.busy = true → t.we = true → access s.cap t = .ok x →
    x ≠ .reg .ctrl → x ≠ .reg .status →
    transact t s =
      { s with resp := .writeDone false
               status := { s.status with cmdOvr := s.status.cmdOvr || decide (x = .reg .cmd)
                                         wrIgn := s.status.wrIgn || decide (x ≠ .reg .cmd) } }

/-- R34: a STATUS write clears exactly the W1C bits (5:1) that are 1 in the data and leaves every other bit as it reads, busy or idle. -/
def Obligations.StatusWriteClearsOnlyTheNamedBits : Prop :=
  ∀ (s : State) (v : Word),
    ∃ st : Status, transact ⟨true, 0x008, v, 0xF⟩ s = { s with status := st, resp := .writeDone false } ∧
      st.word = s.status.word &&& ~~~(v &&& 0x3E) ∧ st.errCode = s.status.errCode ∧ st.recValid = s.status.recValid ∧
      st.busy = s.status.busy

/-- R83, R86, R88: a strobed word write to A or B changes exactly the strobed bytes, and a word read returns the bytes little-endian. -/
def Obligations.WindowWritesAreLittleEndianAndStrobed : Prop :=
  ∀ (s : State) (k : Nat) (v : Word) (strb : BitVec 4), ParamsOk s → s.status.busy = false → k % 4 = 0 → k < s.cap →
    (∃ m : Memory 8,
      transact ⟨true, BitVec.ofNat 22 (0x100000 + k), v, strb⟩ s = { s with memA := m, resp := .writeDone false } ∧
      (∀ j < 4, m.get (k + j) = if strb.getLsbD j then v.extractLsb' (8 * j) 8 else s.memA.get (k + j)) ∧
      (∀ a, a < k ∨ k + 4 ≤ a → m.get a = s.memA.get a)) ∧
    (∃ m : Memory 8,
      transact ⟨true, BitVec.ofNat 22 (0x200000 + k), v, strb⟩ s = { s with memB := m, resp := .writeDone false } ∧
      (∀ j < 4, m.get (k + j) = if strb.getLsbD j then v.extractLsb' (8 * j) 8 else s.memB.get (k + j)) ∧
      (∀ a, a < k ∨ k + 4 ≤ a → m.get a = s.memB.get a)) ∧
    (transact ⟨false, BitVec.ofNat 22 (0x100000 + k), 0, 0⟩ s).resp =
      .readDone (s.memA.get (k + 3) ++ s.memA.get (k + 2) ++ s.memA.get (k + 1) ++ s.memA.get k) false ∧
    (transact ⟨false, BitVec.ofNat 22 (0x200000 + k), 0, 0⟩ s).resp =
      .readDone (s.memB.get (k + 3) ++ s.memB.get (k + 2) ++ s.memB.get (k + 1) ++ s.memB.get k) false

/-- R60, R83: a strobed write to PIXBUF[i] changes bytes 0 to 2 of that entry where their strobes are 1, and nothing else; the entry reads
with bits [31:24] zero. -/
def Obligations.PixbufWritesStoreThreeBytes : Prop :=
  ∀ (s : State) (i : Nat) (v : Word) (strb : BitVec 4), s.status.busy = false → i < 64 →
    (∃ m : Memory 24,
      transact ⟨true, BitVec.ofNat 22 (0x400 + 4 * i), v, strb⟩ s = { s with pixbuf := m, resp := .writeDone false } ∧
      (∀ j < 3, (m.get i).extractLsb' (8 * j) 8 =
        if strb.getLsbD j then v.extractLsb' (8 * j) 8 else (s.pixbuf.get i).extractLsb' (8 * j) 8) ∧
      (∀ a, a ≠ i → m.get a = s.pixbuf.get a)) ∧
    (transact ⟨false, BitVec.ofNat 22 (0x400 + 4 * i), 0, 0⟩ s).resp = .readDone ((s.pixbuf.get i).setWidth 32) false

/-- R33, R42, R45 to R47, R64 to R67: what a host write to a register stores, and that it changes nothing else. A CTRL write without bit 1 sets
IRQ_EN to bit 0, busy or idle (R330); while idle ARG0, IMG_W, IMG_H, BLK_X, BLK_Y, the three fields of QCFG and RD_POS take the bits of their
fields; A_LEN and B_LEN store the lesser of the written value and P_MEM_BYTES, and A_LEN clears A_CUR, so that A_NBITS reads eight times
A_LEN (R65). CMD, STATUS and the soft reset have statements of their own. -/
def Obligations.RegisterWritesStoreTheirFields : Prop :=
  ∀ (s : State) (v : Word),
    (v.getLsbD 1 = false → WriteLeaves s 0x004 v { s with irqEn := v.getLsbD 0 }) ∧
    (s.status.busy = false →
      (WriteLeaves s 0x010 v { s with arg0 := v } ∧
        WriteLeaves s 0x020 v { s with imgW := BitVec.ofNat 16 v.toNat } ∧
        WriteLeaves s 0x024 v { s with imgH := BitVec.ofNat 16 v.toNat } ∧
        WriteLeaves s 0x028 v { s with blkX := BitVec.ofNat 16 v.toNat } ∧
        WriteLeaves s 0x02C v { s with blkY := BitVec.ofNat 16 v.toNat } ∧
        WriteLeaves s 0x030 v { s with qcfg := { blockSize := BitVec.ofNat 4 v.toNat
                                                 yDeltaBits := BitVec.ofNat 4 (v.toNat / 256)
                                                 crcbBits := BitVec.ofNat 4 (v.toNat / 65536) } } ∧
        WriteLeaves s 0x08C v { s with rdPos := BitVec.ofNat 24 v.toNat }) ∧
      ∃ a b : BitVec 21,
        WriteLeaves s 0x080 v { s with aLen := a, aCur := 0 } ∧ WriteLeaves s 0x090 v { s with bLen := b } ∧
        a.toNat = min (v.toNat % 2 ^ 21) s.cap ∧ b = a ∧ nbits { s with aLen := a, aCur := 0 } = 8 * a.toNat)

/-! ## Resets -/

/-- R324 (the freed memory as a new draw: log 2, log 7): the soft reset, at any time: every register takes its reset value except ID and MEM_CAP;
PIXBUF, OUTBUF, RESBUF, A and B keep their contents, except that the memory or buffer which a running command writes is unspecified. -/
def Obligations.SoftResetKeepsMemoriesAndResetsRegisters : Prop :=
  ∀ (s : State) (v : Word), v.getLsbD 1 = true →
    ∃ (o : Memory 24) (r a b : Memory 8) (n : Nat),
      transact ⟨true, 0x004, v, 0xF⟩ s =
        { State.reset with id := s.id, memCap := s.memCap, pixbuf := s.pixbuf, outbuf := o, resbuf := r, memA := a, memB := b,
                           resp := .writeDone false, pending := s.pending, draws := n } ∧
      (s.status.busy = false → o = s.outbuf ∧ r = s.resbuf ∧ a = s.memA ∧ b = s.memB) ∧
      (∀ i, s.status.busy = true → decode s.cmd = .ok i →
        (o = if i = .bqDecode then ⟨s.draws, []⟩ else s.outbuf) ∧
        (r = if i = .bqEncode ∨ i = .bqDeserialize then ⟨s.draws, []⟩ else s.resbuf) ∧
        (b = if i = .rleEnc then ⟨s.draws, []⟩ else s.memB) ∧
        ((i = .bqSerialize ∨ i = .rleDec ∨ ∃ k, i = .bpWrite k) → a = ⟨s.draws, []⟩) ∧
        (¬ (i = .bqSerialize ∨ i = .rleDec ∨ ∃ k, i = .bpWrite k) → a = s.memA)) ∧
      (∀ e, decode s.cmd = .error e → o = s.outbuf ∧ r = s.resbuf ∧ a = s.memA ∧ b = s.memB)

/-- R321, R323, which the spec derives from R320 and R76 (the pulse as one event: log 10): what the host reads after a hardware reset, from any
state and in the reset state itself: STATUS 0, CTRL 0, A_NBITS 0, B_LEN 0, RD_POS 0; and the block commands then raise NO_RECORD or PARAM. -/
def Obligations.HardResetShowsTheEmptyMachine : Prop :=
  ∀ s t : State, t = State.reset ∨ t = hostStep .hardReset s →
    (transact ⟨false, 0x008, 0, 0⟩ t).resp = .readDone 0 false ∧ (transact ⟨false, 0x004, 0, 0⟩ t).resp = .readDone 0 false ∧
    (transact ⟨false, 0x088, 0, 0⟩ t).resp = .readDone 0 false ∧ (transact ⟨false, 0x090, 0, 0⟩ t).resp = .readDone 0 false ∧
    (transact ⟨false, 0x08C, 0, 0⟩ t).resp = .readDone 0 false ∧
    (∀ i : Instr, i = .bqDecode ∨ i = .bqSerialize → ∃ u, exec i (issue (encode i) t) = .next u ∧ u.status.errCode = .noRecord) ∧
    (∀ i : Instr, i = .bqEncode ∨ i = .bqDeserialize → ∃ u, exec i (issue (encode i) t) = .next u ∧ u.status.errCode = .param)

/-! ## The invariant -/

/-- R10, R57, R64, R76: the invariant holds right after a hardware reset of every legal instance, the default one among them. -/
def Obligations.ResetSatisfiesTheInvariant : Prop :=
  StateOk State.reset ∧ ∀ (id : Word) (memCap : BitVec 21), Config.legalMemBytes memCap.toNat = true → StateOk (State.resetOf id memCap)

/-- R57, R64, R36, R37, R31: every step keeps the invariant, whatever the host sends: valid records stay valid, the packer's registers agree,
the memories stay canonical and within their size, no two memories share a draw, and STATUS agrees with the engine; ID and MEM_CAP never
change (R32, R68). -/
def Obligations.EveryStepKeepsTheInvariant : Prop :=
  ∀ s t : State, StateOk s → step s = .next t → StateOk t ∧ t.id = s.id ∧ t.memCap = s.memCap

/-- Under the invariant no step stops: the model's faults and its refusal are never reached (log 12). -/
def Obligations.NoStepStopsUnderTheInvariant : Prop :=
  ∀ s : State, StateOk s → Ran (step s)

/-- R336, R337: from any state that meets the invariant, the machine takes in every host event still to come and completes every accepted command
within two steps an event and one more. -/
def Obligations.EveryScheduleRunsToAnIdleEngine : Prop :=
  ∀ s : State, StateOk s →
    ∃ (n : Nat) (t : State), n ≤ 2 * s.pending.length + 1 ∧ Sys2Proof.core.run n s = .next t ∧
      t.pending = [] ∧ t.status.busy = false
end

