-- ==== Sys2Proof/Laws/Arith.lean ====
section
/-! SUPPORT. What the primitive functions of 00_scope R14 and the pixel channels of 10_state R59 can give. -/

namespace Sys2Proof.Machine

/-- `clamp8` answers 0..255, and its argument where that lies in the range. -/
theorem clamp8_le (v : Int) : clamp8 v ≤ 255 := by
  unfold clamp8
  split_ifs <;> omega

theorem clamp8_of_range {v : Int} (h0 : 0 ≤ v) (h1 : v ≤ 255) : (clamp8 v : Int) = v := by
  unfold clamp8
  rw [if_neg (by omega), if_neg (by omega)]
  omega

/-- Truncation toward zero is the floor where the numerator is not negative, and not positive where it is. -/
theorem truncDiv_of_nonneg {a : Int} (h : 0 ≤ a) (b : Int) : truncDiv a b = a / b := if_pos h

theorem truncDiv_nonpos {a b : Int} (h : a < 0) (hb : 0 < b) : truncDiv a b ≤ 0 := by
  unfold truncDiv
  rw [if_neg (by omega)]
  have : 0 ≤ -a / b := Int.ediv_nonneg (by omega) hb.le
  omega

/-- The search that defines `rbn` answers a value at which it stops, or runs out of fuel. -/
theorem leastPower_le (m start fuel : Nat) : leastPower m start fuel ≤ start + fuel := by
  induction fuel generalizing start with
  | zero => simp [leastPower]
  | succ n ih =>
    unfold leastPower
    split
    · omega
    · have := ih (start + 1); omega

theorem channel2_le (p : Pixel) : channel2 p ≤ 255 := by
  have : channel2 p < 2 ^ 8 := BitVec.isLt _
  omega

theorem channel1_le (p : Pixel) : channel1 p ≤ 255 := by
  have : channel1 p < 2 ^ 8 := BitVec.isLt _
  omega

theorem channel0_le (p : Pixel) : channel0 p ≤ 255 := by
  have : channel0 p < 2 ^ 8 := BitVec.isLt _
  omega

/-- Three channel values in 0..255 pack and come back. -/
theorem toNat_packChannels {a b c : Nat} (ha : a ≤ 255) (hb : b ≤ 255) (hc : c ≤ 255) :
    (packChannels a b c).toNat = 65536 * a + 256 * b + c := by
  unfold packChannels
  simp only [BitVec.toNat_append, BitVec.toNat_ofNat]
  rw [← Nat.shiftLeft_add_eq_or_of_lt (by omega), ← Nat.shiftLeft_add_eq_or_of_lt (by omega)]
  simp only [Nat.shiftLeft_eq]
  omega

theorem mem_footprint {w h i : Nat} :
    i ∈ footprint w h ↔ ∃ row col, row < h ∧ col < w ∧ i = row * 8 + col := by
  simp only [footprint, List.mem_flatMap, List.mem_map, List.mem_range]
  constructor
  · rintro ⟨row, hr, col, hc, rfl⟩; exact ⟨row, col, hr, hc, rfl⟩
  · rintro ⟨row, col, hr, hc, rfl⟩; exact ⟨row, hr, col, hc, rfl⟩

theorem length_footprint (w h : Nat) : (footprint w h).length = w * h := by
  simp [footprint, List.length_flatMap, Nat.mul_comm]

/-- Where both edges are at most 8, the footprint is what `inFootprint` says it is (R58). -/
theorem mem_footprint_iff {w h i : Nat} (hw : w ≤ 8) : i ∈ footprint w h ↔ inFootprint w h i = true := by
  rw [mem_footprint]
  simp only [inFootprint, Bool.and_eq_true, decide_eq_true_eq]
  constructor
  · rintro ⟨row, col, hr, hc, rfl⟩; omega
  · rintro ⟨hc, hr⟩; exact ⟨i / 8, i % 8, hr, hc, by omega⟩

end Sys2Proof.Machine
end

