-- ==== Sys2Proof/Laws/State.lean ====
section
/-! SUPPORT. What each shared update does to each field of State, one lemma a field, so that no later proof unfolds an update. -/

namespace Sys2Proof.Machine

/-! ## complete -/

@[simp] theorem complete_id (s : State) : (complete s).id = s.id := rfl
@[simp] theorem complete_memCap (s : State) : (complete s).memCap = s.memCap := rfl
@[simp] theorem complete_irqEn (s : State) : (complete s).irqEn = s.irqEn := rfl
@[simp] theorem complete_status_busy (s : State) : (complete s).status.busy = false := rfl
@[simp] theorem complete_status_done (s : State) : (complete s).status.done = true := rfl
@[simp] theorem complete_status_err (s : State) : (complete s).status.err = s.status.err := rfl
@[simp] theorem complete_status_fieldOvf (s : State) : (complete s).status.fieldOvf = s.status.fieldOvf := rfl
@[simp] theorem complete_status_cmdOvr (s : State) : (complete s).status.cmdOvr = s.status.cmdOvr := rfl
@[simp] theorem complete_status_wrIgn (s : State) : (complete s).status.wrIgn = s.status.wrIgn := rfl
@[simp] theorem complete_status_errCode (s : State) : (complete s).status.errCode = s.status.errCode := rfl
@[simp] theorem complete_status_recValid (s : State) : (complete s).status.recValid = s.status.recValid := rfl
@[simp] theorem complete_cmd (s : State) : (complete s).cmd = s.cmd := rfl
@[simp] theorem complete_arg0 (s : State) : (complete s).arg0 = s.arg0 := rfl
@[simp] theorem complete_result (s : State) : (complete s).result = s.result := rfl
@[simp] theorem complete_errCmd (s : State) : (complete s).errCmd = s.errCmd := rfl
@[simp] theorem complete_errPos (s : State) : (complete s).errPos = s.errPos := rfl
@[simp] theorem complete_imgW (s : State) : (complete s).imgW = s.imgW := rfl
@[simp] theorem complete_imgH (s : State) : (complete s).imgH = s.imgH := rfl
@[simp] theorem complete_blkX (s : State) : (complete s).blkX = s.blkX := rfl
@[simp] theorem complete_blkY (s : State) : (complete s).blkY = s.blkY := rfl
@[simp] theorem complete_qcfg (s : State) : (complete s).qcfg = s.qcfg := rfl
@[simp] theorem complete_qb (s : State) : (complete s).qb = s.qb := rfl
@[simp] theorem complete_aLen (s : State) : (complete s).aLen = s.aLen := rfl
@[simp] theorem complete_aCur (s : State) : (complete s).aCur = s.aCur := rfl
@[simp] theorem complete_rdPos (s : State) : (complete s).rdPos = s.rdPos := rfl
@[simp] theorem complete_bLen (s : State) : (complete s).bLen = s.bLen := rfl
@[simp] theorem complete_pixbuf (s : State) : (complete s).pixbuf = s.pixbuf := rfl
@[simp] theorem complete_outbuf (s : State) : (complete s).outbuf = s.outbuf := rfl
@[simp] theorem complete_resbuf (s : State) : (complete s).resbuf = s.resbuf := rfl
@[simp] theorem complete_memA (s : State) : (complete s).memA = s.memA := rfl
@[simp] theorem complete_memB (s : State) : (complete s).memB = s.memB := rfl
@[simp] theorem complete_resp (s : State) : (complete s).resp = s.resp := rfl
@[simp] theorem complete_draws (s : State) : (complete s).draws = s.draws := rfl
@[simp] theorem complete_pending (s : State) : (complete s).pending = s.pending := rfl

/-! ## raiseError -/

@[simp] theorem raiseError_id (c : ErrCode) (p : Nat) (s : State) : (raiseError c p s).id = s.id := rfl
@[simp] theorem raiseError_memCap (c : ErrCode) (p : Nat) (s : State) : (raiseError c p s).memCap = s.memCap := rfl
@[simp] theorem raiseError_irqEn (c : ErrCode) (p : Nat) (s : State) : (raiseError c p s).irqEn = s.irqEn := rfl
@[simp] theorem raiseError_status_busy (c : ErrCode) (p : Nat) (s : State) : (raiseError c p s).status.busy = false := rfl
@[simp] theorem raiseError_status_done (c : ErrCode) (p : Nat) (s : State) : (raiseError c p s).status.done = s.status.done := rfl
@[simp] theorem raiseError_status_err (c : ErrCode) (p : Nat) (s : State) : (raiseError c p s).status.err = true := rfl
@[simp] theorem raiseError_status_fieldOvf (c : ErrCode) (p : Nat) (s : State) : (raiseError c p s).status.fieldOvf = s.status.fieldOvf := rfl
@[simp] theorem raiseError_status_cmdOvr (c : ErrCode) (p : Nat) (s : State) : (raiseError c p s).status.cmdOvr = s.status.cmdOvr := rfl
@[simp] theorem raiseError_status_wrIgn (c : ErrCode) (p : Nat) (s : State) : (raiseError c p s).status.wrIgn = s.status.wrIgn := rfl
@[simp] theorem raiseError_status_errCode (c : ErrCode) (p : Nat) (s : State) : (raiseError c p s).status.errCode = c := rfl
@[simp] theorem raiseError_status_recValid (c : ErrCode) (p : Nat) (s : State) : (raiseError c p s).status.recValid = s.status.recValid := rfl
@[simp] theorem raiseError_cmd (c : ErrCode) (p : Nat) (s : State) : (raiseError c p s).cmd = s.cmd := rfl
@[simp] theorem raiseError_arg0 (c : ErrCode) (p : Nat) (s : State) : (raiseError c p s).arg0 = s.arg0 := rfl
@[simp] theorem raiseError_result (c : ErrCode) (p : Nat) (s : State) : (raiseError c p s).result = s.result := rfl
@[simp] theorem raiseError_errCmd (c : ErrCode) (p : Nat) (s : State) : (raiseError c p s).errCmd = s.cmd := rfl
@[simp] theorem raiseError_errPos (c : ErrCode) (p : Nat) (s : State) : (raiseError c p s).errPos = BitVec.ofNat 24 p := rfl
@[simp] theorem raiseError_imgW (c : ErrCode) (p : Nat) (s : State) : (raiseError c p s).imgW = s.imgW := rfl
@[simp] theorem raiseError_imgH (c : ErrCode) (p : Nat) (s : State) : (raiseError c p s).imgH = s.imgH := rfl
@[simp] theorem raiseError_blkX (c : ErrCode) (p : Nat) (s : State) : (raiseError c p s).blkX = s.blkX := rfl
@[simp] theorem raiseError_blkY (c : ErrCode) (p : Nat) (s : State) : (raiseError c p s).blkY = s.blkY := rfl
@[simp] theorem raiseError_qcfg (c : ErrCode) (p : Nat) (s : State) : (raiseError c p s).qcfg = s.qcfg := rfl
@[simp] theorem raiseError_qb (c : ErrCode) (p : Nat) (s : State) : (raiseError c p s).qb = s.qb := rfl
@[simp] theorem raiseError_aLen (c : ErrCode) (p : Nat) (s : State) : (raiseError c p s).aLen = s.aLen := rfl
@[simp] theorem raiseError_aCur (c : ErrCode) (p : Nat) (s : State) : (raiseError c p s).aCur = s.aCur := rfl
@[simp] theorem raiseError_rdPos (c : ErrCode) (p : Nat) (s : State) : (raiseError c p s).rdPos = s.rdPos := rfl
@[simp] theorem raiseError_bLen (c : ErrCode) (p : Nat) (s : State) : (raiseError c p s).bLen = s.bLen := rfl
@[simp] theorem raiseError_pixbuf (c : ErrCode) (p : Nat) (s : State) : (raiseError c p s).pixbuf = s.pixbuf := rfl
@[simp] theorem raiseError_outbuf (c : ErrCode) (p : Nat) (s : State) : (raiseError c p s).outbuf = s.outbuf := rfl
@[simp] theorem raiseError_resbuf (c : ErrCode) (p : Nat) (s : State) : (raiseError c p s).resbuf = s.resbuf := rfl
@[simp] theorem raiseError_memA (c : ErrCode) (p : Nat) (s : State) : (raiseError c p s).memA = s.memA := rfl
@[simp] theorem raiseError_memB (c : ErrCode) (p : Nat) (s : State) : (raiseError c p s).memB = s.memB := rfl
@[simp] theorem raiseError_resp (c : ErrCode) (p : Nat) (s : State) : (raiseError c p s).resp = s.resp := rfl
@[simp] theorem raiseError_draws (c : ErrCode) (p : Nat) (s : State) : (raiseError c p s).draws = s.draws := rfl
@[simp] theorem raiseError_pending (c : ErrCode) (p : Nat) (s : State) : (raiseError c p s).pending = s.pending := rfl

/-! ## issue -/

@[simp] theorem issue_id (w : Word) (s : State) : (issue w s).id = s.id := rfl
@[simp] theorem issue_memCap (w : Word) (s : State) : (issue w s).memCap = s.memCap := rfl
@[simp] theorem issue_irqEn (w : Word) (s : State) : (issue w s).irqEn = s.irqEn := rfl
@[simp] theorem issue_status_busy (w : Word) (s : State) : (issue w s).status.busy = true := rfl
@[simp] theorem issue_status_done (w : Word) (s : State) : (issue w s).status.done = false := rfl
@[simp] theorem issue_status_err (w : Word) (s : State) : (issue w s).status.err = false := rfl
@[simp] theorem issue_status_fieldOvf (w : Word) (s : State) : (issue w s).status.fieldOvf = s.status.fieldOvf := rfl
@[simp] theorem issue_status_cmdOvr (w : Word) (s : State) : (issue w s).status.cmdOvr = s.status.cmdOvr := rfl
@[simp] theorem issue_status_wrIgn (w : Word) (s : State) : (issue w s).status.wrIgn = s.status.wrIgn := rfl
@[simp] theorem issue_status_errCode (w : Word) (s : State) : (issue w s).status.errCode = .noError := rfl
@[simp] theorem issue_status_recValid (w : Word) (s : State) : (issue w s).status.recValid = s.status.recValid := rfl
@[simp] theorem issue_cmd (w : Word) (s : State) : (issue w s).cmd = w := rfl
@[simp] theorem issue_arg0 (w : Word) (s : State) : (issue w s).arg0 = s.arg0 := rfl
@[simp] theorem issue_result (w : Word) (s : State) : (issue w s).result = s.result := rfl
@[simp] theorem issue_errCmd (w : Word) (s : State) : (issue w s).errCmd = s.errCmd := rfl
@[simp] theorem issue_errPos (w : Word) (s : State) : (issue w s).errPos = s.errPos := rfl
@[simp] theorem issue_imgW (w : Word) (s : State) : (issue w s).imgW = s.imgW := rfl
@[simp] theorem issue_imgH (w : Word) (s : State) : (issue w s).imgH = s.imgH := rfl
@[simp] theorem issue_blkX (w : Word) (s : State) : (issue w s).blkX = s.blkX := rfl
@[simp] theorem issue_blkY (w : Word) (s : State) : (issue w s).blkY = s.blkY := rfl
@[simp] theorem issue_qcfg (w : Word) (s : State) : (issue w s).qcfg = s.qcfg := rfl
@[simp] theorem issue_qb (w : Word) (s : State) : (issue w s).qb = s.qb := rfl
@[simp] theorem issue_aLen (w : Word) (s : State) : (issue w s).aLen = s.aLen := rfl
@[simp] theorem issue_aCur (w : Word) (s : State) : (issue w s).aCur = s.aCur := rfl
@[simp] theorem issue_rdPos (w : Word) (s : State) : (issue w s).rdPos = s.rdPos := rfl
@[simp] theorem issue_bLen (w : Word) (s : State) : (issue w s).bLen = s.bLen := rfl
@[simp] theorem issue_pixbuf (w : Word) (s : State) : (issue w s).pixbuf = s.pixbuf := rfl
@[simp] theorem issue_outbuf (w : Word) (s : State) : (issue w s).outbuf = s.outbuf := rfl
@[simp] theorem issue_resbuf (w : Word) (s : State) : (issue w s).resbuf = s.resbuf := rfl
@[simp] theorem issue_memA (w : Word) (s : State) : (issue w s).memA = s.memA := rfl
@[simp] theorem issue_memB (w : Word) (s : State) : (issue w s).memB = s.memB := rfl
@[simp] theorem issue_resp (w : Word) (s : State) : (issue w s).resp = s.resp := rfl
@[simp] theorem issue_draws (w : Word) (s : State) : (issue w s).draws = s.draws := rfl
@[simp] theorem issue_pending (w : Word) (s : State) : (issue w s).pending = s.pending := rfl

/-! ## forgetA -/

@[simp] theorem forgetA_id (s : State) : (forgetA s).id = s.id := rfl
@[simp] theorem forgetA_memCap (s : State) : (forgetA s).memCap = s.memCap := rfl
@[simp] theorem forgetA_irqEn (s : State) : (forgetA s).irqEn = s.irqEn := rfl
@[simp] theorem forgetA_status (s : State) : (forgetA s).status = s.status := rfl
@[simp] theorem forgetA_cmd (s : State) : (forgetA s).cmd = s.cmd := rfl
@[simp] theorem forgetA_arg0 (s : State) : (forgetA s).arg0 = s.arg0 := rfl
@[simp] theorem forgetA_result (s : State) : (forgetA s).result = s.result := rfl
@[simp] theorem forgetA_errCmd (s : State) : (forgetA s).errCmd = s.errCmd := rfl
@[simp] theorem forgetA_errPos (s : State) : (forgetA s).errPos = s.errPos := rfl
@[simp] theorem forgetA_imgW (s : State) : (forgetA s).imgW = s.imgW := rfl
@[simp] theorem forgetA_imgH (s : State) : (forgetA s).imgH = s.imgH := rfl
@[simp] theorem forgetA_blkX (s : State) : (forgetA s).blkX = s.blkX := rfl
@[simp] theorem forgetA_blkY (s : State) : (forgetA s).blkY = s.blkY := rfl
@[simp] theorem forgetA_qcfg (s : State) : (forgetA s).qcfg = s.qcfg := rfl
@[simp] theorem forgetA_qb (s : State) : (forgetA s).qb = s.qb := rfl
@[simp] theorem forgetA_aLen (s : State) : (forgetA s).aLen = s.aLen := rfl
@[simp] theorem forgetA_aCur (s : State) : (forgetA s).aCur = s.aCur := rfl
@[simp] theorem forgetA_rdPos (s : State) : (forgetA s).rdPos = s.rdPos := rfl
@[simp] theorem forgetA_bLen (s : State) : (forgetA s).bLen = s.bLen := rfl
@[simp] theorem forgetA_pixbuf (s : State) : (forgetA s).pixbuf = s.pixbuf := rfl
@[simp] theorem forgetA_outbuf (s : State) : (forgetA s).outbuf = s.outbuf := rfl
@[simp] theorem forgetA_resbuf (s : State) : (forgetA s).resbuf = s.resbuf := rfl
@[simp] theorem forgetA_memA (s : State) : (forgetA s).memA = Memory.unspecified s.draws := rfl
@[simp] theorem forgetA_memB (s : State) : (forgetA s).memB = s.memB := rfl
@[simp] theorem forgetA_resp (s : State) : (forgetA s).resp = s.resp := rfl
@[simp] theorem forgetA_draws (s : State) : (forgetA s).draws = s.draws + 1 := rfl
@[simp] theorem forgetA_pending (s : State) : (forgetA s).pending = s.pending := rfl

/-! ## forgetB -/

@[simp] theorem forgetB_id (s : State) : (forgetB s).id = s.id := rfl
@[simp] theorem forgetB_memCap (s : State) : (forgetB s).memCap = s.memCap := rfl
@[simp] theorem forgetB_irqEn (s : State) : (forgetB s).irqEn = s.irqEn := rfl
@[simp] theorem forgetB_status (s : State) : (forgetB s).status = s.status := rfl
@[simp] theorem forgetB_cmd (s : State) : (forgetB s).cmd = s.cmd := rfl
@[simp] theorem forgetB_arg0 (s : State) : (forgetB s).arg0 = s.arg0 := rfl
@[simp] theorem forgetB_result (s : State) : (forgetB s).result = s.result := rfl
@[simp] theorem forgetB_errCmd (s : State) : (forgetB s).errCmd = s.errCmd := rfl
@[simp] theorem forgetB_errPos (s : State) : (forgetB s).errPos = s.errPos := rfl
@[simp] theorem forgetB_imgW (s : State) : (forgetB s).imgW = s.imgW := rfl
@[simp] theorem forgetB_imgH (s : State) : (forgetB s).imgH = s.imgH := rfl
@[simp] theorem forgetB_blkX (s : State) : (forgetB s).blkX = s.blkX := rfl
@[simp] theorem forgetB_blkY (s : State) : (forgetB s).blkY = s.blkY := rfl
@[simp] theorem forgetB_qcfg (s : State) : (forgetB s).qcfg = s.qcfg := rfl
@[simp] theorem forgetB_qb (s : State) : (forgetB s).qb = s.qb := rfl
@[simp] theorem forgetB_aLen (s : State) : (forgetB s).aLen = s.aLen := rfl
@[simp] theorem forgetB_aCur (s : State) : (forgetB s).aCur = s.aCur := rfl
@[simp] theorem forgetB_rdPos (s : State) : (forgetB s).rdPos = s.rdPos := rfl
@[simp] theorem forgetB_bLen (s : State) : (forgetB s).bLen = s.bLen := rfl
@[simp] theorem forgetB_pixbuf (s : State) : (forgetB s).pixbuf = s.pixbuf := rfl
@[simp] theorem forgetB_outbuf (s : State) : (forgetB s).outbuf = s.outbuf := rfl
@[simp] theorem forgetB_resbuf (s : State) : (forgetB s).resbuf = s.resbuf := rfl
@[simp] theorem forgetB_memA (s : State) : (forgetB s).memA = s.memA := rfl
@[simp] theorem forgetB_memB (s : State) : (forgetB s).memB = Memory.unspecified s.draws := rfl
@[simp] theorem forgetB_resp (s : State) : (forgetB s).resp = s.resp := rfl
@[simp] theorem forgetB_draws (s : State) : (forgetB s).draws = s.draws + 1 := rfl
@[simp] theorem forgetB_pending (s : State) : (forgetB s).pending = s.pending := rfl

/-! ## forgetOutbuf -/

@[simp] theorem forgetOutbuf_id (s : State) : (forgetOutbuf s).id = s.id := rfl
@[simp] theorem forgetOutbuf_memCap (s : State) : (forgetOutbuf s).memCap = s.memCap := rfl
@[simp] theorem forgetOutbuf_irqEn (s : State) : (forgetOutbuf s).irqEn = s.irqEn := rfl
@[simp] theorem forgetOutbuf_status (s : State) : (forgetOutbuf s).status = s.status := rfl
@[simp] theorem forgetOutbuf_cmd (s : State) : (forgetOutbuf s).cmd = s.cmd := rfl
@[simp] theorem forgetOutbuf_arg0 (s : State) : (forgetOutbuf s).arg0 = s.arg0 := rfl
@[simp] theorem forgetOutbuf_result (s : State) : (forgetOutbuf s).result = s.result := rfl
@[simp] theorem forgetOutbuf_errCmd (s : State) : (forgetOutbuf s).errCmd = s.errCmd := rfl
@[simp] theorem forgetOutbuf_errPos (s : State) : (forgetOutbuf s).errPos = s.errPos := rfl
@[simp] theorem forgetOutbuf_imgW (s : State) : (forgetOutbuf s).imgW = s.imgW := rfl
@[simp] theorem forgetOutbuf_imgH (s : State) : (forgetOutbuf s).imgH = s.imgH := rfl
@[simp] theorem forgetOutbuf_blkX (s : State) : (forgetOutbuf s).blkX = s.blkX := rfl
@[simp] theorem forgetOutbuf_blkY (s : State) : (forgetOutbuf s).blkY = s.blkY := rfl
@[simp] theorem forgetOutbuf_qcfg (s : State) : (forgetOutbuf s).qcfg = s.qcfg := rfl
@[simp] theorem forgetOutbuf_qb (s : State) : (forgetOutbuf s).qb = s.qb := rfl
@[simp] theorem forgetOutbuf_aLen (s : State) : (forgetOutbuf s).aLen = s.aLen := rfl
@[simp] theorem forgetOutbuf_aCur (s : State) : (forgetOutbuf s).aCur = s.aCur := rfl
@[simp] theorem forgetOutbuf_rdPos (s : State) : (forgetOutbuf s).rdPos = s.rdPos := rfl
@[simp] theorem forgetOutbuf_bLen (s : State) : (forgetOutbuf s).bLen = s.bLen := rfl
@[simp] theorem forgetOutbuf_pixbuf (s : State) : (forgetOutbuf s).pixbuf = s.pixbuf := rfl
@[simp] theorem forgetOutbuf_outbuf (s : State) : (forgetOutbuf s).outbuf = Memory.unspecified s.draws := rfl
@[simp] theorem forgetOutbuf_resbuf (s : State) : (forgetOutbuf s).resbuf = s.resbuf := rfl
@[simp] theorem forgetOutbuf_memA (s : State) : (forgetOutbuf s).memA = s.memA := rfl
@[simp] theorem forgetOutbuf_memB (s : State) : (forgetOutbuf s).memB = s.memB := rfl
@[simp] theorem forgetOutbuf_resp (s : State) : (forgetOutbuf s).resp = s.resp := rfl
@[simp] theorem forgetOutbuf_draws (s : State) : (forgetOutbuf s).draws = s.draws + 1 := rfl
@[simp] theorem forgetOutbuf_pending (s : State) : (forgetOutbuf s).pending = s.pending := rfl

/-! ## forgetResbuf -/

@[simp] theorem forgetResbuf_id (s : State) : (forgetResbuf s).id = s.id := rfl
@[simp] theorem forgetResbuf_memCap (s : State) : (forgetResbuf s).memCap = s.memCap := rfl
@[simp] theorem forgetResbuf_irqEn (s : State) : (forgetResbuf s).irqEn = s.irqEn := rfl
@[simp] theorem forgetResbuf_status (s : State) : (forgetResbuf s).status = s.status := rfl
@[simp] theorem forgetResbuf_cmd (s : State) : (forgetResbuf s).cmd = s.cmd := rfl
@[simp] theorem forgetResbuf_arg0 (s : State) : (forgetResbuf s).arg0 = s.arg0 := rfl
@[simp] theorem forgetResbuf_result (s : State) : (forgetResbuf s).result = s.result := rfl
@[simp] theorem forgetResbuf_errCmd (s : State) : (forgetResbuf s).errCmd = s.errCmd := rfl
@[simp] theorem forgetResbuf_errPos (s : State) : (forgetResbuf s).errPos = s.errPos := rfl
@[simp] theorem forgetResbuf_imgW (s : State) : (forgetResbuf s).imgW = s.imgW := rfl
@[simp] theorem forgetResbuf_imgH (s : State) : (forgetResbuf s).imgH = s.imgH := rfl
@[simp] theorem forgetResbuf_blkX (s : State) : (forgetResbuf s).blkX = s.blkX := rfl
@[simp] theorem forgetResbuf_blkY (s : State) : (forgetResbuf s).blkY = s.blkY := rfl
@[simp] theorem forgetResbuf_qcfg (s : State) : (forgetResbuf s).qcfg = s.qcfg := rfl
@[simp] theorem forgetResbuf_qb (s : State) : (forgetResbuf s).qb = s.qb := rfl
@[simp] theorem forgetResbuf_aLen (s : State) : (forgetResbuf s).aLen = s.aLen := rfl
@[simp] theorem forgetResbuf_aCur (s : State) : (forgetResbuf s).aCur = s.aCur := rfl
@[simp] theorem forgetResbuf_rdPos (s : State) : (forgetResbuf s).rdPos = s.rdPos := rfl
@[simp] theorem forgetResbuf_bLen (s : State) : (forgetResbuf s).bLen = s.bLen := rfl
@[simp] theorem forgetResbuf_pixbuf (s : State) : (forgetResbuf s).pixbuf = s.pixbuf := rfl
@[simp] theorem forgetResbuf_outbuf (s : State) : (forgetResbuf s).outbuf = s.outbuf := rfl
@[simp] theorem forgetResbuf_resbuf (s : State) : (forgetResbuf s).resbuf = Memory.unspecified s.draws := rfl
@[simp] theorem forgetResbuf_memA (s : State) : (forgetResbuf s).memA = s.memA := rfl
@[simp] theorem forgetResbuf_memB (s : State) : (forgetResbuf s).memB = s.memB := rfl
@[simp] theorem forgetResbuf_resp (s : State) : (forgetResbuf s).resp = s.resp := rfl
@[simp] theorem forgetResbuf_draws (s : State) : (forgetResbuf s).draws = s.draws + 1 := rfl
@[simp] theorem forgetResbuf_pending (s : State) : (forgetResbuf s).pending = s.pending := rfl

/-! ## resetRegisters -/

@[simp] theorem resetRegisters_id (s : State) : (resetRegisters s).id = s.id := rfl
@[simp] theorem resetRegisters_memCap (s : State) : (resetRegisters s).memCap = s.memCap := rfl
@[simp] theorem resetRegisters_irqEn (s : State) : (resetRegisters s).irqEn = State.reset.irqEn := rfl
@[simp] theorem resetRegisters_status (s : State) : (resetRegisters s).status = State.reset.status := rfl
@[simp] theorem resetRegisters_cmd (s : State) : (resetRegisters s).cmd = State.reset.cmd := rfl
@[simp] theorem resetRegisters_arg0 (s : State) : (resetRegisters s).arg0 = State.reset.arg0 := rfl
@[simp] theorem resetRegisters_result (s : State) : (resetRegisters s).result = State.reset.result := rfl
@[simp] theorem resetRegisters_errCmd (s : State) : (resetRegisters s).errCmd = State.reset.errCmd := rfl
@[simp] theorem resetRegisters_errPos (s : State) : (resetRegisters s).errPos = State.reset.errPos := rfl
@[simp] theorem resetRegisters_imgW (s : State) : (resetRegisters s).imgW = State.reset.imgW := rfl
@[simp] theorem resetRegisters_imgH (s : State) : (resetRegisters s).imgH = State.reset.imgH := rfl
@[simp] theorem resetRegisters_blkX (s : State) : (resetRegisters s).blkX = State.reset.blkX := rfl
@[simp] theorem resetRegisters_blkY (s : State) : (resetRegisters s).blkY = State.reset.blkY := rfl
@[simp] theorem resetRegisters_qcfg (s : State) : (resetRegisters s).qcfg = State.reset.qcfg := rfl
@[simp] theorem resetRegisters_qb (s : State) : (resetRegisters s).qb = State.reset.qb := rfl
@[simp] theorem resetRegisters_aLen (s : State) : (resetRegisters s).aLen = State.reset.aLen := rfl
@[simp] theorem resetRegisters_aCur (s : State) : (resetRegisters s).aCur = State.reset.aCur := rfl
@[simp] theorem resetRegisters_rdPos (s : State) : (resetRegisters s).rdPos = State.reset.rdPos := rfl
@[simp] theorem resetRegisters_bLen (s : State) : (resetRegisters s).bLen = State.reset.bLen := rfl
@[simp] theorem resetRegisters_pixbuf (s : State) : (resetRegisters s).pixbuf = s.pixbuf := rfl
@[simp] theorem resetRegisters_outbuf (s : State) : (resetRegisters s).outbuf = s.outbuf := rfl
@[simp] theorem resetRegisters_resbuf (s : State) : (resetRegisters s).resbuf = s.resbuf := rfl
@[simp] theorem resetRegisters_memA (s : State) : (resetRegisters s).memA = s.memA := rfl
@[simp] theorem resetRegisters_memB (s : State) : (resetRegisters s).memB = s.memB := rfl
@[simp] theorem resetRegisters_resp (s : State) : (resetRegisters s).resp = s.resp := rfl
@[simp] theorem resetRegisters_draws (s : State) : (resetRegisters s).draws = s.draws := rfl
@[simp] theorem resetRegisters_pending (s : State) : (resetRegisters s).pending = s.pending := rfl

/-! ## noteOverflow -/

@[simp] theorem noteOverflow_id (v n : Nat) (s : State) : (noteOverflow v n s).id = s.id := rfl
@[simp] theorem noteOverflow_memCap (v n : Nat) (s : State) : (noteOverflow v n s).memCap = s.memCap := rfl
@[simp] theorem noteOverflow_irqEn (v n : Nat) (s : State) : (noteOverflow v n s).irqEn = s.irqEn := rfl
@[simp] theorem noteOverflow_status_busy (v n : Nat) (s : State) : (noteOverflow v n s).status.busy = s.status.busy := rfl
@[simp] theorem noteOverflow_status_done (v n : Nat) (s : State) : (noteOverflow v n s).status.done = s.status.done := rfl
@[simp] theorem noteOverflow_status_err (v n : Nat) (s : State) : (noteOverflow v n s).status.err = s.status.err := rfl
@[simp] theorem noteOverflow_status_fieldOvf (v n : Nat) (s : State) : (noteOverflow v n s).status.fieldOvf = (s.status.fieldOvf || overflows v n) := rfl
@[simp] theorem noteOverflow_status_cmdOvr (v n : Nat) (s : State) : (noteOverflow v n s).status.cmdOvr = s.status.cmdOvr := rfl
@[simp] theorem noteOverflow_status_wrIgn (v n : Nat) (s : State) : (noteOverflow v n s).status.wrIgn = s.status.wrIgn := rfl
@[simp] theorem noteOverflow_status_errCode (v n : Nat) (s : State) : (noteOverflow v n s).status.errCode = s.status.errCode := rfl
@[simp] theorem noteOverflow_status_recValid (v n : Nat) (s : State) : (noteOverflow v n s).status.recValid = s.status.recValid := rfl
@[simp] theorem noteOverflow_cmd (v n : Nat) (s : State) : (noteOverflow v n s).cmd = s.cmd := rfl
@[simp] theorem noteOverflow_arg0 (v n : Nat) (s : State) : (noteOverflow v n s).arg0 = s.arg0 := rfl
@[simp] theorem noteOverflow_result (v n : Nat) (s : State) : (noteOverflow v n s).result = s.result := rfl
@[simp] theorem noteOverflow_errCmd (v n : Nat) (s : State) : (noteOverflow v n s).errCmd = s.errCmd := rfl
@[simp] theorem noteOverflow_errPos (v n : Nat) (s : State) : (noteOverflow v n s).errPos = s.errPos := rfl
@[simp] theorem noteOverflow_imgW (v n : Nat) (s : State) : (noteOverflow v n s).imgW = s.imgW := rfl
@[simp] theorem noteOverflow_imgH (v n : Nat) (s : State) : (noteOverflow v n s).imgH = s.imgH := rfl
@[simp] theorem noteOverflow_blkX (v n : Nat) (s : State) : (noteOverflow v n s).blkX = s.blkX := rfl
@[simp] theorem noteOverflow_blkY (v n : Nat) (s : State) : (noteOverflow v n s).blkY = s.blkY := rfl
@[simp] theorem noteOverflow_qcfg (v n : Nat) (s : State) : (noteOverflow v n s).qcfg = s.qcfg := rfl
@[simp] theorem noteOverflow_qb (v n : Nat) (s : State) : (noteOverflow v n s).qb = s.qb := rfl
@[simp] theorem noteOverflow_aLen (v n : Nat) (s : State) : (noteOverflow v n s).aLen = s.aLen := rfl
@[simp] theorem noteOverflow_aCur (v n : Nat) (s : State) : (noteOverflow v n s).aCur = s.aCur := rfl
@[simp] theorem noteOverflow_rdPos (v n : Nat) (s : State) : (noteOverflow v n s).rdPos = s.rdPos := rfl
@[simp] theorem noteOverflow_bLen (v n : Nat) (s : State) : (noteOverflow v n s).bLen = s.bLen := rfl
@[simp] theorem noteOverflow_pixbuf (v n : Nat) (s : State) : (noteOverflow v n s).pixbuf = s.pixbuf := rfl
@[simp] theorem noteOverflow_outbuf (v n : Nat) (s : State) : (noteOverflow v n s).outbuf = s.outbuf := rfl
@[simp] theorem noteOverflow_resbuf (v n : Nat) (s : State) : (noteOverflow v n s).resbuf = s.resbuf := rfl
@[simp] theorem noteOverflow_memA (v n : Nat) (s : State) : (noteOverflow v n s).memA = s.memA := rfl
@[simp] theorem noteOverflow_memB (v n : Nat) (s : State) : (noteOverflow v n s).memB = s.memB := rfl
@[simp] theorem noteOverflow_resp (v n : Nat) (s : State) : (noteOverflow v n s).resp = s.resp := rfl
@[simp] theorem noteOverflow_draws (v n : Nat) (s : State) : (noteOverflow v n s).draws = s.draws := rfl
@[simp] theorem noteOverflow_pending (v n : Nat) (s : State) : (noteOverflow v n s).pending = s.pending := rfl

/-! ## appendBits -/

@[simp] theorem appendBits_id (v n : Nat) (s : State) : (appendBits v n s).id = s.id := rfl
@[simp] theorem appendBits_memCap (v n : Nat) (s : State) : (appendBits v n s).memCap = s.memCap := rfl
@[simp] theorem appendBits_irqEn (v n : Nat) (s : State) : (appendBits v n s).irqEn = s.irqEn := rfl
@[simp] theorem appendBits_status (v n : Nat) (s : State) : (appendBits v n s).status = s.status := rfl
@[simp] theorem appendBits_cmd (v n : Nat) (s : State) : (appendBits v n s).cmd = s.cmd := rfl
@[simp] theorem appendBits_arg0 (v n : Nat) (s : State) : (appendBits v n s).arg0 = s.arg0 := rfl
@[simp] theorem appendBits_result (v n : Nat) (s : State) : (appendBits v n s).result = s.result := rfl
@[simp] theorem appendBits_errCmd (v n : Nat) (s : State) : (appendBits v n s).errCmd = s.errCmd := rfl
@[simp] theorem appendBits_errPos (v n : Nat) (s : State) : (appendBits v n s).errPos = s.errPos := rfl
@[simp] theorem appendBits_imgW (v n : Nat) (s : State) : (appendBits v n s).imgW = s.imgW := rfl
@[simp] theorem appendBits_imgH (v n : Nat) (s : State) : (appendBits v n s).imgH = s.imgH := rfl
@[simp] theorem appendBits_blkX (v n : Nat) (s : State) : (appendBits v n s).blkX = s.blkX := rfl
@[simp] theorem appendBits_blkY (v n : Nat) (s : State) : (appendBits v n s).blkY = s.blkY := rfl
@[simp] theorem appendBits_qcfg (v n : Nat) (s : State) : (appendBits v n s).qcfg = s.qcfg := rfl
@[simp] theorem appendBits_qb (v n : Nat) (s : State) : (appendBits v n s).qb = s.qb := rfl
@[simp] theorem appendBits_aLen (v n : Nat) (s : State) : (appendBits v n s).aLen = lenAfter (nbits s) n s.aLen := rfl
@[simp] theorem appendBits_aCur (v n : Nat) (s : State) : (appendBits v n s).aCur = BitVec.ofNat 3 ((nbits s + n) % 8) := rfl
@[simp] theorem appendBits_rdPos (v n : Nat) (s : State) : (appendBits v n s).rdPos = s.rdPos := rfl
@[simp] theorem appendBits_bLen (v n : Nat) (s : State) : (appendBits v n s).bLen = s.bLen := rfl
@[simp] theorem appendBits_pixbuf (v n : Nat) (s : State) : (appendBits v n s).pixbuf = s.pixbuf := rfl
@[simp] theorem appendBits_outbuf (v n : Nat) (s : State) : (appendBits v n s).outbuf = s.outbuf := rfl
@[simp] theorem appendBits_resbuf (v n : Nat) (s : State) : (appendBits v n s).resbuf = s.resbuf := rfl
@[simp] theorem appendBits_memA (v n : Nat) (s : State) : (appendBits v n s).memA = putBits (nbits s) v n s.memA := rfl
@[simp] theorem appendBits_memB (v n : Nat) (s : State) : (appendBits v n s).memB = s.memB := rfl
@[simp] theorem appendBits_resp (v n : Nat) (s : State) : (appendBits v n s).resp = s.resp := rfl
@[simp] theorem appendBits_draws (v n : Nat) (s : State) : (appendBits v n s).draws = s.draws := rfl
@[simp] theorem appendBits_pending (v n : Nat) (s : State) : (appendBits v n s).pending = s.pending := rfl

/-! ## commitRecord -/

@[simp] theorem commitRecord_id (s : State) (q : BlockData) (f : Nat → Nat → Nat) : (commitRecord s q f).id = s.id := rfl
@[simp] theorem commitRecord_memCap (s : State) (q : BlockData) (f : Nat → Nat → Nat) : (commitRecord s q f).memCap = s.memCap := rfl
@[simp] theorem commitRecord_irqEn (s : State) (q : BlockData) (f : Nat → Nat → Nat) : (commitRecord s q f).irqEn = s.irqEn := rfl
@[simp] theorem commitRecord_status_busy (s : State) (q : BlockData) (f : Nat → Nat → Nat) : (commitRecord s q f).status.busy = s.status.busy := rfl
@[simp] theorem commitRecord_status_done (s : State) (q : BlockData) (f : Nat → Nat → Nat) : (commitRecord s q f).status.done = s.status.done := rfl
@[simp] theorem commitRecord_status_err (s : State) (q : BlockData) (f : Nat → Nat → Nat) : (commitRecord s q f).status.err = s.status.err := rfl
@[simp] theorem commitRecord_status_fieldOvf (s : State) (q : BlockData) (f : Nat → Nat → Nat) : (commitRecord s q f).status.fieldOvf = s.status.fieldOvf := rfl
@[simp] theorem commitRecord_status_cmdOvr (s : State) (q : BlockData) (f : Nat → Nat → Nat) : (commitRecord s q f).status.cmdOvr = s.status.cmdOvr := rfl
@[simp] theorem commitRecord_status_wrIgn (s : State) (q : BlockData) (f : Nat → Nat → Nat) : (commitRecord s q f).status.wrIgn = s.status.wrIgn := rfl
@[simp] theorem commitRecord_status_errCode (s : State) (q : BlockData) (f : Nat → Nat → Nat) : (commitRecord s q f).status.errCode = s.status.errCode := rfl
@[simp] theorem commitRecord_status_recValid (s : State) (q : BlockData) (f : Nat → Nat → Nat) : (commitRecord s q f).status.recValid = true := rfl
@[simp] theorem commitRecord_cmd (s : State) (q : BlockData) (f : Nat → Nat → Nat) : (commitRecord s q f).cmd = s.cmd := rfl
@[simp] theorem commitRecord_arg0 (s : State) (q : BlockData) (f : Nat → Nat → Nat) : (commitRecord s q f).arg0 = s.arg0 := rfl
@[simp] theorem commitRecord_result (s : State) (q : BlockData) (f : Nat → Nat → Nat) : (commitRecord s q f).result = s.result := rfl
@[simp] theorem commitRecord_errCmd (s : State) (q : BlockData) (f : Nat → Nat → Nat) : (commitRecord s q f).errCmd = s.errCmd := rfl
@[simp] theorem commitRecord_errPos (s : State) (q : BlockData) (f : Nat → Nat → Nat) : (commitRecord s q f).errPos = s.errPos := rfl
@[simp] theorem commitRecord_imgW (s : State) (q : BlockData) (f : Nat → Nat → Nat) : (commitRecord s q f).imgW = s.imgW := rfl
@[simp] theorem commitRecord_imgH (s : State) (q : BlockData) (f : Nat → Nat → Nat) : (commitRecord s q f).imgH = s.imgH := rfl
@[simp] theorem commitRecord_blkX (s : State) (q : BlockData) (f : Nat → Nat → Nat) : (commitRecord s q f).blkX = s.blkX := rfl
@[simp] theorem commitRecord_blkY (s : State) (q : BlockData) (f : Nat → Nat → Nat) : (commitRecord s q f).blkY = s.blkY := rfl
@[simp] theorem commitRecord_qcfg (s : State) (q : BlockData) (f : Nat → Nat → Nat) : (commitRecord s q f).qcfg = s.qcfg := rfl
@[simp] theorem commitRecord_qb (s : State) (q : BlockData) (f : Nat → Nat → Nat) : (commitRecord s q f).qb = recordOf s q := rfl
@[simp] theorem commitRecord_aLen (s : State) (q : BlockData) (f : Nat → Nat → Nat) : (commitRecord s q f).aLen = s.aLen := rfl
@[simp] theorem commitRecord_aCur (s : State) (q : BlockData) (f : Nat → Nat → Nat) : (commitRecord s q f).aCur = s.aCur := rfl
@[simp] theorem commitRecord_rdPos (s : State) (q : BlockData) (f : Nat → Nat → Nat) : (commitRecord s q f).rdPos = s.rdPos := rfl
@[simp] theorem commitRecord_bLen (s : State) (q : BlockData) (f : Nat → Nat → Nat) : (commitRecord s q f).bLen = s.bLen := rfl
@[simp] theorem commitRecord_pixbuf (s : State) (q : BlockData) (f : Nat → Nat → Nat) : (commitRecord s q f).pixbuf = s.pixbuf := rfl
@[simp] theorem commitRecord_outbuf (s : State) (q : BlockData) (f : Nat → Nat → Nat) : (commitRecord s q f).outbuf = s.outbuf := rfl
@[simp] theorem commitRecord_resbuf (s : State) (q : BlockData) (f : Nat → Nat → Nat) :
    (commitRecord s q f).resbuf = s.resbuf.fill 64 fun i => if inFootprint q.w q.h i then BitVec.ofNat 8 (f (i / 8) (i % 8)) else 0 := rfl
@[simp] theorem commitRecord_memA (s : State) (q : BlockData) (f : Nat → Nat → Nat) : (commitRecord s q f).memA = s.memA := rfl
@[simp] theorem commitRecord_memB (s : State) (q : BlockData) (f : Nat → Nat → Nat) : (commitRecord s q f).memB = s.memB := rfl
@[simp] theorem commitRecord_resp (s : State) (q : BlockData) (f : Nat → Nat → Nat) : (commitRecord s q f).resp = s.resp := rfl
@[simp] theorem commitRecord_draws (s : State) (q : BlockData) (f : Nat → Nat → Nat) : (commitRecord s q f).draws = s.draws := rfl
@[simp] theorem commitRecord_pending (s : State) (q : BlockData) (f : Nat → Nat → Nat) : (commitRecord s q f).pending = s.pending := rfl

end Sys2Proof.Machine
end

