-- ==== Sys2Proof/Laws/Memory.lean ====
section
/-! SUPPORT. What the memory operations do: reading after writing, and that each keeps the canonical form. -/

namespace Sys2Proof.Machine

variable {w : Nat}

theorem findCell_insertCell_same (k : Nat) (v : BitVec w) (l : List (Nat × BitVec w)) :
    findCell k (insertCell k v l) = some v := by
  induction l with
  | nil => simp [insertCell, findCell]
  | cons c rest ih =>
    obtain ⟨a, x⟩ := c
    unfold insertCell
    split_ifs with h1 h2
    · simp [findCell]
    · simp [findCell]
    · simpa [findCell, Ne.symm h2] using ih

theorem findCell_insertCell_other {j k : Nat} (h : j ≠ k) (v : BitVec w) (l : List (Nat × BitVec w)) :
    findCell j (insertCell k v l) = findCell j l := by
  induction l with
  | nil => simp [insertCell, findCell, h.symm]
  | cons c rest ih =>
    obtain ⟨a, x⟩ := c
    unfold insertCell
    split_ifs with h1 h2
    · simp [findCell, h.symm]
    · subst h2; simp [findCell, h.symm]
    · simp only [findCell]; split <;> simp_all

@[simp] theorem Memory.get_set_same (m : Memory w) (k : Nat) (v : BitVec w) : (m.set k v).get k = v := by
  simp [Memory.get, Memory.set, findCell_insertCell_same]

theorem Memory.get_set_other (m : Memory w) {j k : Nat} (h : j ≠ k) (v : BitVec w) :
    (m.set k v).get j = m.get j := by
  simp [Memory.get, Memory.set, findCell_insertCell_other h]

theorem Memory.get_set (m : Memory w) (j k : Nat) (v : BitVec w) :
    (m.set k v).get j = if j = k then v else m.get j := by
  split
  · subst_vars; simp
  · next h => exact m.get_set_other h v

@[simp] theorem Memory.set_epoch (m : Memory w) (k : Nat) (v : BitVec w) : (m.set k v).epoch = m.epoch := rfl
@[simp] theorem Memory.fill_epoch (m : Memory w) (n : Nat) (f : Nat → BitVec w) : (m.fill n f).epoch = m.epoch := rfl
@[simp] theorem Memory.unspecified_epoch (d : Nat) : (Memory.unspecified d : Memory w).epoch = d := rfl
@[simp] theorem Memory.get_unspecified (d k : Nat) : (Memory.unspecified d : Memory w).get k = Config.freeBits w d k := rfl

theorem findCell_map_range' (f : Nat → BitVec w) (k n start : Nat) :
    findCell k ((List.range' start n).map fun i => (i, f i)) =
      if start ≤ k ∧ k < start + n then some (f k) else none := by
  induction n generalizing start with
  | zero =>
    have : ¬ (start ≤ k ∧ k < start + 0) := by omega
    simp only [List.range'_zero, List.map_nil, findCell, this, if_false]
  | succ n ih =>
    simp only [List.range'_succ, List.map_cons, findCell, ih]
    by_cases h : start = k
    · subst h; simp
    · rw [if_neg h]
      refine if_congr ?_ rfl rfl
      omega

/-- After `fill`, entry `k` is the one given. -/
theorem Memory.get_fill (m : Memory w) {k n : Nat} (h : k < n) (f : Nat → BitVec w) : (m.fill n f).get k = f k := by
  simp [Memory.get, Memory.fill, List.range_eq_range', findCell_map_range', h]

@[simp] theorem Memory.write_epoch (m : Memory w) (k : Nat) (l : List (BitVec w)) : (m.write k l).epoch = m.epoch := by
  induction l generalizing m k with
  | nil => rfl
  | cons v rest ih => simp [Memory.write, ih]

/-- An index below the written range reads as before. -/
theorem Memory.get_write_below (m : Memory w) {j k : Nat} (h : j < k) (l : List (BitVec w)) :
    (m.write k l).get j = m.get j := by
  induction l generalizing m k with
  | nil => rfl
  | cons v rest ih => rw [Memory.write, ih _ (by omega), m.get_set_other (by omega)]

/-- An index above the written range reads as before. -/
theorem Memory.get_write_above (m : Memory w) {j k : Nat} (l : List (BitVec w)) (h : k + l.length ≤ j) :
    (m.write k l).get j = m.get j := by
  induction l generalizing m k with
  | nil => rfl
  | cons v rest ih =>
    simp only [List.length_cons] at h
    rw [Memory.write, ih _ (by omega), m.get_set_other (by omega)]

/-- What `write` stores is what `read` then gives. -/
theorem Memory.read_write (m : Memory w) (k : Nat) (l : List (BitVec w)) : (m.write k l).read k l.length = l := by
  induction l generalizing m k with
  | nil => rfl
  | cons v rest ih =>
    simp only [List.length_cons, Memory.read, Memory.write]
    rw [ih, Memory.get_write_below _ (by omega), Memory.get_set_same]

@[simp] theorem Memory.length_read (m : Memory w) (k n : Nat) : (m.read k n).length = n := by
  induction n generalizing k with
  | zero => rfl
  | succ n ih => simp [Memory.read, ih]

/-- `read` lists the bytes in order. -/
theorem Memory.getElem_read (m : Memory w) (k n i : Nat) (h : i < (m.read k n).length) : (m.read k n)[i] = m.get (k + i) := by
  induction n generalizing k i with
  | zero => simp [Memory.read] at h
  | succ n ih =>
    cases i with
    | zero => simp [Memory.read]
    | succ i => simp only [Memory.read, List.getElem_cons_succ, ih]; congr 1; omega

/-! ## The canonical form -/

theorem mem_insertCell {k : Nat} {v : BitVec w} {l : List (Nat × BitVec w)} {c : Nat × BitVec w}
    (h : c ∈ insertCell k v l) : c = (k, v) ∨ c ∈ l := by
  induction l with
  | nil => simpa [insertCell] using h
  | cons d rest ih =>
    obtain ⟨a, x⟩ := d
    unfold insertCell at h
    split_ifs at h with h1 h2
    · simpa using h
    · rcases List.mem_cons.mp h with h | h
      · exact .inl h
      · exact .inr (List.mem_cons_of_mem _ h)
    · rcases List.mem_cons.mp h with h | h
      · exact .inr (h ▸ List.mem_cons_self)
      · exact (ih h).imp_right (List.mem_cons_of_mem _)

theorem pairwise_insertCell (k : Nat) (v : BitVec w) (l : List (Nat × BitVec w))
    (h : l.Pairwise fun a b => a.1 < b.1) : (insertCell k v l).Pairwise fun a b => a.1 < b.1 := by
  induction l with
  | nil => simp [insertCell]
  | cons d rest ih =>
    obtain ⟨a, x⟩ := d
    have hr := List.pairwise_cons.mp h
    unfold insertCell
    split_ifs with h1 h2
    · refine List.pairwise_cons.mpr ⟨fun c hc => ?_, h⟩
      rcases List.mem_cons.mp hc with rfl | hc
      · exact h1
      · exact lt_trans h1 (hr.1 c hc)
    · subst h2; exact List.pairwise_cons.mpr ⟨hr.1, hr.2⟩
    · refine List.pairwise_cons.mpr ⟨fun c hc => ?_, ih hr.2⟩
      rcases mem_insertCell hc with rfl | hc
      · simp only; omega
      · exact hr.1 c hc

theorem Memory.wf_set {m : Memory w} {k n : Nat} (h : m.wf n) (hk : k < n) (v : BitVec w) : (m.set k v).wf n := by
  refine ⟨pairwise_insertCell k v _ h.1, fun c hc => ?_⟩
  rcases mem_insertCell hc with rfl | hc
  · exact hk
  · exact h.2 c hc

theorem Memory.wf_unspecified (d n : Nat) : (Memory.unspecified d : Memory w).wf n := by
  simp [Memory.wf, Memory.unspecified]

theorem Memory.wf_fill (m : Memory w) (n : Nat) (f : Nat → BitVec w) : (m.fill n f).wf n := by
  refine ⟨?_, ?_⟩
  · simp only [Memory.fill, List.pairwise_map]
    exact List.pairwise_lt_range
  · intro c hc
    simp only [Memory.fill, List.mem_map, List.mem_range] at hc
    obtain ⟨i, hi, rfl⟩ := hc
    exact hi

theorem Memory.wf_write {m : Memory w} {k n : Nat} (h : m.wf n) (l : List (BitVec w)) (hk : k + l.length ≤ n) :
    (m.write k l).wf n := by
  induction l generalizing m k with
  | nil => exact h
  | cons v rest ih =>
    simp only [List.length_cons] at hk
    exact ih (Memory.wf_set h (by omega) v) (by omega)

/-- The memories right after reset have the canonical form, whatever their size. -/
theorem reset_memories_wf (n : Nat) :
    State.reset.pixbuf.wf n ∧ State.reset.outbuf.wf n ∧ State.reset.resbuf.wf n ∧ State.reset.memA.wf n ∧
      State.reset.memB.wf n := by
  simp [Memory.wf, State.reset]

end Sys2Proof.Machine
end

