-- ==== Sys2Proof/Laws/Bus.lean ====
section
/-! SUPPORT. What a transaction reaches: the access lemmas of the address map (10_state R31, 20_memory R84), one for each kind of target. -/

namespace Sys2Proof.Machine

/-- A register is reached at its offset, unless a write finds it read-only or comes with a partial strobe (R31, R84). -/
theorem access_reg (cap : Nat) (we : Bool) (r : Reg) (v : Word) (strb : BitVec 4) :
    access cap ⟨we, BitVec.ofNat 22 r.offset, v, strb⟩ =
      if we && r.readOnly then .error .readOnly
      else if we && strb != 0xF then .error .partialStrobe
      else .ok (.reg r) := by
  cases r <;> simp [access, targetAt, Reg.all, Reg.offset, Target.readOnly, Reg.readOnly, Target.isReg]

/-- The word of A at an aligned offset within the memory (R31). -/
theorem access_memA {cap k : Nat} (hcap : cap ≤ 1048576) (hk : k < cap) (h4 : k % 4 = 0) (we : Bool) (v : Word)
    (strb : BitVec 4) : access cap ⟨we, BitVec.ofNat 22 (0x100000 + k), v, strb⟩ = .ok (.memA k) := by
  have e : (BitVec.ofNat 22 (0x100000 + k)).toNat = 0x100000 + k := by
    rw [BitVec.toNat_ofNat]; exact Nat.mod_eq_of_lt (by omega)
  have ht : targetAt cap (0x100000 + k) = some (.memA k) := by
    unfold targetAt
    split_ifs <;> first | omega | simp
  have h0 : ¬ (0x100000 + k) % 4 ≠ 0 := by omega
  simp only [access, e, ht, if_neg h0]
  simp [Target.readOnly, Target.isReg]

/-- The word of B at an aligned offset within the memory (R31). -/
theorem access_memB {cap k : Nat} (hcap : cap ≤ 1048576) (hk : k < cap) (h4 : k % 4 = 0) (we : Bool) (v : Word)
    (strb : BitVec 4) : access cap ⟨we, BitVec.ofNat 22 (0x200000 + k), v, strb⟩ = .ok (.memB k) := by
  have e : (BitVec.ofNat 22 (0x200000 + k)).toNat = 0x200000 + k := by
    rw [BitVec.toNat_ofNat]; exact Nat.mod_eq_of_lt (by omega)
  have ht : targetAt cap (0x200000 + k) = some (.memB k) := by
    unfold targetAt
    split_ifs <;> first | omega | simp
  have h0 : ¬ (0x200000 + k) % 4 ≠ 0 := by omega
  simp only [access, e, ht, if_neg h0]
  simp [Target.readOnly, Target.isReg]

/-- PIXBUF[i] (R31, R60). -/
theorem access_pixbuf (cap : Nat) {i : Nat} (hi : i < 64) (we : Bool) (v : Word) (strb : BitVec 4) :
    access cap ⟨we, BitVec.ofNat 22 (0x400 + 4 * i), v, strb⟩ = .ok (.pixbuf i) := by
  have e : (BitVec.ofNat 22 (0x400 + 4 * i)).toNat = 0x400 + 4 * i := by
    rw [BitVec.toNat_ofNat]; exact Nat.mod_eq_of_lt (by omega)
  have ht : targetAt cap (0x400 + 4 * i) = some (.pixbuf i) := by
    unfold targetAt
    split_ifs <;> first | omega | simp
  have h0 : ¬ (0x400 + 4 * i) % 4 ≠ 0 := by omega
  simp only [access, e, ht, if_neg h0]
  simp [Target.readOnly, Target.isReg]

/-- An accepted transaction is a bus write or a bus read of what it reaches (R81). -/
theorem transact_of_access {t : Transaction} {s : State} {x : Target} (h : access s.cap t = .ok x) :
    transact t s = if t.we then busWrite t.wdata t.wstrb s x else busRead s x := by
  simp [transact, h]

/-- A read of a register, whatever else is on the bus, is a bus read of it (R83, R84). -/
theorem transact_readReg (s : State) (r : Reg) (v : Word) (strb : BitVec 4) :
    transact ⟨false, BitVec.ofNat 22 r.offset, v, strb⟩ s = busRead s (.reg r) := by
  rw [transact_of_access (x := .reg r) (by rw [access_reg]; simp)]
  rfl

/-- A write of a register that is not read-only, with all strobes on, is a bus write of it (R84). -/
theorem transact_writeReg (s : State) {r : Reg} (hr : r.readOnly = false) (v : Word) :
    transact ⟨true, BitVec.ofNat 22 r.offset, v, 0xF⟩ s = busWrite v 0xF s (.reg r) := by
  rw [transact_of_access (x := .reg r) (by rw [access_reg, hr]; simp)]
  rfl

/-- OUTBUF[i] and RESBUF[i] are reached by reads alone (R31, R61, R62, R84). -/
theorem access_outbuf (cap : Nat) {i : Nat} (hi : i < 64) (we : Bool) (v : Word) (strb : BitVec 4) :
    access cap ⟨we, BitVec.ofNat 22 (0x500 + 4 * i), v, strb⟩ = if we then .error .readOnly else .ok (.outbuf i) := by
  have e : (BitVec.ofNat 22 (0x500 + 4 * i)).toNat = 0x500 + 4 * i := by
    rw [BitVec.toNat_ofNat]; exact Nat.mod_eq_of_lt (by omega)
  have ht : targetAt cap (0x500 + 4 * i) = some (.outbuf i) := by
    unfold targetAt
    split_ifs <;> first | omega | simp
  have h0 : ¬ (0x500 + 4 * i) % 4 ≠ 0 := by omega
  simp only [access, e, ht, if_neg h0]
  cases we <;> simp [Target.readOnly, Target.isReg]

theorem access_resbuf (cap : Nat) {i : Nat} (hi : i < 64) (we : Bool) (v : Word) (strb : BitVec 4) :
    access cap ⟨we, BitVec.ofNat 22 (0x600 + 4 * i), v, strb⟩ = if we then .error .readOnly else .ok (.resbuf i) := by
  have e : (BitVec.ofNat 22 (0x600 + 4 * i)).toNat = 0x600 + 4 * i := by
    rw [BitVec.toNat_ofNat]; exact Nat.mod_eq_of_lt (by omega)
  have ht : targetAt cap (0x600 + 4 * i) = some (.resbuf i) := by
    unfold targetAt
    split_ifs <;> first | omega | simp
  have h0 : ¬ (0x600 + 4 * i) % 4 ≠ 0 := by omega
  simp only [access, e, ht, if_neg h0]
  cases we <;> simp [Target.readOnly, Target.isReg]

/-- Where an accepted target lies: an index of a buffer is below 64, a word of A or B lies wholly within the memory (R31, R84). -/
theorem target_in_range {cap : Nat} {t : Transaction} {x : Target} (h : access cap t = .ok x) (h4 : cap % 4 = 0) :
    match x with
    | .reg _ => True
    | .pixbuf i => i < 64
    | .outbuf i => i < 64 ∧ t.we = false
    | .resbuf i => i < 64 ∧ t.we = false
    | .memA k => k + 3 < cap
    | .memB k => k + 3 < cap := by
  unfold access at h
  split at h
  · cases h
  next h0 =>
  split at h
  · cases h
  next y hy =>
  have hyx : y = x ∧ (t.we && y.readOnly) = false := by
    split at h
    · cases h
    next hro =>
    split at h
    · cases h
    · cases h; exact ⟨rfl, by simpa using hro⟩
  obtain ⟨rfl, hro⟩ := hyx
  unfold targetAt at hy
  split_ifs at hy <;> simp only [Option.map_eq_some_iff, Option.some.injEq] at hy
  · obtain ⟨r, -, rfl⟩ := hy; trivial
  all_goals subst hy
  · show _ < 64; omega
  · exact ⟨by omega, by simpa [Target.readOnly] using hro⟩
  · exact ⟨by omega, by simpa [Target.readOnly] using hro⟩
  · show _ < cap; omega
  · show _ < cap; omega

end Sys2Proof.Machine
end

