-- ==== Sys2Proof/Laws/Ops.lean ====
section
/-! SUPPORT. What the shared operations that end a command can answer (60_exceptions R289, R290), once for each. -/

namespace Sys2Proof.Machine

@[simp] theorem settle_ok (s t : State) : settle s (.ok t) = .next (complete t) := rfl

@[simp] theorem settle_error (s : State) (e : CmdError) : settle s (.error e) = .next (raiseError e.code e.pos s) := rfl

@[simp] theorem errorExit_eq (c : ErrCode) (p : Nat) (s : State) : errorExit c p s = .next (raiseError c p s) := rfl

/-- All that the end of a precise command can be: the completion of its result, or its error recorded over the starting state. -/
theorem settle_next_iff {s t : State} {r : Except CmdError State} :
    settle s r = .next t ↔ (∃ u, r = .ok u ∧ t = complete u) ∨ ∃ e, r = .error e ∧ t = raiseError e.code e.pos s := by
  cases r <;> simp [eq_comm]

/-- A precise command never stops. -/
theorem settle_ran (s : State) (r : Except CmdError State) : ∃ t, settle s r = .next t := by
  cases r <;> exact ⟨_, rfl⟩

/-- The check of A_LEN either lets the command go on or stops it. -/
theorem needStream_cases (s : State) (go : Host.Outcome State Fault Refusal) :
    (s.aLen.toNat ≤ s.cap ∧ needStream s go = go) ∨ (s.cap < s.aLen.toNat ∧ needStream s go = .fault .beyondMemory) := by
  unfold needStream
  split
  · exact .inl ⟨‹_›, rfl⟩
  · exact .inr ⟨by omega, rfl⟩

theorem needStream_of_le {s : State} (h : s.aLen.toNat ≤ s.cap) (go : Host.Outcome State Fault Refusal) :
    needStream s go = go := if_pos h

theorem needStream_next_iff {s t : State} {go : Host.Outcome State Fault Refusal} :
    needStream s go = .next t ↔ s.aLen.toNat ≤ s.cap ∧ go = .next t := by
  rcases needStream_cases s go with ⟨h, e⟩ | ⟨h, e⟩
  · simp [e, h]
  · simp [e]; omega

/-- The check of B_LEN either lets the command go on or stops it. -/
theorem needChunks_cases (s : State) (go : Host.Outcome State Fault Refusal) :
    (s.bLen.toNat ≤ s.cap ∧ needChunks s go = go) ∨ (s.cap < s.bLen.toNat ∧ needChunks s go = .fault .beyondMemory) := by
  unfold needChunks
  split
  · exact .inl ⟨‹_›, rfl⟩
  · exact .inr ⟨by omega, rfl⟩

theorem needChunks_of_le {s : State} (h : s.bLen.toNat ≤ s.cap) (go : Host.Outcome State Fault Refusal) :
    needChunks s go = go := if_pos h

theorem needChunks_next_iff {s t : State} {go : Host.Outcome State Fault Refusal} :
    needChunks s go = .next t ↔ s.bLen.toNat ≤ s.cap ∧ go = .next t := by
  rcases needChunks_cases s go with ⟨h, e⟩ | ⟨h, e⟩
  · simp [e, h]
  · simp [e]; omega

end Sys2Proof.Machine
end

