-- ==== Sys2Proof/Laws/PerInstr.lean ====
section
/-! SUPPORT. A fact about every command as syntax, one lemma a constructor: its command word lies in its row of the match and mask table
(30_encoding R115), and the two rows that take a CNT are the only ones with a mask that is not all ones. -/

namespace Sys2Proof.Laws.MatchesTable

/-- The word of a well-formed command matches the row of R115 that bears its name, and CNT is all that the row leaves free. -/
def Statement (i : Instr) : Prop :=
  i.wellFormed = true →
    ∃ r ∈ opcodeRows, r.mnemonic = i.mnemonic ∧ r.accepts (encode i) = true ∧
      encode i = r.pattern ||| (BitVec.ofNat 32 i.count <<< 8)

theorem nop : Statement .nop := fun _ => ⟨_, .head _, rfl, by decide, by decide⟩
theorem ctFwd : Statement .ctFwd := fun _ => ⟨⟨"CT_FWD", 0x00000001, 0xFFFFFFFF⟩, by decide, rfl, by decide, by decide⟩
theorem ctInv : Statement .ctInv := fun _ => ⟨⟨"CT_INV", 0x00000002, 0xFFFFFFFF⟩, by decide, rfl, by decide, by decide⟩
theorem bqEncode : Statement .bqEncode := fun _ => ⟨⟨"BQ_ENCODE", 0x00000010, 0xFFFFFFFF⟩, by decide, rfl, by decide, by decide⟩
theorem bqDecode : Statement .bqDecode := fun _ => ⟨⟨"BQ_DECODE", 0x00000011, 0xFFFFFFFF⟩, by decide, rfl, by decide, by decide⟩
theorem bqSerialize : Statement .bqSerialize :=
  fun _ => ⟨⟨"BQ_SERIALIZE", 0x00000012, 0xFFFFFFFF⟩, by decide, rfl, by decide, by decide⟩
theorem bqDeserialize : Statement .bqDeserialize :=
  fun _ => ⟨⟨"BQ_DESERIALIZE", 0x00000013, 0xFFFFFFFF⟩, by decide, rfl, by decide, by decide⟩

theorem bpWrite (cnt : Nat) : Statement (.bpWrite cnt) := by
  intro h
  have hc : cnt < 64 := by simpa [Instr.wellFormed, cntFits] using h
  refine ⟨⟨"BP_WRITE", 0x00000020, 0xFFFFC0FF⟩, by decide, rfl, ?_⟩
  clear h
  revert cnt
  decide

theorem bpClear : Statement .bpClear := fun _ => ⟨⟨"BP_CLEAR", 0x00000021, 0xFFFFFFFF⟩, by decide, rfl, by decide, by decide⟩

theorem buRead (cnt : Nat) : Statement (.buRead cnt) := by
  intro h
  have hc : cnt < 64 := by simpa [Instr.wellFormed, cntFits] using h
  refine ⟨⟨"BU_READ", 0x00000022, 0xFFFFC0FF⟩, by decide, rfl, ?_⟩
  clear h
  revert cnt
  decide

theorem rleEnc : Statement .rleEnc := fun _ => ⟨⟨"RLE_ENC", 0x00000030, 0xFFFFFFFF⟩, by decide, rfl, by decide, by decide⟩
theorem rleDec : Statement .rleDec := fun _ => ⟨⟨"RLE_DEC", 0x00000031, 0xFFFFFFFF⟩, by decide, rfl, by decide, by decide⟩

end Sys2Proof.Laws.MatchesTable
end

