-- ==== Sys2Proof/Laws/RunLength.lean ====
section
/-! SUPPORT. What the loops of 43_run_length can answer: the bounds of a run, and the bounds and the errors of the decoder. -/

namespace Sys2Proof.Machine

theorem runLength_le_limit (v : Byte) (limit : Nat) (l : List Byte) : runLength v limit l ≤ limit := by
  induction limit generalizing l with
  | zero => simp [runLength]
  | succ n ih =>
    cases l with
    | nil => simp [runLength]
    | cons a rest =>
      unfold runLength
      split
      · have := ih rest; omega
      · omega

/-- A run is a prefix of equal bytes. -/
theorem take_runLength (v : Byte) (limit : Nat) (l : List Byte) :
    l.take (runLength v limit l) = List.replicate (runLength v limit l) v := by
  induction limit generalizing l with
  | zero => simp [runLength]
  | succ n ih =>
    cases l with
    | nil => simp [runLength]
    | cons a rest =>
      unfold runLength
      split
      · next h => simp [ih rest, List.replicate_succ, h]
      · simp

@[simp] theorem literalChunk_nil : literalChunk [] = [] := rfl

theorem literalChunk_of_ne_nil {l : List Byte} (h : l ≠ []) : literalChunk l = 0x00 :: BitVec.ofNat 8 l.length :: l := by
  cases l with
  | nil => exact absurd rfl h
  | cons a rest => rfl

/-- All that one turn of the decoder's loop can answer (R251): the end of the input, an error at this chunk, or a chunk's bytes and then
the rest. -/
theorem rleDecodeFrom_cases (cap fuel p o : Nat) (b : List Byte) :
    rleDecodeFrom cap (fuel + 1) p o b = .ok [] ∨
    (∃ code, (code = .format ∨ code = .capacity) ∧ rleDecodeFrom cap (fuel + 1) p o b = .error ⟨code, p⟩) ∨
    ∃ (l : List Byte) (q : Nat) (rest : List Byte), o + l.length ≤ cap ∧
      rleDecodeFrom cap (fuel + 1) p o b = (rleDecodeFrom cap fuel q (o + l.length) rest).map (l ++ ·) := by
  rcases b with _ | ⟨t, _ | ⟨len, body⟩⟩
  · exact .inl rfl
  · refine .inr (.inl ⟨.format, .inl rfl, ?_⟩)
    simp [rleDecodeFrom]
  · have e (code : ErrCode) (h : code = .format ∨ code = .capacity) {r : Except CmdError (List Byte)}
        (hr : r = .error ⟨code, p⟩) : ∃ code, (code = .format ∨ code = .capacity) ∧ r = .error ⟨code, p⟩ := ⟨code, h, hr⟩
    simp only [rleDecodeFrom]
    split
    · exact .inr (.inl (e .format (.inl rfl) rfl))
    split
    · split
      · exact .inr (.inl (e .format (.inl rfl) rfl))
      rcases body with _ | ⟨v, more⟩
      · exact .inr (.inl (e .format (.inl rfl) rfl))
      dsimp only
      split
      · exact .inr (.inl (e .capacity (.inr rfl) rfl))
      · next hc =>
        refine .inr (.inr ⟨List.replicate len.toNat v, p + 3, more, ?_, ?_⟩) <;> rw [List.length_replicate]
        omega
    · split
      · exact .inr (.inl (e .format (.inl rfl) rfl))
      split
      · exact .inr (.inl (e .format (.inl rfl) rfl))
      split
      · exact .inr (.inl (e .capacity (.inr rfl) rfl))
      · next hl hc =>
        have ht : (body.take len.toNat).length = len.toNat := by rw [List.length_take]; omega
        refine .inr (.inr ⟨body.take len.toNat, p + 2 + len.toNat, body.drop len.toNat, ?_, ?_⟩) <;> rw [ht]
        omega

/-- The decoder's output fits the memory it is for, and its errors are FORMAT and CAPACITY (R251). -/
theorem rleDecodeFrom_result {cap : Nat} (fuel : Nat) {p o : Nat} {b : List Byte} (ho : o ≤ cap) :
    (∃ out, rleDecodeFrom cap fuel p o b = .ok out ∧ o + out.length ≤ cap) ∨
    ∃ e, rleDecodeFrom cap fuel p o b = .error e ∧ (e.code = .format ∨ e.code = .capacity) := by
  induction fuel generalizing p o b with
  | zero => exact .inl ⟨[], rfl, by simpa using ho⟩
  | succ n ih =>
    rcases rleDecodeFrom_cases cap n p o b with h | ⟨code, hc, h⟩ | ⟨l, q, rest, hl, h⟩
    · exact .inl ⟨[], h, by simpa using ho⟩
    · exact .inr ⟨_, h, hc⟩
    · rcases ih (p := q) (b := rest) hl with ⟨out, e, hout⟩ | ⟨err, e, hc⟩
      · refine .inl ⟨l ++ out, by rw [h, e]; rfl, ?_⟩
        rw [List.length_append]
        omega
      · exact .inr ⟨err, by rw [h, e]; rfl, hc⟩

end Sys2Proof.Machine
end

