-- ==== Sys2Proof/Laws/Stream.lean ====
section
/-! SUPPORT. What the stream primitives do (42_bit_packer R201, R202, R207): which bits an append writes, how A_LEN, A_CUR and A_NBITS move,
and what a read of n bits returns. -/

namespace Sys2Proof.Machine

theorem getLsbD_assignBit (x : Byte) {i : Nat} (hi : i < 8) (b : Bool) (j : Nat) :
    (assignBit x i b).getLsbD j = if j = i then b else x.getLsbD j := by
  unfold assignBit
  by_cases hj : j < 8
  · by_cases h : j = i
    · subst h; cases b <;> simp [hj]
    · have h2 : j < i ∨ j - i ≠ 0 := by omega
      cases b <;> simp [h, hj] <;> intro <;> omega
  · have h1 : j ≠ i := by omega
    have h2 : ∀ y : Byte, y.getLsbD j = false := fun y => BitVec.getLsbD_of_ge _ _ (by omega)
    simp [h1, h2]

/-- One turn of the append loop: bit `k` is assigned, the rest of a byte that it opens is 0, every other bit stays. -/
theorem streamBit_putBit (k : Nat) (b : Bool) (m : Memory 8) (j : Nat) :
    streamBit (putBit k b m) j =
      if j = k then b else if k % 8 = 0 ∧ j / 8 = k / 8 then false else streamBit m j := by
  have hk : k % 8 < 8 := Nat.mod_lt _ (by decide)
  unfold putBit streamBit
  by_cases hbyte : j / 8 = k / 8
  · rw [hbyte, Memory.get_set_same, getLsbD_assignBit _ hk]
    by_cases hbit : j % 8 = k % 8
    · have : j = k := by omega
      simp [this]
    · have : j ≠ k := by omega
      by_cases h0 : k % 8 = 0
      · simp [this, h0]; omega
      · simp [this, h0, hbit]
  · have : j ≠ k := by rintro rfl; exact hbyte rfl
    rw [Memory.get_set_other _ hbyte]
    by_cases h0 : k % 8 = 0
    · simp [this, h0, hbyte, Memory.get_set_other _ hbyte]
    · simp [this, h0]

/-- A byte that the append loop does not reach reads as before. -/
theorem get_putBit_other (k : Nat) (b : Bool) (m : Memory 8) {a : Nat} (h : a ≠ k / 8) : (putBit k b m).get a = m.get a := by
  unfold putBit
  rw [Memory.get_set_other _ h]
  split
  · exact m.get_set_other h 0
  · rfl

@[simp] theorem putBit_epoch (k : Nat) (b : Bool) (m : Memory 8) : (putBit k b m).epoch = m.epoch := by
  unfold putBit; split <;> simp

@[simp] theorem putBits_epoch (start v n : Nat) (m : Memory 8) : (putBits start v n m).epoch = m.epoch := by
  induction n with
  | zero => rfl
  | succ n ih => simp [putBits, ih]

/-- The append loop, bit by bit: below `start` nothing changes, then come the bits of `v`, and above them the bytes it opened are 0
(R202, R205). -/
theorem streamBit_putBits (start v n : Nat) (m : Memory 8) (j : Nat) :
    streamBit (putBits start v n m) j =
      if j < start then streamBit m j
      else if j < start + n then v.testBit (j - start)
      else if start ≤ 8 * (j / 8) ∧ 8 * (j / 8) < start + n then false
      else streamBit m j := by
  induction n with
  | zero => simp only [putBits]; split_ifs <;> first | rfl | omega
  | succ n ih =>
    rw [putBits, streamBit_putBit, ih]
    by_cases h1 : j = start + n
    · subst h1
      have : ¬ start + n < start := by omega
      simp [this]
    · rw [if_neg h1]
      by_cases h2 : (start + n) % 8 = 0 ∧ j / 8 = (start + n) / 8
      · rw [if_pos h2]
        have : ¬ j < start := by omega
        have : ¬ j < start + (n + 1) := by omega
        have : start ≤ 8 * (j / 8) ∧ 8 * (j / 8) < start + (n + 1) := by omega
        simp_all
      · rw [if_neg h2]
        split_ifs <;> first | rfl | (exfalso; omega)

/-- A byte wholly before the appended bits reads as before. -/
theorem get_putBits_below (start v n : Nat) (m : Memory 8) {a : Nat} (h : a < start / 8) :
    (putBits start v n m).get a = m.get a := by
  induction n with
  | zero => rfl
  | succ n ih => rw [putBits, get_putBit_other _ _ _ (by omega), ih]

/-- A byte after the last appended bit reads as before. -/
theorem get_putBits_above (start v n : Nat) (m : Memory 8) {a : Nat} (h : (start + n + 7) / 8 ≤ a) :
    (putBits start v n m).get a = m.get a := by
  induction n with
  | zero => rfl
  | succ n ih => rw [putBits, get_putBit_other _ _ _ (by omega), ih (by omega)]

theorem wf_putBit {m : Memory 8} {n : Nat} (h : m.wf n) (k : Nat) (b : Bool) (hk : k / 8 < n) : (putBit k b m).wf n := by
  unfold putBit
  refine Memory.wf_set ?_ hk _
  split
  · exact Memory.wf_set h hk _
  · exact h

theorem wf_putBits {m : Memory 8} {cap : Nat} (h : m.wf cap) (start v n : Nat) (hn : start + n ≤ 8 * cap) :
    (putBits start v n m).wf cap := by
  induction n with
  | zero => exact h
  | succ n ih => exact wf_putBit (ih (by omega)) _ _ (by omega)

/-- A_LEN counts whole bytes: it goes from covering `start` bits to covering `start + n`. -/
theorem toNat_lenAfter (start n : Nat) (len : BitVec 21) (hlen : len.toNat = (start + 7) / 8)
    (hfit : start + n ≤ 2 ^ 23) : (lenAfter start n len).toNat = (start + n + 7) / 8 := by
  induction n with
  | zero => simpa [lenAfter] using hlen
  | succ n ih =>
    unfold lenAfter
    split_ifs with h
    · rw [BitVec.toNat_ofNat, Nat.mod_eq_of_lt (by omega)]; omega
    · rw [ih (by omega)]; omega

/-! ## The stream's length -/

/-- A_CUR ≠ 0 implies A_LEN ≥ 1 (R64): then A_LEN and A_CUR are the quotient and the remainder of A_NBITS. -/
theorem aLen_eq_of_cursor {s : State} (h : s.aCur ≠ 0 → 1 ≤ s.aLen.toNat) : s.aLen.toNat = (nbits s + 7) / 8 := by
  unfold nbits
  split_ifs with hc
  · omega
  · have := h hc
    have h1 : s.aCur.toNat < 8 := s.aCur.isLt
    have h2 : s.aCur.toNat ≠ 0 := fun e => hc (BitVec.eq_of_toNat_eq (by simpa using e))
    omega

theorem aCur_eq_of_cursor (s : State) : s.aCur.toNat = nbits s % 8 := by
  unfold nbits
  have h1 : s.aCur.toNat < 8 := s.aCur.isLt
  split_ifs with hc
  · simp [hc]
  · omega

/-- A_NBITS is computed from A_LEN and A_CUR alone (R65). -/
theorem nbits_of_len_cur {s : State} {N : Nat} (hlen : s.aLen.toNat = (N + 7) / 8) (hcur : s.aCur.toNat = N % 8) :
    nbits s = N := by
  unfold nbits
  split_ifs with hc
  · have : s.aCur.toNat = 0 := by simp [hc]
    omega
  · have h2 : s.aCur.toNat ≠ 0 := fun e => hc (BitVec.eq_of_toNat_eq (by simpa using e))
    omega

/-- After an append of `n` bits the stream is `n` bits longer (R202). -/
theorem nbits_appendBits (v n : Nat) (s : State) (h : s.aCur ≠ 0 → 1 ≤ s.aLen.toNat) (hfit : nbits s + n ≤ 2 ^ 23) :
    nbits (appendBits v n s) = nbits s + n := by
  refine nbits_of_len_cur ?_ ?_
  · simpa using toNat_lenAfter (nbits s) n s.aLen (aLen_eq_of_cursor h) hfit
  · simp [BitVec.toNat_ofNat]

/-- After an append the cursor invariant of R64 still holds. -/
theorem cursor_appendBits (v n : Nat) (s : State) (h : s.aCur ≠ 0 → 1 ≤ s.aLen.toNat) (hfit : nbits s + n ≤ 2 ^ 23) :
    (appendBits v n s).aCur ≠ 0 → 1 ≤ (appendBits v n s).aLen.toNat := by
  intro hc
  have h1 : (appendBits v n s).aLen.toNat = (nbits s + n + 7) / 8 := by
    simpa using toNat_lenAfter (nbits s) n s.aLen (aLen_eq_of_cursor h) hfit
  have h2 : (appendBits v n s).aCur.toNat = (nbits s + n) % 8 := by simp [BitVec.toNat_ofNat]
  have h3 : (appendBits v n s).aCur.toNat ≠ 0 := fun e => hc (BitVec.eq_of_toNat_eq (by simpa using e))
  omega

/-! ## Reading -/

theorem readBits_lt (m : Memory 8) (pos n : Nat) : readBits m pos n < 2 ^ n := by
  induction n with
  | zero => simp [readBits]
  | succ n ih => simp only [readBits, pow_succ]; split <;> omega

/-- Bit `j` of a read field is stream bit `pos + j` (R207). -/
theorem testBit_readBits (m : Memory 8) (pos n j : Nat) :
    (readBits m pos n).testBit j = (decide (j < n) && streamBit m (pos + j)) := by
  induction n with
  | zero => simp [readBits]
  | succ n ih =>
    have hlt := readBits_lt m pos n
    simp only [readBits]
    split_ifs with hb
    · rw [Nat.add_comm]
      rcases Nat.lt_trichotomy j n with h | rfl | h
      · rw [Nat.testBit_two_pow_add_gt h, ih]
        simp [h, Nat.lt_succ_of_lt h]
      · rw [Nat.testBit_two_pow_add_eq, ih]
        simp [hb]
      · rw [Nat.testBit_lt_two_pow (lt_of_lt_of_le (b := 2 ^ (n + 1)) (by rw [pow_succ]; omega)
          (Nat.pow_le_pow_right (by decide) h))]
        have : ¬ j < n + 1 := by omega
        simp [this]
    · rw [Nat.add_zero, ih]
      by_cases h : j = n
      · subst h; simp [Bool.eq_false_iff.mpr hb]
      · have : (j < n + 1) = (j < n) := by apply propext; omega
        simp [this]

end Sys2Proof.Machine
end

