-- ==== Sys2Proof/Laws/Serializer.lean ====
section
/-! SUPPORT. What the field operations of 42_bit_packer do: an append of one field or of several, and the reader of BQ_DESERIALIZE. -/

namespace Sys2Proof.Machine

@[simp] theorem nbits_noteOverflow (v n : Nat) (s : State) : nbits (noteOverflow v n s) = nbits s := rfl

@[simp] theorem cap_noteOverflow (v n : Nat) (s : State) : (noteOverflow v n s).cap = s.cap := rfl

@[simp] theorem cap_appendBits (v n : Nat) (s : State) : (appendBits v n s).cap = s.cap := rfl

@[simp] theorem cap_appendField (v n : Nat) (s : State) : (appendField v n s).cap = s.cap := rfl

/-- All that an append of one field changes: A, A_LEN, A_CUR and FIELD_OVF (R202, R204). -/
theorem appendField_eq (v n : Nat) (s : State) :
    appendField v n s =
      { s with memA := putBits (nbits s) (v % 2 ^ n) n s.memA
               aLen := lenAfter (nbits s) n s.aLen
               aCur := BitVec.ofNat 3 ((nbits s + n) % 8)
               status := { s.status with fieldOvf := s.status.fieldOvf || overflows v n } } := rfl

/-- An append of several fields changes nothing but those four. -/
theorem appendFields_frame (fields : List (Nat × Nat)) (s : State) :
    ∃ (m : Memory 8) (len : BitVec 21) (cur : BitVec 3) (ovf : Bool),
      appendFields fields s =
        { s with memA := m, aLen := len, aCur := cur, status := { s.status with fieldOvf := ovf } } := by
  induction fields generalizing s with
  | nil => exact ⟨s.memA, s.aLen, s.aCur, s.status.fieldOvf, rfl⟩
  | cons f rest ih =>
    obtain ⟨m, len, cur, ovf, h⟩ := ih (appendField f.1 f.2 s)
    exact ⟨m, len, cur, ovf, h⟩

/-- A field is read where it lies within the valid bits, and underruns at its first bit elsewhere (R220). -/
theorem field_cases (s : State) (n pos : Nat) :
    (pos + n ≤ nbits s ∧ field s n pos = .ok (readBits s.memA pos n, pos + n)) ∨
    (nbits s < pos + n ∧ field s n pos = .error ⟨.underrun, pos⟩) := by
  unfold field
  split
  · exact .inr ⟨‹_›, rfl⟩
  · exact .inl ⟨by omega, rfl⟩

theorem field_of_le {s : State} {n pos : Nat} (h : pos + n ≤ nbits s) :
    field s n pos = .ok (readBits s.memA pos n, pos + n) := by
  unfold field
  rw [if_neg (by omega)]

/-- A checked field: read and accepted, read and rejected with FORMAT, or past the end, each error at its first bit (R220, R221). -/
theorem fieldWhere_cases (s : State) (n pos : Nat) (ok : Nat → Bool) :
    (pos + n ≤ nbits s ∧ ok (readBits s.memA pos n) = true ∧
      fieldWhere s n pos ok = .ok (readBits s.memA pos n, pos + n)) ∨
    (pos + n ≤ nbits s ∧ ok (readBits s.memA pos n) = false ∧ fieldWhere s n pos ok = .error ⟨.format, pos⟩) ∨
    (nbits s < pos + n ∧ fieldWhere s n pos ok = .error ⟨.underrun, pos⟩) := by
  unfold fieldWhere
  rcases field_cases s n pos with ⟨h, e⟩ | ⟨h, e⟩
  · rw [e]
    cases hk : ok (readBits s.memA pos n)
    · exact .inr (.inl ⟨h, rfl, by simp [hk]⟩)
    · exact .inl ⟨h, rfl, by simp [hk]⟩
  · rw [e]
    exact .inr (.inr ⟨h, rfl⟩)

/-- `k` fields that all lie within the valid bits. -/
theorem fieldList_of_le {s : State} {n k pos : Nat} (h : pos + k * n ≤ nbits s) :
    fieldList s n k pos = .ok ((List.range k).map fun j => readBits s.memA (pos + j * n) n, pos + k * n) := by
  induction k generalizing pos with
  | zero => simp [fieldList]
  | succ k ih =>
    have hk : (k + 1) * n = n + k * n := by ring
    rw [hk] at h
    unfold fieldList
    rw [field_of_le (by omega)]
    dsimp only
    rw [ih (by omega)]
    simp only [List.range_succ_eq_map, List.map_cons, List.map_map]
    congr 2
    · congr 1
      · simp
      · refine List.map_congr_left fun j _ => ?_
        simp only [Function.comp, Nat.succ_eq_add_one]
        congr 1
        ring
    · rw [hk]; omega

/-- The residuals underrun or are all there. -/
theorem fieldList_error {s : State} {n k pos : Nat} {e : CmdError} (h : fieldList s n k pos = .error e) :
    e.code = .underrun := by
  induction k generalizing pos with
  | zero => simp [fieldList] at h
  | succ k ih =>
    unfold fieldList at h
    rcases field_cases s n pos with ⟨_, e1⟩ | ⟨_, e1⟩
    · rw [e1] at h
      simp only at h
      split at h
      · next e2 => cases h; exact ih e2
      · cases h
    · rw [e1] at h
      cases h
      rfl

/-- The commit of a record reads back its residuals, 0 outside the footprint (R62). -/
theorem get_commitRecord (s : State) (q : BlockData) (res : Nat → Nat → Nat) {i : Nat} (hi : i < 64) :
    (commitRecord s q res).resbuf.get i =
      if inFootprint q.w q.h i then BitVec.ofNat 8 (res (i / 8) (i % 8)) else 0 :=
  Memory.get_fill _ hi _

end Sys2Proof.Machine
end

