-- ==== Sys2Proof/Machine/HostAsm.lean ====
section
/-! DEFINITION. The host assembly of 30_encoding R118 to R120: statements, pseudo-instructions and their encoding as host events. -/

namespace Sys2Proof.Machine

/-- The statements of R118. -/
inductive Asm where
  /-- `wr REG, v` -/
  | wr (r : Reg) (v : Word)
  /-- `wr @a, v` -/
  | wrAt (a : BusAddr) (v : Word)
  /-- `wrs @a, v, s` -/
  | wrs (a : BusAddr) (v : Word) (strb : BitVec 4)
  /-- `rd REG` -/
  | rd (r : Reg)
  /-- `rd @a` -/
  | rdAt (a : BusAddr)
  /-- `wait` -/
  | wait
  deriving DecidableEq, Repr

/-- The bus address of a register (R31). -/
def Reg.addr (r : Reg) : BusAddr := BitVec.ofNat 22 r.offset

/-- The transaction of a statement (R118); for `wait`, its last STATUS read, the one that sees BUSY = 0 (log 14). -/
def Asm.transaction : Asm → Transaction
  | .wr r v => ⟨true, r.addr, v, 0xF⟩
  | .wrAt a v => ⟨true, a, v, 0xF⟩
  | .wrs a v strb => ⟨true, a, v, strb⟩
  | .rd r => ⟨false, r.addr, 0, 0⟩
  | .rdAt a => ⟨false, a, 0, 0⟩
  | .wait => ⟨false, Reg.status.addr, 0, 0⟩

/-- A statement as a host event. A `wait` ends after the completion; of any other statement sent while a command runs, `early` says whether
it lands before the completion (R286, log 3, log 14). -/
def Asm.event (early : Bool) (a : Asm) : HostEvent :=
  { action := .transaction a.transaction
    early := match a with
      | .wait => false
      | .wr _ _ => early
      | .wrAt _ _ => early
      | .wrs _ _ _ => early
      | .rd _ => early
      | .rdAt _ => early }

/-- The pseudo-instructions of R119. -/
inductive Pseudo where
  | nop
  | ctFwd (v : Word)
  | ctInv (v : Word)
  | bqEncode
  | bqDecode
  | bqSer
  | bqDeser
  | bpWrite (v : Word) (n : Nat)
  | bpWriteb (v : Word)
  | bpClear
  | buRead (n : Nat)
  | rleEnc
  | rleDec
  | cfg (w h bs d c : Word)
  | at (x y : Word)
  deriving DecidableEq, Repr

/-- `wr CMD, <the command's word> ; wait`. -/
def runCommand (i : Instr) : List Asm := [.wr .cmd (encode i), .wait]

/-- The expansions of R119. -/
def Pseudo.expand : Pseudo → List Asm
  | .nop => runCommand .nop
  | .ctFwd v => .wr .arg0 v :: runCommand .ctFwd
  | .ctInv v => .wr .arg0 v :: runCommand .ctInv
  | .bqEncode => runCommand .bqEncode
  | .bqDecode => runCommand .bqDecode
  | .bqSer => runCommand .bqSerialize
  | .bqDeser => runCommand .bqDeserialize
  | .bpWrite v n => .wr .arg0 v :: runCommand (.bpWrite n)
  | .bpWriteb v => .wr .arg0 v :: runCommand (.bpWrite 8)
  | .bpClear => runCommand .bpClear
  | .buRead n => runCommand (.buRead n) ++ [.rd .result]
  | .rleEnc => runCommand .rleEnc
  | .rleDec => runCommand .rleDec
  | .cfg w h bs d c => [.wr .imgW w, .wr .imgH h, .wr .qcfg ((c <<< 16) ||| (d <<< 8) ||| bs)]
  | .at x y => [.wr .blkX x, .wr .blkY y]

/-- A program: its transactions in order, each after the completion of the command before it (R120, R336). -/
def assemble (p : List Asm) : List HostEvent := p.map (Asm.event false)

end Sys2Proof.Machine
end

