-- ==== Sys2Proof/Tests/Slice0.lean ====
section
/-! SUPPORT. The model's own tests: which terms are well formed, what each command word decodes to, at most two small tests an instruction with
the values of 95_test_vectors, and for every statement that has hypotheses a concrete case that meets them. -/

namespace Sys2Proof.Tests

open Sys2Proof Sys2Proof.Machine

-- One theorem at a time: a kernel evaluation in a thread of its own for each test would reserve too much memory.
set_option Elab.async false

/-! ## Small states -/

/-- The state of an answer, the reset state where there is none. -/
def stateOf : Host.Outcome State Fault Refusal → State
  | .next t => t
  | .fault _ => State.reset
  | .refused _ => State.reset

/-- The answer is a next state that passes `p`. -/
def holds (p : State → Bool) : Host.Outcome State Fault Refusal → Bool
  | .next t => p t
  | .fault _ => false
  | .refused _ => false

/-- A byte memory that starts with these bytes. -/
def bytesFrom (draw : Nat) (l : List Byte) : Memory 8 := (Memory.unspecified draw).write 0 l

/-- Reset with `P_MEM_BYTES = 256` ("cap 256" of 95_test_vectors). -/
def small : State := { State.reset with memCap := 256 }

/-- `small` with these bytes packed in A. -/
def packed (l : List Byte) (cur : BitVec 3) : State :=
  { small with memA := bytesFrom 3 l, aLen := BitVec.ofNat 21 l.length, aCur := cur }

/-- `small` with these bytes in B. -/
def chunked (l : List Byte) : State :=
  { small with memB := bytesFrom 4 l, bLen := BitVec.ofNat 21 l.length }

/-- `small` with A or B full of equal bytes. -/
def fullOf (n : Nat) (v : Byte) : Memory 8 := (Memory.unspecified 3).fill n fun _ => v

/-- Vector E1 of 95_test_vectors: a 2 by 2 image, block size 2, d = 2, c = 4. -/
def vectorE1 : State :=
  { small with imgW := 2, imgH := 2, qcfg := ⟨2, 2, 4⟩
               pixbuf := ⟨0, [(0, 0x0A0A0A), (1, 0x141414), (8, 0x282828), (9, 0xC86432)]⟩ }

/-- Vector E4: a 2 by 1 image of greys 100 and 104 with d = 2, c = 8: the residual 4 does not fit two bits (C5). -/
def vectorE4 : State :=
  { small with imgW := 2, imgH := 1, qcfg := ⟨2, 2, 8⟩, pixbuf := ⟨0, [(0, 0x646464), (1, 0x686868)]⟩ }

/-- Vector E2, on a 2 by 2 image: a flat block of grey 128. -/
def vectorE2 : State :=
  { small with imgW := 2, imgH := 2, qcfg := ⟨2, 4, 4⟩
               pixbuf := ⟨0, [(0, 0x808080), (1, 0x808080), (8, 0x808080), (9, 0x808080)]⟩ }

/-- E1, E4 with their record. -/
def recordE1 : State := stateOf (exec .bqEncode vectorE1)
def recordE4 : State := stateOf (exec .bqEncode vectorE4)

/-- The six bytes that R216 and R222 give for the block of E1. -/
def streamE1 : State :=
  { packed [0x04, 0x78, 0x02, 0x0A, 0x72, 0xC0] 0 with imgW := 2, imgH := 2, qcfg := ⟨2, 0, 0⟩ }

/-- A running command. -/
def running (i : Instr) (s : State) : State := issue (encode i) s

/-! ## WellFormed: each ill-formed term is refused -/

theorem test_bpWrite_64_is_ill_formed : (Instr.bpWrite 64).wellFormed = false := by decide
theorem test_buRead_64_is_ill_formed : (Instr.buRead 64).wellFormed = false := by decide
theorem test_bpWrite_63_is_well_formed : (Instr.bpWrite 63).wellFormed = true := by decide
theorem test_buRead_0_is_well_formed : (Instr.buRead 0).wellFormed = true := by decide

/-! ## Decode: every command's word, from R110 and R114 (OP in [7:0], CNT in [13:8], RSV in [31:14]) -/

theorem test_decode_nop : decode 0b00000000000000000000000000000000 = .ok .nop := by decide
theorem test_decode_ctFwd : decode 0b00000000000000000000000000000001 = .ok .ctFwd := by decide
theorem test_decode_ctInv : decode 0b00000000000000000000000000000010 = .ok .ctInv := by decide
theorem test_decode_bqEncode : decode 0b00000000000000000000000000010000 = .ok .bqEncode := by decide
theorem test_decode_bqDecode : decode 0b00000000000000000000000000010001 = .ok .bqDecode := by decide
theorem test_decode_bqSerialize : decode 0b00000000000000000000000000010010 = .ok .bqSerialize := by decide
theorem test_decode_bqDeserialize : decode 0b00000000000000000000000000010011 = .ok .bqDeserialize := by decide
theorem test_decode_bpWrite_5 : decode 0b00000000000000000000010100100000 = .ok (.bpWrite 5) := by decide
theorem test_decode_bpWrite_33 : decode 0b00000000000000000010000100100000 = .ok (.bpWrite 33) := by decide
theorem test_decode_bpClear : decode 0b00000000000000000000000000100001 = .ok .bpClear := by decide
theorem test_decode_buRead_32 : decode 0b00000000000000000010000000100010 = .ok (.buRead 32) := by decide
theorem test_decode_rleEnc : decode 0b00000000000000000000000000110000 = .ok .rleEnc := by decide
theorem test_decode_rleDec : decode 0b00000000000000000000000000110001 = .ok .rleDec := by decide

/-- The illegal words of P5 and 2.2, one for each test of R113, and the first test before the others. -/
theorem test_decode_unknown_opcode : decode 0x00000003 = .error (.unknownOpcode 3) := by decide
theorem test_decode_stray_count : decode 0x00000102 = .error (.strayCount 2 1) := by decide
theorem test_decode_reserved_first : decode 0xFFFFFFFF = .error .reservedBits := by decide

theorem test_table_word : decodeTableWord 32 0x00000722 = some (.buRead 7) := by decide

/-! ## One step of each command -/

/-- R270: NOP from the reset state ends with STATUS 2; fetched, decoded and run by one step. -/
theorem test_nop_from_reset : holds (fun t => t.status.word == 2) (step (State.reset.withFetchWord 32 0)) = true := by
  decide +kernel

/-- R113 and the error vector of 2.2: CT_INV with CNT 1 is ILLEGAL. -/
theorem test_illegal_word :
    holds (fun t => t.status.word == 0x0104 && t.errCmd == 0x102 && t.errPos == 0)
      (step (State.reset.withFetchWord 32 0x102)) = true := by decide +kernel

/-- 2.1: red and yellow. -/
theorem test_ctFwd_red : holds (fun t => t.result == 0x004CFF55) (exec .ctFwd { small with arg0 := 0x00FF0000 }) = true := by
  decide +kernel
theorem test_ctFwd_yellow : holds (fun t => t.result == 0x00E19501) (exec .ctFwd { small with arg0 := 0xAAFFFF00 }) = true := by
  decide +kernel

/-- 2.2: clamped from below, and clamped from above. -/
theorem test_ctInv_zero : holds (fun t => t.result == 0x00008700) (exec .ctInv small) = true := by decide +kernel
theorem test_ctInv_high : holds (fun t => t.result == 0x00FFC124) (exec .ctInv { small with arg0 := 0x00EBF010 }) = true := by
  decide +kernel

/-- E1 and E4 (2.3). -/
theorem test_bqEncode_E1 :
    holds (fun t => readReg t .qbBits == 0x05070402 && readReg t .qbLuma == 0x720A && readReg t .qbChroma == 0x0708 &&
      readReg t .qbCsize == 5 && readReg t .qbDim == 0x202 && t.resbuf.get 9 == 3 && t.resbuf.get 8 == 0)
      (exec .bqEncode vectorE1) = true := by decide +kernel
theorem test_bqEncode_E4 :
    holds (fun t => readReg t .qbBits == 0x00020802 && readReg t .qbLuma == 0x0464 && t.resbuf.get 1 == 4)
      (exec .bqEncode vectorE4) = true := by decide +kernel

/-- E1 decoded, and R180. -/
theorem test_bqDecode_E1 :
    holds (fun t => t.outbuf.get 0 == 0x0A0F00 && t.outbuf.get 9 == 0x6A6F4D && t.outbuf.get 2 == 0)
      (exec .bqDecode recordE1) = true := by decide +kernel
theorem test_bqDecode_without_record :
    holds (fun t => t.status.word == 0x0304 && t.errPos == 0) (exec .bqDecode (running .bqDecode small)) = true := by decide +kernel

/-- R216: the six bytes of E1's block; and the residual of E4 that does not fit. -/
theorem test_bqSerialize_E1 :
    holds (fun t => t.memA.read 0 6 == [0x04, 0x78, 0x02, 0x0A, 0x72, 0xC0] && t.aLen == 6 && t.aCur == 0)
      (exec .bqSerialize recordE1) = true := by decide +kernel
theorem test_bqSerialize_E4_overflows : holds (fun t => t.status.fieldOvf) (exec .bqSerialize recordE4) = true := by decide +kernel

/-- R222: the record of E1 again. -/
theorem test_bqDeserialize_E1 :
    holds (fun t => t.qb == recordE1.qb && t.resbuf.get 9 == 3 && t.rdPos == 48) (exec .bqDeserialize streamE1) = true := by
  decide +kernel

/-- R204: the second field of the example, and C4. -/
theorem test_bpWrite_17_in_5 :
    holds (fun t => t.memA.get 0 == 0x8D && t.aLen == 1 && t.aCur == 0)
      (exec (.bpWrite 5) { packed [0x05] 3 with arg0 := 17 }) = true := by decide +kernel
theorem test_bpWrite_over_wide :
    holds (fun t => t.memA.get 0 == 0x0F && t.status.fieldOvf && t.aCur == 4)
      (exec (.bpWrite 4) { small with arg0 := 0xFF }) = true := by decide +kernel

/-- R206: the bytes stay. -/
theorem test_bpClear : holds (fun t => nbits t == 0 && t.memA.get 1 == 0xC8) (exec .bpClear (packed [0x8D, 0xC8, 0x01] 1)) = true := by
  decide +kernel

/-- R208: 200 in eight bits across a byte boundary, and the padding bits are no field. -/
theorem test_buRead_200 :
    holds (fun t => t.result == 200 && t.rdPos == 16) (exec (.buRead 8) { packed [0x8D, 0xC8, 0x01] 1 with rdPos := 8 }) = true := by
  decide +kernel
theorem test_buRead_underrun :
    holds (fun t => t.status.errCode == .underrun && t.errPos == 17 && t.rdPos == 17)
      (exec (.buRead 1) { packed [0x8D, 0xC8, 0x01] 1 with rdPos := 17 }) = true := by decide +kernel

/-- L1.6: a literal, a run, a literal. -/
theorem test_rleEnc_mixed :
    holds (fun t => t.memB.read 0 10 == [0x00, 2, 0x10, 0x20, 0x01, 2, 0x30, 0x00, 1, 0x40] && t.bLen == 10)
      (exec .rleEnc (packed [0x10, 0x20, 0x30, 0x30, 0x40] 0)) = true := by decide +kernel

/-- L1.4: 300 equal bytes. -/
theorem test_rleEncode_300 : rleEncode (List.replicate 300 0xAA) = [0x01, 0xFF, 0xAA, 0x01, 0x2D, 0xAA] := by decide +kernel

/-- R252: the examples. -/
theorem test_rleDec_run :
    holds (fun t => t.memA.read 0 3 == [9, 9, 9] && t.aLen == 3) (exec .rleDec (chunked [1, 3, 9])) = true := by decide +kernel
theorem test_rleDec_bad_tag :
    holds (fun t => t.status.errCode == .format && t.errPos == 3 && t.aLen == 0) (exec .rleDec (chunked [1, 3, 9, 7])) = true := by
  decide +kernel

/-! ## The bus -/

/-- R39, R286: a CMD write that lands before a completion is not accepted; the one that lands after it is. -/
theorem test_late_cmd_write :
    holds (fun t => t.status.word == 0x1 && t.cmd == 0x21)
      (core.run 2 { running .nop small with pending := assemble [.wr .cmd 0x21] }) = true := by decide +kernel
theorem test_early_cmd_write :
    holds (fun t => t.status.word == 0x11 && t.cmd == 0)
      (core.run 1 { running .nop small with pending := [Asm.event true (.wr .cmd 0x21)] }) = true := by decide +kernel

/-- R119: the words of `bp.write` and of `cfg`. -/
theorem test_assemble_cfg :
    (Pseudo.cfg 4 2 2 2 4).expand = [.wr .imgW 4, .wr .imgH 2, .wr .qcfg 0x00040202] := by decide
theorem test_assemble_bpWrite : (Pseudo.bpWrite 5 3).expand = [.wr .arg0 5, .wr .cmd 0x320, .wait] := by decide

/-! ## A concrete case for the hypotheses of each statement -/

/-- Encoding and decoding: both ends of CNT, and a word of each kind that the rows turn away. -/
theorem witness_DecodeInvertsEncode :
    (Instr.bpWrite 0).wellFormed = true ∧ (Instr.buRead 63).wellFormed = true ∧ Instr.rleDec.wellFormed = true := by decide
theorem witness_EncodeInvertsDecode :
    decode 0x00003F20 = .ok (.bpWrite 63) ∧ decode 0x00000022 = .ok (.buRead 0) ∧ decode 0x00000013 = .ok .bqDeserialize := by decide
theorem witness_DecodingFollowsTheMatchMaskRows :
    (∃ r ∈ opcodeRows, r.accepts 0x00003F22 = true) ∧ decode 0x00000120 = .ok (.bpWrite 1) ∧
      (∃ cnt, cnt < 64 ∧ cnt = 0) ∧ (∃ cnt, cnt < 64 ∧ 33 ≤ cnt) ∧ (∀ r ∈ opcodeRows, r.accepts 0x00004020 = false) := by
  refine ⟨by decide, by decide, ⟨0, by decide⟩, ⟨63, by decide⟩, by decide⟩

/-- The engine moves next, with each kind of command word in CMD. -/
theorem witness_EngineClassifiesCommandWords :
    EngineNext (issue 0x00004000 small) ∧ EngineNext (issue 0x00000103 small) ∧ EngineNext (issue 0x00000100 small) ∧
      EngineNext (issue 0x00003F20 small) := by
  refine ⟨⟨rfl, ?_⟩, ⟨rfl, ?_⟩, ⟨rfl, ?_⟩, ⟨rfl, ?_⟩⟩ <;> · intro e rest h; cases h
theorem witness_StepRunsTheDecodedCommand :
    EngineNext { running (.bpWrite 32) small with pending := assemble [.wait] } ∧
      decode (running (.bpWrite 32) small).cmd = .ok (.bpWrite 32) := by
  refine ⟨⟨rfl, ?_⟩, by decide⟩
  intro e rest h
  cases h
  rfl
theorem witness_HostEventLandsInItsPlace :
    (∃ e rest, { small with pending := [⟨.hardReset, false⟩] }.pending = e :: rest ∧ small.status.busy = false) ∧
    (∃ e rest, { running .nop small with pending := [⟨.hardReset, true⟩] }.pending = e :: rest ∧ e.early = true) ∧
    (small.pending = [] ∧ small.status.busy = false) := ⟨⟨_, _, rfl, rfl⟩, ⟨_, _, rfl, rfl⟩, rfl, rfl⟩
theorem witness_CmdWriteIssuesOnlyWhenIdle : small.status.busy = false ∧ (running .nop small).status.busy = true := by decide

/-- The colour channels at the ends of their range, with the values of 2.1 and 2.2. -/
theorem witness_ForwardTransformIsExactAndInRange :
    (255 ≤ 255 ∧ 0 ≤ 255) ∧ toYCrCb ⟨255, 0, 0⟩ = ⟨76, 255, 85⟩ ∧ toYCrCb ⟨255, 255, 0⟩ = ⟨225, 149, 1⟩ := by decide +kernel
theorem witness_InverseTransformIsClampedFloor : (0 ≤ 255 ∧ 255 ≤ 255) ∧ toRGB ⟨0, 255, 255⟩ = ⟨178, 0, 224⟩ := by decide +kernel
theorem witness_ColourRoundTripIsExactOnGreysAndNotTheIdentity : 255 ≤ 255 ∧ 0 ≤ 255 := by decide
theorem witness_RbnIsTheLeastExponent : 255 ≤ 255 ∧ rbn 255 = 8 ∧ 128 ≤ 2 ^ 7 ∧ rbn 128 = 7 ∧ rbn 1 = 0 := by decide +kernel

/-- BQ_ENCODE and BQ_DESERIALIZE: accepted parameters at a block clipped to one pixel, and a rejected one of each kind. -/
theorem witness_BadParametersRaiseParam :
    (geomOk vectorE1 && bitsOk vectorE1) = true ∧
    geomOk { vectorE1 with blkX := 1, blkY := 1 } = true ∧ geomOk { vectorE1 with blkX := 2 } = false ∧
    geomOk { vectorE1 with qcfg := ⟨3, 2, 4⟩ } = false ∧ bitsOk { vectorE1 with qcfg := ⟨2, 0, 4⟩ } = false ∧
    bitsOk { vectorE1 with qcfg := ⟨2, 8, 9⟩ } = false := by decide
theorem witness_BqEncodeWritesTheRecord : geomOk vectorE4 = true ∧ bitsOk vectorE4 = true := by decide
theorem witness_EncodeIgnoresPixelsOutsideFootprint :
    let other : State := { vectorE1 with pixbuf := ⟨7, (0, 0x0A0A0A) :: (1, 0x141414) :: (2, 0xFFFFFF) :: (8, 0x282828) :: [(9, 0xC86432)]⟩ }
    vectorE1.imgW = other.imgW ∧ vectorE1.imgH = other.imgH ∧ vectorE1.blkX = other.blkX ∧ vectorE1.blkY = other.blkY ∧
      vectorE1.qcfg = other.qcfg ∧
      (∀ i ∈ footprint (geomW vectorE1) (geomH vectorE1), vectorE1.pixbuf.get i = other.pixbuf.get i) ∧
      geomOk vectorE1 = true ∧ bitsOk vectorE1 = true ∧
      holds (fun _ => true) (exec .bqEncode vectorE1) = true ∧ holds (fun _ => true) (exec .bqEncode other) = true := by
  decide +kernel

/-- Both sides of R167: a residual that fits and one that does not. -/
theorem witness_ResidualOverflowsOnlyAtPowersOfTwo :
    geomOk vectorE4 = true ∧ bitsOk vectorE4 = true ∧ exec .bqEncode vectorE4 = .next recordE4 ∧
      0 ∈ footprint recordE4.qb.dimW.toNat recordE4.qb.dimH.toNat ∧ 1 ∈ footprint recordE4.qb.dimW.toNat recordE4.qb.dimH.toNat ∧
      recordE4.resbuf.get 0 = 0 ∧ recordE4.resbuf.get 1 = 4 :=
  ⟨by decide, by decide, rfl, by decide +kernel, by decide +kernel, by decide +kernel, by decide +kernel⟩
theorem witness_DecodedLumaOfAnEncodedBlockNeedsNoClamp :
    geomOk vectorE1 = true ∧ bitsOk vectorE1 = true ∧ exec .bqEncode vectorE1 = .next recordE1 ∧
      9 ∈ footprint recordE1.qb.dimW.toNat recordE1.qb.dimH.toNat := ⟨by decide, by decide, rfl, by decide +kernel⟩
theorem witness_FlatGrey128BlockSurvivesQuantization :
    geomOk vectorE2 = true ∧ bitsOk vectorE2 = true ∧
      ∀ i ∈ footprint (geomW vectorE2) (geomH vectorE2), vectorE2.pixbuf.get i = 0x808080 := by decide +kernel

theorem witness_BqDecodeReconstructsTheBlock : recordE1.status.recValid = true := by decide +kernel

/-- The field width at both ends, outside and inside. -/
theorem witness_FieldWidthOutsideRangeRaisesParam :
    ¬ (1 ≤ 0 ∧ 0 ≤ 32) ∧ ¬ (1 ≤ 33 ∧ 33 ≤ 32) ∧ (1 ≤ 32 ∧ 32 ≤ 32) ∧ small.status.errCode ≠ .param ∧
      holds (fun _ => true) (exec (.bpWrite 32) small) = true ∧ holds (fun _ => true) (exec (.buRead 1) small) = true := by
  decide +kernel

/-- The last field that fits: 256 bytes of A, 252 of them full. -/
theorem witness_BpWriteAppendsTheField :
    let s : State := { small with aLen := 252 }
    s.cap ≤ 1048576 ∧ (s.aLen.toNat ≤ s.cap ∧ (s.aCur ≠ 0 → 1 ≤ s.aLen.toNat)) ∧ nbits s + 32 ≤ 8 * s.cap ∧
      nbits { s with aCur := 1 } + 1 ≤ 8 * s.cap := by decide
theorem witness_RecordAndCapacityChecksArePrecise :
    small.status.recValid = false ∧ 8 * small.cap < nbits { small with aLen := 256 } + 1 ∧ recordE1.status.recValid = true ∧
      8 * recordE1.cap < nbits { recordE1 with aLen := 251 } + (32 + 2 * recordE1.qb.cBits.toNat +
        if 0 < recordE1.qb.maxDelta.toNat then recordE1.qb.dimW.toNat * recordE1.qb.dimH.toNat * recordE1.qb.ydBits.toNat else 0) := by
  decide +kernel

/-- The last bit of the stream, and the bit after it. -/
theorem witness_BuReadReadsTheField :
    let s := { packed [0x8D, 0xC8, 0x01] 1 with rdPos := 16 }
    s.cap ≤ 1048576 ∧ (s.aLen.toNat ≤ s.cap ∧ (s.aCur ≠ 0 → 1 ≤ s.aLen.toNat)) ∧ s.rdPos.toNat + 1 ≤ nbits s ∧
      nbits s < s.rdPos.toNat + 2 := by decide
theorem witness_PackedFieldsReadBackInOrder :
    let fields : List (Word × Nat) := [(5, 3), (17, 5), (200, 8), (1, 1), (0xFFFFFFFF, 32)]
    small.cap ≤ 1048576 ∧ (small.aLen.toNat ≤ small.cap ∧ (small.aCur ≠ 0 → 1 ≤ small.aLen.toNat)) ∧
      (∀ f ∈ fields, 1 ≤ f.2 ∧ f.2 ≤ 32) ∧ nbits small + (fields.map Prod.snd).sum ≤ 8 * small.cap := by decide

/-- The records of E1 and E4 are valid; E4's has a residual that does not fit. -/
theorem witness_RecordOk_E1 : recordE1.status.recValid = true ∧ RecordOk recordE1 := by
  unfold RecordOk
  and_intros <;> (try intro) <;> (try and_intros) <;> decide +kernel
theorem witness_RecordOk_E4 : recordE4.status.recValid = true ∧ RecordOk recordE4 := by
  unfold RecordOk
  and_intros <;> (try intro) <;> (try and_intros) <;> decide +kernel
theorem witness_BqSerializeAppendsTheLayout :
    recordE4.cap ≤ 1048576 ∧ PackerOk recordE4 ∧ nbits recordE4 + serialLength recordE4.qb ≤ 8 * recordE4.cap := by
  unfold PackerOk
  decide +kernel
theorem witness_SerializeThenDeserializeRestoresTheRecord :
    PackerOk recordE1 ∧ geomOk recordE1 = true ∧ geomW recordE1 = recordE1.qb.dimW.toNat ∧ geomH recordE1 = recordE1.qb.dimH.toNat ∧
      recordE1.blkX = recordE1.qb.posX ∧ recordE1.blkY = recordE1.qb.posY ∧
      nbits recordE1 + serialLength recordE1.qb ≤ 8 * recordE1.cap := by
  unfold PackerOk
  decide +kernel
theorem witness_BqDeserializeReadsTheLayout :
    streamE1.cap ≤ 1048576 ∧ PackerOk streamE1 ∧ geomOk streamE1 = true ∧
      readBits streamE1.memA 0 8 = 4 ∧ readBits streamE1.memA 16 8 = 2 ∧ readBits streamE1.memA 24 8 = 10 ∧
      readBits streamE1.memA 32 8 = 114 ∧ 0 + (32 + 2 * 4 + geomW streamE1 * geomH streamE1 * 2) ≤ nbits streamE1 := by
  unfold PackerOk
  decide +kernel

/-- A stream of these bytes, `cur` the cursor in the last one, read at bit 0 into a footprint of one pixel. -/
def stream (l : List Byte) (cur : BitVec 3) : State := { packed l cur with imgW := 1, imgH := 1, qcfg := ⟨2, 0, 0⟩ }

/-- Each clause at the edge of its range: every field cut one bit before its end or just where it starts, and the three bad fields of R221
(c = 0, d = 9, BASEY + MAXDELTA = 256) each where the stream ends with them. -/
theorem witness_DeserializeRejectsBadOrMissingFields :
    PackerOk (stream [4] 7) ∧ geomOk (stream [4] 7) = true ∧
    nbits (stream [4] 7) < 0 + 8 ∧
    (0 + 8 ≤ nbits (stream [0] 0) ∧ readBits (stream [0] 0).memA 0 8 = 0) ∧
    readBits (stream [4] 0).memA 0 8 = 4 ∧
    (nbits (stream [4] 0) = 8 ∧ nbits (stream [4, 0] 3) = 11) ∧
    (nbits (stream [4, 0] 4) = 12 ∧ nbits (stream [4, 0] 7) = 15) ∧
    (nbits (stream [4, 0] 0) = 16 ∧ nbits (stream [4, 0, 2] 7) = 23) ∧
    (nbits (stream [4, 0, 9] 0) = 24 ∧ readBits (stream [4, 0, 9] 0).memA 16 8 = 9) ∧
    (nbits (stream [4, 0, 8] 0) = 24 ∧ readBits (stream [4, 0, 8] 0).memA 16 8 = 8) ∧
    (nbits (stream [4, 0, 8, 1] 0) = 32 ∧ nbits (stream [4, 0, 8, 1, 255] 7) = 39) ∧
    (nbits (stream [4, 0, 8, 1, 255] 0) = 40 ∧
      255 < readBits (stream [4, 0, 8, 1, 255] 0).memA 24 8 + readBits (stream [4, 0, 8, 1, 255] 0).memA 32 8) ∧
    (3 < geomW streamE1 * geomH streamE1 ∧ nbits { streamE1 with aCur := 7 } = 47 ∧ 32 + 2 * 4 + 3 * 2 ≤ 47) := by
  unfold PackerOk
  decide +kernel

/-- The last residual of E1's block cut by one bit: UNDERRUN at bit 46 (R220, R282). -/
theorem test_bqDeserialize_underrun :
    holds (fun t => t.status.errCode == .underrun && t.errPos == 46 && !t.status.recValid)
      (exec .bqDeserialize { streamE1 with aCur := 7 }) = true := by decide +kernel

/-- The run-length codec: an output that exactly fills the memory, a bad tag, an encoding that fits and one that does not. -/
theorem witness_RleDecodeInvertsEncode : ([1, 2, 2, 3] : List Byte).length ≤ 4 ∧ ([] : List Byte).length ≤ 0 := by decide
/-- Two LITERALs in a row, one with a repeated byte, which the encoder never writes; and the edges of each failure of R251. -/
theorem witness_RleDecodeReadsChunksAndReportsTheFirstBadOne :
    (∀ c ∈ [Chunk.literal [9, 9], Chunk.literal [7], Chunk.run 2 5], c.lengthOk) ∧
      ([Chunk.literal [9, 9], Chunk.literal [7], Chunk.run 2 5].flatMap Chunk.data).length ≤ 5 ∧
      1 < (2 : Byte).toNat ∧ (1 : Byte).toNat < 2 ∧ (2 ≤ (2 : Byte).toNat ∧ 5 < 5 + (2 : Byte).toNat) ∧
      ([] : List Byte).length < (1 : Byte).toNat ∧
      (1 ≤ (1 : Byte).toNat ∧ (1 : Byte).toNat ≤ ([3] : List Byte).length ∧ 5 < 5 + (1 : Byte).toNat) := by
  refine ⟨?_, by decide⟩
  simp [Chunk.lengthOk]
theorem witness_RleEncStoresTheEncoding :
    (packed [7, 7] 0).cap ≤ 1048576 ∧ (packed [7, 7] 0).aLen.toNat ≤ (packed [7, 7] 0).cap ∧
    (rleEncode ((packed [7, 7] 0).memA.read 0 2)).length ≤ (packed [7, 7] 0).cap := by decide +kernel
theorem witness_RleEncStoresTheEncoding_capacity :
    let s : State := { small with memA := (Memory.unspecified 3).fill 256 fun i => BitVec.ofNat 8 i, aLen := 256 }
    s.aLen.toNat ≤ s.cap ∧ s.cap < (rleEncode (s.memA.read 0 s.aLen.toNat)).length := by decide +kernel
theorem witness_RleDecStoresTheDecoding :
    (chunked [1, 3, 9]).bLen.toNat ≤ (chunked [1, 3, 9]).cap ∧
    rleDecode (chunked [1, 3, 9]).cap ((chunked [1, 3, 9]).memB.read 0 3) = .ok [9, 9, 9] ∧
    rleDecode (chunked [1, 3, 9, 7]).cap ((chunked [1, 3, 9, 7]).memB.read 0 4) = .error ⟨.format, 3⟩ ∧
    rleDecode small.cap [1, 255, 9, 1, 2, 8] = .error ⟨.capacity, 3⟩ := by decide +kernel
theorem witness_RleCommandsRestoreTheStream :
    let s : State := { small with memA := fullOf 256 0xAA, aLen := 256 }
    s.cap ≤ 1048576 ∧ s.aLen.toNat ≤ s.cap ∧ (rleEncode (s.memA.read 0 s.aLen.toNat)).length ≤ s.cap := by decide +kernel

/-- Commands that fail: a precise one, RLE_DEC, and RLE_ENC of 256 bytes that do not repeat. -/
theorem witness_FailedCommandsArePrecise :
    holds (fun t => t.status.err) (exec .bqDecode small) = true ∧ small.status.err = false ∧
      holds (fun t => t.status.err && t.errPos == 3) (exec .rleDec (chunked [1, 3, 9, 7])) = true ∧
      holds (fun t => t.status.err && t.bLen == 0)
        (exec .rleEnc { small with memA := (Memory.unspecified 3).fill 256 fun i => BitVec.ofNat 8 i, aLen := 256 }) = true := by
  decide +kernel
theorem witness_CommandsStopOnlyBeyondTheirMemories :
    exec .rleEnc { small with aLen := 257 } = .fault .beyondMemory ∧
      exec .bqSerialize { recordE1 with qb := { recordE1.qb with dimW := 9 } } = .fault .beyondBuffer := ⟨rfl, rfl⟩
theorem witness_CompletionSetsExactlyOneOfDoneAndErr :
    exec .nop (issue 0 small) = .next (complete (issue 0 small)) ∧
      exec .bqDecode (issue 0x11 small) = .next (raiseError .noRecord 0 (issue 0x11 small)) := ⟨rfl, rfl⟩
theorem witness_IrqFollowsEnableAndCompletion : (complete small).status.done = true ∨ (complete small).status.err = true := by decide

/-- A command of each kind that the frame statements speak of: one that completes and one that fails. -/
theorem witness_ResultIsWrittenByThreeCommandsOnly :
    holds (fun t => t.status.err) (exec (.buRead 0) small) = true ∧ small.status.err = false ∧
      exec .nop small = .next (complete small) := ⟨by decide +kernel, rfl, rfl⟩
theorem witness_CommandsKeepTheirInputs : holds (fun t => t.status.done) (exec .rleEnc (packed [7, 7] 0)) = true := by decide +kernel
theorem witness_OnlyTwoCommandsWriteTheRecord :
    holds (fun t => t.status.done) (exec .bqDecode recordE1) = true ∧
      holds (fun t => t.status.err) (exec .bqEncode { recordE1 with imgW := 0 }) = true ∧ recordE1.status.err = false := by
  decide +kernel

/-- The four bus errors and the edges of what is mapped (R84): misaligned, unmapped, read-only, partial strobe, and the last word of A. -/
theorem witness_BusErrorsChangeNothing :
    access small.cap ⟨false, 0x001, 0, 0⟩ = .error .misaligned ∧ access small.cap ⟨false, 0x034, 0, 0⟩ = .error .unmapped ∧
      access small.cap ⟨true, 0x500, 0, 0xF⟩ = .error .readOnly ∧ access small.cap ⟨true, 0x010, 0, 0x7⟩ = .error .partialStrobe ∧
      access small.cap ⟨true, 0x1000FC, 0, 0x1⟩ = .ok (.memA 252) ∧ access small.cap ⟨false, 0x100100, 0, 0⟩ = .error .unmapped := by
  decide
theorem witness_BusyReadsAreCurrentForFourRegistersOnly :
    (running .nop small).status.busy = true ∧ access small.cap ⟨false, 0x014, 0, 0⟩ = .ok (.reg .result) ∧
      Target.reg .result ≠ .reg .id ∧ Target.reg .result ≠ .reg .ctrl ∧ Target.reg .result ≠ .reg .status ∧
      Target.reg .result ≠ .reg .memCap := by decide
theorem witness_BusyWritesAreIgnored :
    (running .nop small).status.busy = true ∧ access small.cap ⟨true, 0x00C, 0, 0xF⟩ = .ok (.reg .cmd) ∧
      access small.cap ⟨true, 0x2000FC, 0, 0x0⟩ = .ok (.memB 252) := by decide
theorem witness_WindowWritesAreLittleEndianAndStrobed :
    (small.cap % 4 = 0 ∧ 256 ≤ small.cap ∧ small.cap ≤ 1048576) ∧ small.status.busy = false ∧ 252 % 4 = 0 ∧ 252 < small.cap := by decide

theorem witness_PixbufWritesStoreThreeBytes : small.status.busy = false ∧ 63 < 64 := by decide
theorem witness_RegisterWritesStoreTheirFields :
    (0x00080801 : Word).getLsbD 1 = false ∧ small.status.busy = false ∧ (running .nop small).status.busy = true := by decide
theorem witness_ReadsAnswerTheStateAndChangeNothing : (Asm.rd .status).transaction.we = false ∧ small.status.busy = false := by decide
theorem witness_HardResetShowsTheEmptyMachine :
    State.reset = State.reset ∨ State.reset = hostStep .hardReset small := .inl rfl

/-- Soft resets: idle, over a running command, over a running word that is no command. -/
theorem witness_SoftResetKeepsMemoriesAndResetsRegisters :
    (2 : Word).getLsbD 1 = true ∧ small.status.busy = false ∧ (running .rleDec small).status.busy = true ∧
      decode (running .rleDec small).cmd = .ok .rleDec ∧ decode (issue 0x103 small).cmd = .error (.unknownOpcode 3) := by decide
theorem witness_ResetSatisfiesTheInvariant :
    Config.legalMemBytes (256 : BitVec 21).toNat = true ∧ Config.legalMemBytes (1048576 : BitVec 21).toNat = true ∧
      Config.legalMemBytes 255 = false := by decide

/-- A state with a valid record, a running command and a host event to come meets the invariant, and a step takes it on. -/
theorem witness_StateOk :
    StateOk { running .bqSerialize recordE1 with pending := assemble [.rd .status] } ∧
      Ran (step { running .bqSerialize recordE1 with pending := assemble [.rd .status] }) := by
  refine ⟨⟨?_, ?_, by decide +kernel, ?_, ?_, ?_, witness_RecordOk_E1.2⟩, ⟨_, rfl⟩⟩
  · unfold ParamsOk; decide +kernel
  · unfold PackerOk; decide +kernel
  · unfold MemoriesOk; decide +kernel
  · unfold DrawsOk; decide +kernel
  · unfold StatusOk; decide +kernel

end Sys2Proof.Tests
end

section
/-! O57: the invariant right after a hardware reset (00_scope R10, 10_state R57, R64, R76). `State.resetOf` changes only the instance
parameters of `State.reset`, so each part of the invariant is stated for every instance, and only `ParamsOk` asks for a legal size. -/

namespace Sys2Proof.Machine

/-- The default instance is one of the instances (R10). -/
theorem reset_eq_resetOf : State.reset = State.resetOf Config.defaultId (BitVec.ofNat 21 Config.defaultMemBytes) := rfl

theorem legalMemBytes_default : Config.legalMemBytes (BitVec.ofNat 21 Config.defaultMemBytes).toNat = true := by decide

/-- `ParamsOk` is the check of `P_MEM_BYTES` (R10), read at MEM_CAP. -/
theorem paramsOk_iff_legalMemBytes (s : State) : ParamsOk s ↔ Config.legalMemBytes s.memCap.toNat = true := by
  simp [ParamsOk, State.cap, Config.legalMemBytes, and_assoc]

/-- The packer is empty and between bytes (R64). -/
theorem packerOk_resetOf (id : Word) (memCap : BitVec 21) : PackerOk (State.resetOf id memCap) :=
  ⟨Nat.zero_le _, fun openByte => absurd rfl openByte⟩

theorem bLen_resetOf_le_cap (id : Word) (memCap : BitVec 21) :
    (State.resetOf id memCap).bLen.toNat ≤ (State.resetOf id memCap).cap := Nat.zero_le _

/-- No memory lists an entry, so each is within every size. -/
theorem memoriesOk_resetOf (id : Word) (memCap : BitVec 21) : MemoriesOk (State.resetOf id memCap) := by
  obtain ⟨pixbuf, outbuf, resbuf, -, -⟩ := reset_memories_wf 64
  obtain ⟨-, -, -, memA, memB⟩ := reset_memories_wf (State.resetOf id memCap).cap
  exact ⟨pixbuf, outbuf, resbuf, memA, memB⟩

/-- The memories come from draws 0 to 4, and five draws are counted (log 2). -/
theorem drawsOk_resetOf (id : Word) (memCap : BitVec 21) : DrawsOk (State.resetOf id memCap) := by
  have epochs : (State.resetOf id memCap).epochs = List.range 5 := rfl
  have draws : (State.resetOf id memCap).draws = 5 := rfl
  rw [DrawsOk, epochs, draws]
  exact ⟨List.nodup_range, fun _ => List.mem_range.mp⟩

/-- No command runs and none has completed (R321). -/
theorem statusOk_resetOf (id : Word) (memCap : BitVec 21) : StatusOk (State.resetOf id memCap) := by
  have status : (State.resetOf id memCap).status = Status.reset := rfl
  simp [StatusOk, status, Status.reset]

/-- REC_VALID is 0, so R57 asks nothing of the record. -/
theorem recordOk_resetOf (id : Word) (memCap : BitVec 21) : RecordOk (State.resetOf id memCap) := by
  have noRecord : (State.resetOf id memCap).status.recValid = false := rfl
  intro valid
  rw [noRecord] at valid
  exact absurd valid Bool.false_ne_true

theorem stateOk_resetOf (id : Word) {memCap : BitVec 21} (legal : Config.legalMemBytes memCap.toNat = true) :
    StateOk (State.resetOf id memCap) :=
  ⟨(paramsOk_iff_legalMemBytes _).mpr legal, packerOk_resetOf id memCap, bLen_resetOf_le_cap id memCap,
    memoriesOk_resetOf id memCap, drawsOk_resetOf id memCap, statusOk_resetOf id memCap, recordOk_resetOf id memCap⟩

/-- Settles O57: each part of the invariant holds of every instance after reset, and the default one is legal. -/
theorem resetSatisfiesTheInvariant : Obligations.ResetSatisfiesTheInvariant :=
  ⟨reset_eq_resetOf ▸ stateOk_resetOf _ legalMemBytes_default, fun id _ legal => stateOk_resetOf id legal⟩

end Sys2Proof.Machine
end

section
/-! O41, O43 to O46: what a command can answer (30_encoding R114, R116). `exec_ends` says once in which ways a command that reaches a
next state ended, and `exec_stopsAs` which commands stop in a fault (log 12); the statements follow from these two. -/

namespace Sys2Proof.Machine

/-! ## How a command ends -/

/-- What a command that succeeds has made of `s` when it completes (R116, the writes column), one constructor a command. -/
inductive Computes (s : State) : Instr → State → Prop
  | nop : Computes s .nop s
  | ctFwd (v : Word) : Computes s .ctFwd { s with result := v }
  | ctInv (v : Word) : Computes s .ctInv { s with result := v }
  | bqEncode (geom : geomOk s = true) (bits : bitsOk s = true) :
      Computes s .bqEncode (commitRecord s (encodeData s) (encodeResidual s))
  | bqDecode (f : Nat → Pixel) : Computes s .bqDecode { s with outbuf := s.outbuf.fill 64 f }
  | bqSerialize (room : nbits s + serialLength s.qb ≤ 8 * s.cap) : Computes s .bqSerialize (appendFields (blockFields s) s)
  | bqDeserialize {b : ParsedBlock} (geom : geomOk s = true) (parsed : parseBlock s = .ok b) :
      Computes s .bqDeserialize (commitParsed s b)
  | bpWrite {n : Nat} (room : nbits s + n ≤ 8 * s.cap) : Computes s (.bpWrite n) (appendField s.arg0.toNat n s)
  | bpClear : Computes s .bpClear { s with aLen := 0, aCur := 0, rdPos := 0 }
  | buRead {n : Nat} (v : Word) (p : BitVec 24) : Computes s (.buRead n) { s with result := v, rdPos := p }
  | rleEnc {out : List Byte} (room : out.length ≤ s.cap) :
      Computes s .rleEnc { s with memB := s.memB.write 0 out, bLen := BitVec.ofNat 21 out.length }
  | rleDec {out : List Byte} (room : out.length ≤ s.cap) :
      Computes s .rleDec
        { s with memA := s.memA.write 0 out, aLen := BitVec.ofNat 21 out.length, aCur := 0, rdPos := 0 }

/-- What a command that fails with a code has made of `s` when it records the error (R284): nothing, but for the destination of
the two run-length commands. -/
inductive Fails (s : State) : Instr → ErrCode → State → Prop
  | precise {i : Instr} {code : ErrCode} (raised : code ∈ raisedBy i) (hEnc : i ≠ .rleEnc) (hDec : i ≠ .rleDec) :
      Fails s i code s
  | rleEnc : Fails s .rleEnc .capacity { forgetB s with bLen := 0 }
  | rleDec {code : ErrCode} (raised : code ∈ raisedBy .rleDec) :
      Fails s .rleDec code { forgetA s with aLen := 0, aCur := 0, rdPos := 0 }

/-- The two ways a command ends (R289, R290). -/
inductive Ends (s : State) (i : Instr) : State → Prop
  | completed {u : State} (computed : Computes s i u) : Ends s i (complete u)
  | failed {code : ErrCode} {u : State} (pos : Nat) (failure : Fails s i code u) : Ends s i (raiseError code pos u)

/-- A completion at the end of a precise command. -/
theorem ends_of_settle_ok {s u t : State} {i : Instr} (computed : Computes s i u) (h : settle s (.ok u) = .next t) :
    Ends s i t := by
  rw [settle_ok] at h
  cases h
  exact .completed computed

/-- An error at the end of a command. -/
theorem ends_of_errorExit {s u t : State} {i : Instr} {code : ErrCode} {pos : Nat} (failure : Fails s i code u)
    (h : errorExit code pos u = .next t) : Ends s i t := by
  rw [errorExit_eq] at h
  cases h
  exact .failed pos failure

theorem bind_eq_ok_iff {ε α β : Type} {x : Except ε α} {f : α → Except ε β} {b : β} :
    x >>= f = .ok b ↔ ∃ a, x = .ok a ∧ f a = .ok b := by
  cases x <;> simp [bind, Except.bind]

theorem bind_eq_error_iff {ε α β : Type} {x : Except ε α} {f : α → Except ε β} {e : ε} :
    x >>= f = .error e ↔ x = .error e ∨ ∃ a, x = .ok a ∧ f a = .error e := by
  cases x <;> simp [bind, Except.bind]

/-- A field fits its width, and UNDERRUN is the only error of a read (R220). -/
theorem field_ok_lt {s : State} {n pos v p : Nat} (h : field s n pos = .ok (v, p)) : v < 2 ^ n := by
  rcases field_cases s n pos with ⟨-, e⟩ | ⟨-, e⟩ <;> rw [e] at h <;> cases h
  exact readBits_lt _ _ _

theorem field_error_code {s : State} {n pos : Nat} {e : CmdError} (h : field s n pos = .error e) : e.code = .underrun := by
  rcases field_cases s n pos with ⟨-, e⟩ | ⟨-, e⟩ <;> rw [e] at h <;> cases h
  rfl

/-- A checked field fits its width and passes its check (R221). -/
theorem fieldWhere_ok {s : State} {n pos v p : Nat} {ok : Nat → Bool} (h : fieldWhere s n pos ok = .ok (v, p)) :
    ok v = true ∧ v < 2 ^ n := by
  rcases fieldWhere_cases s n pos ok with ⟨-, hok, e⟩ | ⟨-, -, e⟩ | ⟨-, e⟩ <;> rw [e] at h <;> cases h
  exact ⟨hok, readBits_lt _ _ _⟩

theorem fieldWhere_error_code {s : State} {n pos : Nat} {ok : Nat → Bool} {e : CmdError}
    (h : fieldWhere s n pos ok = .error e) : e.code = .underrun ∨ e.code = .format := by
  rcases fieldWhere_cases s n pos ok with ⟨-, -, e⟩ | ⟨-, -, e⟩ | ⟨-, e⟩ <;> rw [e] at h <;> cases h
  · exact .inr rfl
  · exact .inl rfl

/-- The reader of BQ_DESERIALIZE fails with UNDERRUN or FORMAT (R220, R221). -/
theorem parseBlock_error_code {s : State} {e : CmdError} (h : parseBlock s = .error e) :
    e.code = .underrun ∨ e.code = .format := by
  simp only [parseBlock, bind_eq_error_iff] at h
  obtain h | ⟨⟨c, p1⟩, -, h | ⟨⟨acr, p2⟩, -, h | ⟨⟨acb, p3⟩, -, h | ⟨⟨d, p4⟩, -, h | ⟨⟨base, p5⟩, -, h | ⟨⟨md, p6⟩, -,
    h⟩⟩⟩⟩⟩⟩ := h
  · exact fieldWhere_error_code h
  · exact .inl (field_error_code h)
  · exact .inl (field_error_code h)
  · exact fieldWhere_error_code h
  · exact .inl (field_error_code h)
  · exact fieldWhere_error_code h
  · split at h
    · obtain h | ⟨⟨res, p7⟩, -, h⟩ := bind_eq_error_iff.mp h
      · exact .inl (fieldList_error h)
      · cases h
    · cases h

theorem execBqEncode_ends {s t : State} (h : execBqEncode s = .next t) : Ends s .bqEncode t := by
  unfold execBqEncode at h
  split at h
  next ok =>
    obtain ⟨geom, bits⟩ := Bool.and_eq_true_iff.mp ok
    exact ends_of_settle_ok (.bqEncode geom bits) h
  next => exact ends_of_errorExit (.precise (by decide) nofun nofun) h

theorem execBqDecode_ends {s t : State} (h : execBqDecode s = .next t) : Ends s .bqDecode t := by
  unfold execBqDecode at h
  split at h
  · exact ends_of_settle_ok (.bqDecode _) h
  · exact ends_of_errorExit (.precise (by decide) nofun nofun) h

theorem execBqSerialize_ends {s t : State} (h : execBqSerialize s = .next t) : Ends s .bqSerialize t := by
  unfold execBqSerialize at h
  split at h
  next => exact ends_of_errorExit (.precise (by decide) nofun nofun) h
  next =>
  split at h
  next => exact ends_of_errorExit (.precise (by decide) nofun nofun) h
  next room =>
  split at h
  next => cases h
  next => exact ends_of_settle_ok (.bqSerialize (by omega)) h

theorem execBqDeserialize_ends {s t : State} (h : execBqDeserialize s = .next t) : Ends s .bqDeserialize t := by
  unfold execBqDeserialize at h
  split at h
  next => exact ends_of_errorExit (.precise (by decide) nofun nofun) h
  next geom =>
  obtain ⟨-, h⟩ := needStream_next_iff.mp h
  have geom : geomOk s = true := by simpa using geom
  cases parsed : parseBlock s with
  | ok b =>
    rw [parsed] at h
    exact ends_of_settle_ok (.bqDeserialize geom parsed) h
  | error e =>
    rw [parsed] at h
    have raised : e.code ∈ raisedBy .bqDeserialize := by
      rcases parseBlock_error_code parsed with code | code <;> rw [code] <;> decide
    exact ends_of_errorExit (.precise raised nofun nofun) h

theorem execBpWrite_ends {n : Nat} {s t : State} (h : execBpWrite n s = .next t) : Ends s (.bpWrite n) t := by
  unfold execBpWrite at h
  split at h
  next => exact ends_of_errorExit (.precise (.head _) nofun nofun) h
  next =>
  split at h
  next => exact ends_of_errorExit (.precise (.tail _ (.head _)) nofun nofun) h
  next room => exact ends_of_settle_ok (.bpWrite (by omega)) h

theorem execBuRead_ends {n : Nat} {s t : State} (h : execBuRead n s = .next t) : Ends s (.buRead n) t := by
  unfold execBuRead at h
  split at h
  next => exact ends_of_errorExit (.precise (.head _) nofun nofun) h
  next =>
  obtain ⟨-, h⟩ := needStream_next_iff.mp h
  split at h
  next => exact ends_of_errorExit (.precise (.tail _ (.head _)) nofun nofun) h
  next => exact ends_of_settle_ok (.buRead _ _) h

theorem execRleEnc_ends {s t : State} (h : execRleEnc s = .next t) : Ends s .rleEnc t := by
  obtain ⟨-, h⟩ := needStream_next_iff.mp h
  dsimp only at h
  split at h
  next => exact ends_of_errorExit .rleEnc h
  next room => exact ends_of_settle_ok (.rleEnc (by omega)) h

theorem execRleDec_ends {s t : State} (h : execRleDec s = .next t) : Ends s .rleDec t := by
  obtain ⟨-, h⟩ := needChunks_next_iff.mp h
  rcases rleDecodeFrom_result (s.memB.read 0 s.bLen.toNat).length (p := 0) (b := s.memB.read 0 s.bLen.toNat)
    (Nat.zero_le s.cap) with ⟨out, decoded, room⟩ | ⟨e, decoded, code⟩
  · rw [rleDecode, decoded] at h
    exact ends_of_settle_ok (.rleDec (by omega)) h
  · rw [rleDecode, decoded] at h
    have raised : e.code ∈ raisedBy .rleDec := by
      rcases code with code | code <;> rw [code] <;> decide
    exact ends_of_errorExit (.rleDec raised) h

/-- A command that reaches a next state completed or failed in one of the ways above. -/
theorem exec_ends {i : Instr} {s t : State} (h : exec i s = .next t) : Ends s i t := by
  cases i with
  | nop => exact ends_of_settle_ok .nop h
  | ctFwd => exact ends_of_settle_ok (.ctFwd _) h
  | ctInv => exact ends_of_settle_ok (.ctInv _) h
  | bqEncode => exact execBqEncode_ends h
  | bqDecode => exact execBqDecode_ends h
  | bqSerialize => exact execBqSerialize_ends h
  | bqDeserialize => exact execBqDeserialize_ends h
  | bpWrite n => exact execBpWrite_ends h
  | bpClear => exact ends_of_settle_ok .bpClear h
  | buRead n => exact execBuRead_ends h
  | rleEnc => exact execRleEnc_ends h
  | rleDec => exact execRleDec_ends h

/-! ## What a command leaves -/

/-- Every command raises an error code that is one (R281). -/
theorem Fails.code_ne {s u : State} {i : Instr} {code : ErrCode} (h : Fails s i code u) : code ≠ .noError := by
  rintro rfl
  cases h with
  | precise raised => cases i <;> simp [raisedBy] at raised
  | rleDec raised => simp [raisedBy] at raised

/-- A computation leaves the four fields of STATUS that its completion speaks of (R36, R37). -/
theorem Computes.status_eq {s u : State} {i : Instr} (h : Computes s i u) :
    u.status.busy = s.status.busy ∧ u.status.done = s.status.done ∧ u.status.err = s.status.err ∧
      u.status.errCode = s.status.errCode := by
  cases h with
  | bqSerialize =>
    obtain ⟨m, len, cur, ovf, e⟩ := appendFields_frame (blockFields s) s
    simp [e]
  | _ => exact ⟨rfl, rfl, rfl, rfl⟩

theorem Fails.status_eq {s u : State} {i : Instr} {code : ErrCode} (h : Fails s i code u) : u.status = s.status := by
  cases h <;> rfl

/-- The fields that no command writes (R116): ID, MEM_CAP, the host's registers, PIXBUF, two warnings, and the model's bus answer
and queue. -/
def SameInputs (s t : State) : Prop :=
  t.id = s.id ∧ t.memCap = s.memCap ∧ t.irqEn = s.irqEn ∧ t.cmd = s.cmd ∧ t.arg0 = s.arg0 ∧ t.imgW = s.imgW ∧
    t.imgH = s.imgH ∧ t.blkX = s.blkX ∧ t.blkY = s.blkY ∧ t.qcfg = s.qcfg ∧ t.pixbuf = s.pixbuf ∧
    t.resp = s.resp ∧ t.pending = s.pending ∧ t.status.cmdOvr = s.status.cmdOvr ∧ t.status.wrIgn = s.status.wrIgn

theorem Computes.sameInputs {s u : State} {i : Instr} (h : Computes s i u) : SameInputs s u := by
  cases h with
  | bqSerialize =>
    obtain ⟨m, len, cur, ovf, e⟩ := appendFields_frame (blockFields s) s
    rw [e]
    simp [SameInputs]
  | _ => simp [SameInputs, commitParsed, appendField_eq]

theorem Fails.sameInputs {s u : State} {i : Instr} {code : ErrCode} (h : Fails s i code u) : SameInputs s u := by
  cases h <;> simp [SameInputs]

/-- The record registers, RESBUF and REC_VALID (R50, R57). -/
def SameRecord (s t : State) : Prop :=
  t.qb = s.qb ∧ t.resbuf = s.resbuf ∧ t.status.recValid = s.status.recValid

theorem Computes.sameRecord {s u : State} {i : Instr} (h : Computes s i u) (notEncode : i ≠ .bqEncode)
    (notDeserialize : i ≠ .bqDeserialize) : SameRecord s u := by
  cases h with
  | bqEncode => exact absurd rfl notEncode
  | bqDeserialize => exact absurd rfl notDeserialize
  | bqSerialize =>
    obtain ⟨m, len, cur, ovf, e⟩ := appendFields_frame (blockFields s) s
    rw [e]
    simp [SameRecord]
  | _ => exact ⟨rfl, rfl, rfl⟩

theorem Fails.sameRecord {s u : State} {i : Instr} {code : ErrCode} (h : Fails s i code u) : SameRecord s u := by
  cases h <;> exact ⟨rfl, rfl, rfl⟩

theorem Computes.result_eq {s u : State} {i : Instr} (h : Computes s i u)
    (noResult : ¬ (i = .ctFwd ∨ i = .ctInv ∨ ∃ n, i = .buRead n)) : u.result = s.result := by
  cases h with
  | ctFwd => exact absurd (.inl rfl) noResult
  | ctInv => exact absurd (.inr (.inl rfl)) noResult
  | buRead => exact absurd (.inr (.inr ⟨_, rfl⟩)) noResult
  | bqSerialize =>
    obtain ⟨m, len, cur, ovf, e⟩ := appendFields_frame (blockFields s) s
    rw [e]
  | _ => rfl

theorem Fails.result_eq {s u : State} {i : Instr} {code : ErrCode} (h : Fails s i code u) : u.result = s.result := by
  cases h <;> rfl

/-- Settles O41: a completion and an error each set one of the two bits that the issue cleared. -/
theorem completionSetsExactlyOneOfDoneAndErr : Obligations.CompletionSetsExactlyOneOfDoneAndErr := by
  intro i w s t h
  cases exec_ends h with
  | completed computed =>
    obtain ⟨-, -, err, errCode⟩ := computed.status_eq
    simp [err, errCode]
  | failed pos failure => simp [failure.status_eq, failure.code_ne]

/-- Settles O44: a computation that writes RESULT is one of the three, and no failure writes it. -/
theorem resultIsWrittenByThreeCommandsOnly : Obligations.ResultIsWrittenByThreeCommandsOnly := by
  refine ⟨rfl, fun i s t h => ?_⟩
  cases exec_ends h with
  | completed computed =>
    refine ⟨fun _ noErr err => ?_, computed.result_eq⟩
    obtain ⟨-, -, sameErr, -⟩ := computed.status_eq
    rw [complete_status_err, sameErr, noErr] at err
    exact absurd err Bool.false_ne_true
  | failed pos failure => exact ⟨fun _ _ _ => failure.result_eq, fun _ => failure.result_eq⟩

/-- Settles O45: neither the computation nor the recording of its end writes an input. -/
theorem commandsKeepTheirInputs : Obligations.CommandsKeepTheirInputs := by
  intro i s t h
  cases exec_ends h with
  | completed computed => exact computed.sameInputs
  | failed pos failure => exact failure.sameInputs

/-- Settles O46: a computation does not touch ERR, so the second case of the frame is a failure. -/
theorem onlyTwoCommandsWriteTheRecord : Obligations.OnlyTwoCommandsWriteTheRecord := by
  intro i s t h frame
  cases exec_ends h with
  | completed computed =>
    rcases frame with ⟨notEncode, notDeserialize⟩ | ⟨noErr, err⟩
    · exact computed.sameRecord notEncode notDeserialize
    · obtain ⟨-, -, sameErr, -⟩ := computed.status_eq
      rw [complete_status_err, sameErr, noErr] at err
      exact absurd err Bool.false_ne_true
  | failed pos failure => exact failure.sameRecord

/-! ## When a command stops -/

/-- The fault of a command, if it stops in one (log 12): the checks of its parameters come first. -/
def stopOf (s : State) : Instr → Option Fault
  | .bqSerialize =>
    if s.status.recValid = true ∧ nbits s + serialLength s.qb ≤ 8 * s.cap ∧ (8 < s.qb.dimW.toNat ∨ 8 < s.qb.dimH.toNat)
    then some .beyondBuffer else none
  | .bqDeserialize => if geomOk s = true ∧ s.cap < s.aLen.toNat then some .beyondMemory else none
  | .buRead n => if (1 ≤ n ∧ n ≤ 32) ∧ s.cap < s.aLen.toNat then some .beyondMemory else none
  | .rleEnc => if s.cap < s.aLen.toNat then some .beyondMemory else none
  | .rleDec => if s.cap < s.bLen.toNat then some .beyondMemory else none
  | _ => none

theorem widthOk_iff {n : Nat} : widthOk n = true ↔ 1 ≤ n ∧ n ≤ 32 := by simp [widthOk]

/-- An outcome is this fault, or a next state. -/
def StopsAs (o : Host.Outcome State Fault Refusal) : Option Fault → Prop
  | some f => o = .fault f
  | none => Ran o

@[simp] theorem ran_next (t : State) : Ran (.next t) := ⟨t, rfl⟩

theorem ran_ite {p : Prop} [Decidable p] {a b : Host.Outcome State Fault Refusal} (ha : Ran a) (hb : Ran b) :
    Ran (if p then a else b) := by
  split <;> assumption

theorem needStream_stopsAs {s : State} {go : Host.Outcome State Fault Refusal} (ran : Ran go) :
    StopsAs (needStream s go) (if s.cap < s.aLen.toNat then some .beyondMemory else none) := by
  rcases needStream_cases s go with ⟨fits, e⟩ | ⟨beyond, e⟩
  · rw [e, if_neg fits.not_gt]
    exact ran
  · rw [e, if_pos beyond]
    rfl

theorem needChunks_stopsAs {s : State} {go : Host.Outcome State Fault Refusal} (ran : Ran go) :
    StopsAs (needChunks s go) (if s.cap < s.bLen.toNat then some .beyondMemory else none) := by
  rcases needChunks_cases s go with ⟨fits, e⟩ | ⟨beyond, e⟩
  · rw [e, if_neg fits.not_gt]
    exact ran
  · rw [e, if_pos beyond]
    rfl

theorem execBqSerialize_stopsAs (s : State) : StopsAs (execBqSerialize s) (stopOf s .bqSerialize) := by
  unfold execBqSerialize
  by_cases record : s.status.recValid = true
  · by_cases full : 8 * s.cap < nbits s + serialLength s.qb
    · simp [stopOf, StopsAs, record, full, full.not_ge]
    · by_cases large : 8 < s.qb.dimW.toNat ∨ 8 < s.qb.dimH.toNat
      · simp [stopOf, StopsAs, record, full, large, not_lt.mp full]
      · simp [stopOf, StopsAs, record, full, large]
  · simp [stopOf, StopsAs, record]

theorem execBqDeserialize_stopsAs (s : State) : StopsAs (execBqDeserialize s) (stopOf s .bqDeserialize) := by
  unfold execBqDeserialize
  by_cases geom : geomOk s = true
  · simpa [stopOf, geom] using needStream_stopsAs (s := s) (settle_ran s _)
  · simp [stopOf, StopsAs, geom]

theorem execBuRead_stopsAs (n : Nat) (s : State) : StopsAs (execBuRead n s) (stopOf s (.buRead n)) := by
  unfold execBuRead
  by_cases width : widthOk n = true
  · rw [if_neg (by simp [width])]
    simp only [stopOf, widthOk_iff.mp width, and_self, true_and]
    exact needStream_stopsAs (ran_ite (ran_next _) (settle_ran s _))
  · simp [stopOf, StopsAs, width, widthOk_iff.not.mp width]

theorem execRleDec_stopsAs (s : State) : StopsAs (execRleDec s) (stopOf s .rleDec) := by
  refine needChunks_stopsAs ?_
  split <;> exact ran_next _

/-- A command stops in the fault of `stopOf`, or reaches a next state. -/
theorem exec_stopsAs (s : State) (i : Instr) : StopsAs (exec i s) (stopOf s i) := by
  cases i with
  | nop => exact ran_next _
  | ctFwd => exact ran_next _
  | ctInv => exact ran_next _
  | bpClear => exact ran_next _
  | bqEncode => exact ran_ite (ran_next _) (ran_next _)
  | bqDecode => exact ran_ite (ran_next _) (ran_next _)
  | bpWrite n => exact ran_ite (ran_next _) (ran_ite (ran_next _) (ran_next _))
  | bqSerialize => exact execBqSerialize_stopsAs s
  | bqDeserialize => exact execBqDeserialize_stopsAs s
  | buRead n => exact execBuRead_stopsAs n s
  | rleEnc => exact needStream_stopsAs (ran_ite (ran_next _) (ran_next _))
  | rleDec => exact execRleDec_stopsAs s

theorem exec_eq_fault_iff {s : State} {i : Instr} {f : Fault} : exec i s = .fault f ↔ stopOf s i = some f := by
  have stops := exec_stopsAs s i
  cases stop : stopOf s i with
  | some g =>
    rw [stop] at stops
    simp [show exec i s = .fault g from stops]
  | none =>
    rw [stop] at stops
    obtain ⟨t, ran⟩ := stops
    simp [ran]

theorem exec_ne_refused (s : State) (i : Instr) (r : Refusal) : exec i s ≠ .refused r := by
  have stops := exec_stopsAs s i
  intro refused
  rw [refused] at stops
  cases stop : stopOf s i with
  | some g => rw [stop] at stops; exact absurd stops nofun
  | none => rw [stop] at stops; obtain ⟨t, ran⟩ := stops; cases ran

/-- Settles O43: `stopOf` lists the commands that can stop, and when. -/
theorem commandsStopOnlyBeyondTheirMemories : Obligations.CommandsStopOnlyBeyondTheirMemories := by
  intro i s
  refine ⟨exec_ne_refused s i, ?_, ?_⟩
  · rw [exec_eq_fault_iff]
    cases i <;> simp [stopOf, and_assoc]
  · rw [exec_eq_fault_iff]
    cases i with
    | bqSerialize => simp only [stopOf, Option.ite_none_right_eq_some, and_true, true_and]
    | _ => simp [stopOf]

end Sys2Proof.Machine
end

section
/-! O8, O48, O49, O51, O53 to O56: what the host sees and does on the bus (10_state R31 to R68, 20_memory R80 to R90,
70_reset_and_hazards R320 to R332), the resets among it. -/

namespace Sys2Proof.Machine

/-! ## Bus accesses, idle and busy -/

theorem busRead_idle {s : State} (idle : s.status.busy = false) (x : Target) :
    busRead s x = { s with resp := .readDone (readTarget s x) false } := by
  simp [busRead, idle]

theorem busRead_steady (s : State) {x : Target} (steady : x.steady = true) :
    busRead s x = { s with resp := .readDone (readTarget s x) false } := by
  simp [busRead, steady]

theorem busRead_free {s : State} (busy : s.status.busy = true) {x : Target} (unsteady : x.steady = false) :
    busRead s x = { s with resp := .readDone (Config.freeBits 32 s.draws 0) false, draws := s.draws + 1 } := by
  simp [busRead, busy, unsteady]

theorem steady_iff {x : Target} : x.steady = true ↔ x = .reg .id ∨ x = .reg .ctrl ∨ x = .reg .status ∨ x = .reg .memCap := by
  simp [Target.steady]

theorem busWrite_idle {s : State} (idle : s.status.busy = false) (v : Word) (strb : BitVec 4) (x : Target) :
    busWrite v strb s x = { writeIdle v strb s x with resp := .writeDone false } := by
  simp [busWrite, idle]

theorem busWrite_busy {s : State} (busy : s.status.busy = true) (v : Word) (strb : BitVec 4) (x : Target) :
    busWrite v strb s x = { writeBusy v s x with resp := .writeDone false } := by
  simp [busWrite, busy]

/-- CTRL and STATUS are written alike, idle or busy (R330). -/
theorem busWrite_ctrl (v : Word) (strb : BitVec 4) (s : State) :
    busWrite v strb s (.reg .ctrl) = { writeCtrl v s with resp := .writeDone false } := by
  simp [busWrite, writeBusy, writeIdle, writeReg]

theorem busWrite_status (v : Word) (strb : BitVec 4) (s : State) :
    busWrite v strb s (.reg .status) = { writeStatus v s with resp := .writeDone false } := by
  simp [busWrite, writeBusy, writeIdle, writeReg]

/-- Settles O8: a CMD write is `issue` while idle and sets CMD_OVR while BUSY. -/
theorem cmdWriteIssuesOnlyWhenIdle : Obligations.CmdWriteIssuesOnlyWhenIdle := by
  refine ⟨rfl, fun s v => ⟨fun idle => ⟨?_, ?_⟩, fun busy => ?_⟩⟩
  · calc transact ⟨true, 0x00C, v, 0xF⟩ s
      _ = busWrite v 0xF s (.reg .cmd) := transact_writeReg s (r := .cmd) rfl v
      _ = { issue v s with resp := .writeDone false } := busWrite_idle idle _ _ _
  · calc (transact ⟨false, 0x00C, 0, 0⟩ s).resp
      _ = (busRead s (.reg .cmd)).resp := congrArg State.resp (transact_readReg s .cmd 0 0)
      _ = .readDone s.cmd false := congrArg State.resp (busRead_idle idle _)
  · calc transact ⟨true, 0x00C, v, 0xF⟩ s
      _ = busWrite v 0xF s (.reg .cmd) := transact_writeReg s (r := .cmd) rfl v
      _ = { s with resp := .writeDone false, status := { s.status with cmdOvr := true } } := busWrite_busy busy _ _ _

/-- Settles O49: the four registers are the steady targets. -/
theorem busyReadsAreCurrentForFourRegistersOnly : Obligations.BusyReadsAreCurrentForFourRegistersOnly := by
  intro s busy
  have current (r : Reg) (steady : (Target.reg r).steady = true) (v : Word) (strb : BitVec 4) :
      (transact ⟨false, BitVec.ofNat 22 r.offset, v, strb⟩ s).resp = .readDone (readReg s r) false := by
    rw [transact_readReg, busRead_steady s steady]
    rfl
  refine ⟨current .id rfl 0 0, ?_, current .status rfl 0 0, current .memCap rfl 0 0, ?_⟩
  · refine (current .ctrl rfl 0 0).trans ?_
    cases irqEn : s.irqEn <;> simp [readReg, flagBit, irqEn]
  · intro addr x reached notId notCtrl notStatus notMemCap
    have unsteady : x.steady = false := by
      rw [Bool.eq_false_iff, Ne, steady_iff]
      simp [notId, notCtrl, notStatus, notMemCap]
    rw [transact_of_access reached]
    exact busRead_free busy unsteady

/-! ## What a read answers -/

theorem transact_error {t : Transaction} {s : State} {e : BusError} (h : access s.cap t = .error e) :
    transact t s = { s with resp := if t.we then .writeDone true else .readDone 0 true } := by
  simp [transact, h]

/-- A read changes the answer and, where it answers a free value, the count of draws (R89). -/
theorem transact_read (t : Transaction) (s : State) (read : t.we = false) :
    ∃ (r : BusResponse) (n : Nat), transact t s = { s with resp := r, draws := n } ∧ (s.status.busy = false → n = s.draws) := by
  cases reached : access s.cap t with
  | error e => exact ⟨_, s.draws, transact_error reached, fun _ => rfl⟩
  | ok x =>
    rw [transact_of_access reached, if_neg (by simp [read])]
    cases busy : s.status.busy with
    | false => exact ⟨_, s.draws, busRead_idle busy x, fun _ => rfl⟩
    | true =>
      cases steady : x.steady with
      | true => exact ⟨_, s.draws, busRead_steady s steady, nofun⟩
      | false => exact ⟨_, s.draws + 1, busRead_free busy steady, nofun⟩

/-- An idle read of a register answers the number that the register reads as. -/
theorem readsAs_reg {s : State} (idle : s.status.busy = false) (r : Reg) {n : Nat} (h : (readReg s r).toNat = n) :
    ReadsAs s r.offset n := by
  intro v strb
  rw [transact_readReg, busRead_idle idle, ← h, BitVec.ofNat_toNat, BitVec.setWidth_eq]
  rfl

theorem readsAs_of_access {s : State} (idle : s.status.busy = false) {a : Nat} {x : Target} {n : Nat}
    (reached : ∀ v strb, access s.cap ⟨false, BitVec.ofNat 22 a, v, strb⟩ = .ok x) (h : readTarget s x = BitVec.ofNat 32 n) :
    ReadsAs s a n := by
  intro v strb
  rw [transact_of_access (reached v strb), ← h]
  exact busRead_idle idle x

/-- Concatenated fields as a number, the lower field first. -/
theorem toNat_append_eq_add {m n : Nat} (x : BitVec m) (y : BitVec n) : (x ++ y).toNat = y.toNat + x.toNat * 2 ^ n := by
  rw [BitVec.toNat_append, ← Nat.shiftLeft_add_eq_or_of_lt y.isLt, Nat.shiftLeft_eq, Nat.add_comm]

@[simp] theorem toNat_flagBit (b : Bool) : (flagBit b).toNat = b.toNat := by
  cases b <;> rfl

/-- STATUS as a number (R34). -/
theorem toNat_statusWord (t : Status) :
    t.word.toNat = t.busy.toNat + 2 * t.done.toNat + 4 * t.err.toNat + 8 * t.fieldOvf.toNat + 16 * t.cmdOvr.toNat +
      32 * t.wrIgn.toNat + 256 * t.errCode.code.toNat + 4096 * t.recValid.toNat := by
  simp only [Status.word, toNat_append_eq_add, toNat_flagBit, BitVec.toNat_ofNat]
  omega

/-- A_NBITS fits the 24 bits of its register (R65). -/
theorem nbits_lt (s : State) : nbits s < 2 ^ 24 := by
  have len : s.aLen.toNat < 2 ^ 21 := s.aLen.isLt
  have cur : s.aCur.toNat < 2 ^ 3 := s.aCur.isLt
  unfold nbits
  split <;> omega

/-- A register that is one field, zero-extended. -/
theorem readsAs_field {s : State} (idle : s.status.busy = false) (r : Reg) {w : Nat} {x : BitVec w}
    (h : readReg s r = x.setWidth 32) (hw : w ≤ 32) : ReadsAs s r.offset x.toNat :=
  readsAs_reg idle r (by rw [h, BitVec.toNat_setWidth_of_le hw])

theorem toNat_readReg_ctrl (s : State) : (readReg s .ctrl).toNat = s.irqEn.toNat := by
  rw [readReg, BitVec.toNat_setWidth_of_le (by decide), toNat_flagBit]

theorem toNat_readReg_status {s : State} (idle : s.status.busy = false) :
    (readReg s .status).toNat = 2 * s.status.done.toNat + 4 * s.status.err.toNat + 8 * s.status.fieldOvf.toNat +
      16 * s.status.cmdOvr.toNat + 32 * s.status.wrIgn.toNat + 256 * s.status.errCode.code.toNat +
      4096 * s.status.recValid.toNat := by
  rw [readReg, toNat_statusWord, idle, Bool.toNat_false, Nat.zero_add]

theorem toNat_readReg_qcfg (s : State) : (readReg s .qcfg).toNat =
    s.qcfg.blockSize.toNat + 256 * s.qcfg.yDeltaBits.toNat + 65536 * s.qcfg.crcbBits.toNat := by
  simp only [readReg, toNat_append_eq_add, BitVec.toNat_ofNat]
  omega

theorem toNat_readReg_qbPos (s : State) : (readReg s .qbPos).toNat = s.qb.posX.toNat + 65536 * s.qb.posY.toNat := by
  simp only [readReg, toNat_append_eq_add]
  omega

theorem toNat_readReg_qbDim (s : State) : (readReg s .qbDim).toNat = s.qb.dimW.toNat + 256 * s.qb.dimH.toNat := by
  simp only [readReg, toNat_append_eq_add, BitVec.toNat_ofNat]
  omega

theorem toNat_readReg_qbBits (s : State) : (readReg s .qbBits).toNat =
    s.qb.ydBits.toNat + 256 * s.qb.cBits.toNat + 65536 * s.qb.rbn.toNat + 16777216 * s.qb.shift.toNat := by
  simp only [readReg, toNat_append_eq_add, BitVec.toNat_ofNat]
  omega

theorem toNat_readReg_qbLuma (s : State) : (readReg s .qbLuma).toNat = s.qb.baseY.toNat + 256 * s.qb.maxDelta.toNat := by
  simp only [readReg, toNat_append_eq_add, BitVec.toNat_ofNat]
  omega

theorem toNat_readReg_qbChroma (s : State) : (readReg s .qbChroma).toNat = s.qb.avgCr.toNat + 256 * s.qb.avgCb.toNat := by
  simp only [readReg, toNat_append_eq_add, BitVec.toNat_ofNat]
  omega

theorem toNat_readReg_aNbits (s : State) : (readReg s .aNbits).toNat = nbits s := by
  rw [readReg, BitVec.toNat_setWidth_of_le (by decide), BitVec.toNat_ofNat, Nat.mod_eq_of_lt (nbits_lt s)]

/-- Settles O48: each register as a number, and each buffer entry. -/
theorem readsAnswerTheStateAndChangeNothing : Obligations.ReadsAnswerTheStateAndChangeNothing := by
  refine ⟨transact_read, fun s idle => ⟨?_, ?_, ?_, ?_, fun i hi => ⟨?_, ?_, ?_⟩⟩⟩
  · exact ⟨readsAs_reg idle .id rfl, readsAs_reg idle .ctrl (toNat_readReg_ctrl s),
      readsAs_reg idle .status (toNat_readReg_status idle), readsAs_reg idle .cmd rfl, readsAs_reg idle .arg0 rfl,
      readsAs_reg idle .result rfl, readsAs_reg idle .errCmd rfl, readsAs_field idle .errPos rfl (by decide)⟩
  · exact ⟨readsAs_field idle .imgW rfl (by decide), readsAs_field idle .imgH rfl (by decide),
      readsAs_field idle .blkX rfl (by decide), readsAs_field idle .blkY rfl (by decide),
      readsAs_reg idle .qcfg (toNat_readReg_qcfg s)⟩
  · exact ⟨readsAs_reg idle .qbPos (toNat_readReg_qbPos s), readsAs_reg idle .qbDim (toNat_readReg_qbDim s),
      readsAs_reg idle .qbBits (toNat_readReg_qbBits s), readsAs_reg idle .qbLuma (toNat_readReg_qbLuma s),
      readsAs_reg idle .qbChroma (toNat_readReg_qbChroma s), readsAs_field idle .qbCsize rfl (by decide)⟩
  · exact ⟨readsAs_field idle .aLen rfl (by decide), readsAs_field idle .aCur rfl (by decide),
      readsAs_reg idle .aNbits (toNat_readReg_aNbits s), readsAs_field idle .rdPos rfl (by decide),
      readsAs_field idle .bLen rfl (by decide), readsAs_field idle .memCap rfl (by decide)⟩
  · exact readsAs_of_access idle (access_pixbuf s.cap hi false) (BitVec.ofNat_toNat ..).symm
  · exact readsAs_of_access idle (access_outbuf s.cap hi false) (BitVec.ofNat_toNat ..).symm
  · exact readsAs_of_access idle (access_resbuf s.cap hi false) (BitVec.ofNat_toNat ..).symm

/-! ## What a write stores -/

@[simp] theorem getLsbD_flagBit (b : Bool) (j : Nat) : (flagBit b).getLsbD j = (decide (j = 0) && b) := by
  cases b <;> simp [flagBit]

/-- The bits of STATUS as a word (R34). -/
theorem getLsbD_statusWord (t : Status) {i : Nat} (hi : i < 32) :
    t.word.getLsbD i =
      if i = 0 then t.busy else if i = 1 then t.done else if i = 2 then t.err else if i = 3 then t.fieldOvf
      else if i = 4 then t.cmdOvr else if i = 5 then t.wrIgn else if i < 8 then false
      else if i < 12 then t.errCode.code.getLsbD (i - 8) else if i = 12 then t.recValid else false := by
  simp only [Status.word, BitVec.getLsbD_append, getLsbD_flagBit, BitVec.getLsbD_zero]
  interval_cases i <;> simp

/-- Settles O51: the words agree bit by bit, the mask naming bits 1 to 5. -/
theorem statusWriteClearsOnlyTheNamedBits : Obligations.StatusWriteClearsOnlyTheNamedBits := by
  intro s v
  refine ⟨s.status.acknowledge v, ?_, ?_, rfl, rfl, rfl⟩
  · exact (transact_writeReg s (r := .status) rfl v).trans (busWrite_status v 0xF s)
  · refine BitVec.eq_of_getLsbD_eq fun i hi => ?_
    rw [BitVec.getLsbD_and, getLsbD_statusWord _ hi, getLsbD_statusWord _ hi]
    interval_cases i <;> simp [Status.acknowledge]

/-- Three bytes in one entry, read back one at a time. -/
theorem extractLsb'_append_bytes (x2 x1 x0 : Byte) :
    (x2 ++ x1 ++ x0).extractLsb' 0 8 = x0 ∧ (x2 ++ x1 ++ x0).extractLsb' 8 8 = x1 ∧ (x2 ++ x1 ++ x0).extractLsb' 16 8 = x2 := by
  refine ⟨?_, ?_, ?_⟩ <;> refine BitVec.eq_of_getLsbD_eq fun i hi => ?_ <;>
    simp only [BitVec.getLsbD_extractLsb', BitVec.getLsbD_append]
  · simp [hi]
  · simp [hi]
  · simp [hi, show ¬ 16 + i < 8 by omega, show ¬ 16 + i - 8 < 8 by omega, show 16 + i - 8 - 8 = i by omega]

/-- A PIXBUF write as it stores the entry's bytes: the data where the strobe is 1, the old byte elsewhere (R83). -/
theorem byte_get_storePixel (v : Word) (strb : BitVec 4) (i : Nat) (m : Memory 24) {j : Nat} (hj : j < 3) :
    ((storePixel v strb i m).get i).extractLsb' (8 * j) 8 = strobed v strb j ((m.get i).extractLsb' (8 * j) 8) := by
  unfold storePixel
  split
  next noStrobe =>
    have off : strb.getLsbD j = false := by
      have bit : (strb.extractLsb' 0 3).getLsbD j = false := by rw [noStrobe]; exact BitVec.getLsbD_zero
      simpa [hj] using bit
    simp [strobed, off]
  next =>
    obtain ⟨e0, e1, e2⟩ := extractLsb'_append_bytes (strobed v strb 2 ((m.get i).extractLsb' 16 8))
      (strobed v strb 1 ((m.get i).extractLsb' 8 8)) (strobed v strb 0 ((m.get i).extractLsb' 0 8))
    rw [Memory.get_set_same]
    interval_cases j
    · exact e0
    · exact e1
    · exact e2

theorem get_storePixel_other (v : Word) (strb : BitVec 4) {i a : Nat} (m : Memory 24) (h : a ≠ i) :
    (storePixel v strb i m).get a = m.get a := by
  unfold storePixel
  split
  · rfl
  · exact m.get_set_other h _

/-- Settles O53: the write is `storePixel` of the entry. -/
theorem pixbufWritesStoreThreeBytes : Obligations.PixbufWritesStoreThreeBytes := by
  intro s i v strb idle hi
  refine ⟨⟨storePixel v strb i s.pixbuf, ?_, fun j hj => byte_get_storePixel v strb i _ hj,
    fun a ha => get_storePixel_other v strb _ ha⟩, ?_⟩
  · rw [transact_of_access (access_pixbuf s.cap hi true v strb)]
    exact busWrite_idle idle v strb _
  · rw [transact_of_access (access_pixbuf s.cap hi false 0 0)]
    exact congrArg State.resp (busRead_idle idle _)

/-- A field of a written word, as a number modulo its width. -/
theorem extractLsb'_eq_ofNat (v : Word) (start len : Nat) : v.extractLsb' start len = BitVec.ofNat len (v.toNat / 2 ^ start) := by
  rw [BitVec.extractLsb', Nat.shiftRight_eq_div_pow]

/-- A length that the host writes (R64, R67). -/
theorem toNat_clampLen (s : State) (v : Word) : (clampLen s v).toNat = min (v.toNat % 2 ^ 21) s.cap := by
  rw [clampLen, extractLsb'_eq_ofNat, BitVec.toNat_ofNat, BitVec.toNat_ofNat, pow_zero, Nat.div_one]
  exact Nat.mod_eq_of_lt (by omega)

theorem clampLen_le_cap (s : State) (v : Word) : (clampLen s v).toNat ≤ s.cap := by
  rw [toNat_clampLen]
  exact min_le_right _ _

/-- A write of a register other than CTRL and STATUS, which must find the engine idle. -/
theorem writeLeaves_reg {s t : State} (idle : s.status.busy = false) (r : Reg) (hr : r.readOnly = false) {v : Word}
    (h : writeReg v s r = t) : WriteLeaves s r.offset v t := by
  rw [WriteLeaves, transact_writeReg s hr, busWrite_idle idle, ← h]
  rfl

/-- Settles O54: each write stores the bits of its field, the lengths clamped. -/
theorem registerWritesStoreTheirFields : Obligations.RegisterWritesStoreTheirFields := by
  intro s v
  refine ⟨fun noReset => ?_, fun idle => ⟨⟨?_, ?_, ?_, ?_, ?_, ?_, ?_⟩, clampLen s v, clampLen s v, ?_, ?_, ?_, rfl, ?_⟩⟩
  · calc transact ⟨true, BitVec.ofNat 22 0x004, v, 0xF⟩ s
      _ = busWrite v 0xF s (.reg .ctrl) := transact_writeReg s (r := .ctrl) rfl v
      _ = { writeCtrl v s with resp := .writeDone false } := busWrite_ctrl v 0xF s
      _ = { s with irqEn := v.getLsbD 0, resp := .writeDone false } := by rw [writeCtrl, noReset]; rfl
  · exact writeLeaves_reg idle .arg0 rfl rfl
  · exact writeLeaves_reg idle .imgW rfl (by simp [writeReg, extractLsb'_eq_ofNat])
  · exact writeLeaves_reg idle .imgH rfl (by simp [writeReg, extractLsb'_eq_ofNat])
  · exact writeLeaves_reg idle .blkX rfl (by simp [writeReg, extractLsb'_eq_ofNat])
  · exact writeLeaves_reg idle .blkY rfl (by simp [writeReg, extractLsb'_eq_ofNat])
  · exact writeLeaves_reg idle .qcfg rfl (by simp [writeReg, extractLsb'_eq_ofNat])
  · exact writeLeaves_reg idle .rdPos rfl (by simp [writeReg, extractLsb'_eq_ofNat])
  · exact writeLeaves_reg idle .aLen rfl rfl
  · exact writeLeaves_reg idle .bLen rfl rfl
  · exact toNat_clampLen s v
  · exact if_pos rfl

/-! ## Resets -/

/-- Abandoning a command leaves the parameters, PIXBUF and the host's queue (R324). -/
theorem abandonWrites_frame (i : Instr) (s : State) :
    (abandonWrites i s).id = s.id ∧ (abandonWrites i s).memCap = s.memCap ∧ (abandonWrites i s).pixbuf = s.pixbuf ∧
      (abandonWrites i s).pending = s.pending := by
  cases i <;> exact ⟨rfl, rfl, rfl, rfl⟩

/-- Abandoning frees what the running command writes, or nothing (R324). -/
theorem abandon_cases (s : State) :
    ((s.status.busy = false ∨ ∃ e, decode s.cmd = .error e) ∧ abandon s = s) ∨
    ∃ i, s.status.busy = true ∧ decode s.cmd = .ok i ∧ abandon s = abandonWrites i s := by
  cases busy : s.status.busy with
  | false => exact .inl ⟨.inl rfl, by simp [abandon, busy]⟩
  | true =>
    cases decoded : decode s.cmd with
    | error e => exact .inl ⟨.inr ⟨e, rfl⟩, by simp [abandon, decoded]⟩
    | ok i => exact .inr ⟨i, rfl, rfl, by simp [abandon, busy, decoded]⟩

theorem softReset_eq (s : State) :
    softReset s =
      { State.reset with id := s.id, memCap := s.memCap, pixbuf := s.pixbuf, outbuf := (abandon s).outbuf,
                         resbuf := (abandon s).resbuf, memA := (abandon s).memA, memB := (abandon s).memB,
                         resp := (abandon s).resp, pending := s.pending, draws := (abandon s).draws } := by
  rw [softReset, resetRegisters]
  rcases abandon_cases s with ⟨-, e⟩ | ⟨i, -, -, e⟩
  · rw [e]
  · obtain ⟨id, memCap, pixbuf, pending⟩ := abandonWrites_frame i s
    rw [e, id, memCap, pixbuf, pending]

/-- Settles O55: the soft reset takes its memories from `abandon`. -/
theorem softResetKeepsMemoriesAndResetsRegisters : Obligations.SoftResetKeepsMemoriesAndResetsRegisters := by
  intro s v reset
  refine ⟨(abandon s).outbuf, (abandon s).resbuf, (abandon s).memA, (abandon s).memB, (abandon s).draws, ?_, ?_, ?_, ?_⟩
  · calc transact ⟨true, 0x004, v, 0xF⟩ s
      _ = busWrite v 0xF s (.reg .ctrl) := transact_writeReg s (r := .ctrl) rfl v
      _ = { writeCtrl v s with resp := .writeDone false } := busWrite_ctrl v 0xF s
      _ = { softReset s with resp := .writeDone false } := by rw [writeCtrl, if_pos reset]
      _ = _ := by rw [softReset_eq]
  · intro idle
    rcases abandon_cases s with ⟨-, e⟩ | ⟨i, busy, -, -⟩
    · simp [e]
    · simp [idle] at busy
  · intro i busy decoded
    rcases abandon_cases s with ⟨idle | ⟨e, illegal⟩, -⟩ | ⟨j, -, decoded', e⟩
    · simp [busy] at idle
    · simp [decoded] at illegal
    · obtain rfl : j = i := by simpa [decoded'] using decoded
      rw [e]
      cases j <;> simp [abandonWrites, Memory.unspecified]
  · intro e illegal
    rcases abandon_cases s with ⟨-, e⟩ | ⟨i, -, decoded, -⟩
    · simp [e]
    · simp [illegal] at decoded

/-- The registers of the reset state, and those after a pulse, have their R76 values. -/
theorem resetRegisters_reset : resetRegisters State.reset = State.reset := rfl

theorem resetRegisters_hardReset (s : State) : resetRegisters (hardReset s) = hardReset s := rfl

/-- A register with the reset value 0 reads 0 after a reset (R321). -/
theorem read_resetRegisters {s : State} {r : Reg} (zero : readReg (resetRegisters s) r = 0) (v : Word) (strb : BitVec 4) :
    (transact ⟨false, BitVec.ofNat 22 r.offset, v, strb⟩ (resetRegisters s)).resp = .readDone 0 false := by
  rw [transact_readReg, busRead_idle rfl, readTarget, zero]

theorem statusWord_reset : Status.reset.word = 0 := by decide

/-- Settles O56: the registers of both states have their R76 values, which is all that the clauses depend on. -/
theorem hardResetShowsTheEmptyMachine : Obligations.HardResetShowsTheEmptyMachine := by
  intro s t isReset
  obtain ⟨u, rfl⟩ : ∃ u, t = resetRegisters u := by
    rcases isReset with rfl | rfl
    · exact ⟨_, resetRegisters_reset.symm⟩
    · exact ⟨_, (resetRegisters_hardReset s).symm⟩
  refine ⟨read_resetRegisters (r := .status) statusWord_reset 0 0, read_resetRegisters (r := .ctrl) rfl 0 0,
    read_resetRegisters (r := .aNbits) rfl 0 0, read_resetRegisters (r := .bLen) rfl 0 0,
    read_resetRegisters (r := .rdPos) rfl 0 0, ?_, ?_⟩
  · rintro i (rfl | rfl) <;> exact ⟨_, rfl, rfl⟩
  · rintro i (rfl | rfl) <;> exact ⟨_, rfl, rfl⟩

end Sys2Proof.Machine
end

section
/-! O20, O24: what BQ_DECODE and BP_WRITE leave (41_block_quantizer R181 to R183, 42_bit_packer R202 to R205). -/

namespace Sys2Proof.Machine

/-- Settles O20: the entries that `fill` writes are the clauses' own. -/
theorem bqDecodeReconstructsTheBlock : Obligations.BqDecodeReconstructsTheBlock := by
  intro s record
  refine ⟨_, if_pos record, fun i hi => ?_⟩
  rw [Memory.get_fill _ hi]
  simp [inFootprint, decodePixel, decodeLuma, decodeChroma, Nat.shiftLeft_eq]

/-- A value overflows `n` bits exactly from `2 ^ n` on (R38). -/
theorem overflows_eq (v n : Nat) : overflows v n = decide (2 ^ n ≤ v) := by
  rw [overflows, Nat.shiftRight_eq_div_pow, Bool.eq_iff_iff, bne_iff_ne, decide_eq_true_iff, Ne,
    Nat.div_eq_zero_iff_lt (Nat.two_pow_pos n), not_lt]

/-- BP_WRITE with a legal width and room for its field (R204). -/
theorem execBpWrite_of_room {s : State} {n : Nat} (h1 : 1 ≤ n) (h32 : n ≤ 32) (room : nbits s + n ≤ 8 * s.cap) :
    execBpWrite n s = .next (complete (appendField s.arg0.toNat n s)) := by
  have width : widthOk n = true := widthOk_iff.mpr ⟨h1, h32⟩
  simp [execBpWrite, width, room.not_gt]

/-- Settles O24: one append, bit by bit (`streamBit_putBits`). -/
theorem bpWriteAppendsTheField : Obligations.BpWriteAppendsTheField := by
  intro s n h1 h32 capMax ⟨lenFits, cursor⟩ room
  have len : (lenAfter (nbits s) n s.aLen).toNat = (nbits s + n + 7) / 8 :=
    toNat_lenAfter (nbits s) n s.aLen (aLen_eq_of_cursor cursor) (by omega)
  refine ⟨putBits (nbits s) (s.arg0.toNat % 2 ^ n) n s.memA, lenAfter (nbits s) n s.aLen, BitVec.ofNat 3 ((nbits s + n) % 8),
    ?_, len, ?_, fun k hk => ?_, fun j hj => ?_, fun k hk opened covered => ?_, fun k hk kept => ?_, fun a ha => ?_⟩
  · rw [← overflows_eq]
    exact execBpWrite_of_room h1 h32 room
  · simp
  · rw [streamBit_putBits, if_pos hk]
  · rw [streamBit_putBits, if_neg (by omega), if_pos (by omega), Nat.add_sub_cancel_left, Nat.testBit_mod_two_pow]
    simp [hj, BitVec.getLsbD]
  · rw [len] at covered
    rw [streamBit_putBits, if_neg (by omega), if_neg (by omega), if_pos ⟨opened, by omega⟩]
  · rw [streamBit_putBits, if_neg (by omega), if_neg (by omega), if_neg (by omega)]
  · rcases ha with below | above
    · exact get_putBits_below _ _ _ _ below
    · exact get_putBits_above _ _ _ _ (len ▸ above)

end Sys2Proof.Machine
end

section
/-! For O58: the values of the block record (10_state R57) that BQ_ENCODE and BQ_DESERIALIZE commit are valid. -/

namespace Sys2Proof.Machine

/-- The values of a block that R57 lets a record hold. -/
structure BlockData.Valid (q : BlockData) : Prop where
  width : 1 ≤ q.w ∧ q.w ≤ 8
  height : 1 ≤ q.h ∧ q.h ≤ 8
  yDeltaBits : 1 ≤ q.d ∧ q.d ≤ 8
  crcbBits : 1 ≤ q.c ∧ q.c ≤ 8
  luma : q.baseY + q.maxDelta ≤ 255
  avgCr : q.avgCr < 2 ^ q.c
  avgCb : q.avgCb < 2 ^ q.c

/-! ## The commit -/

/-- The search that defines `rbn` stops at an exponent that is large enough. -/
theorem leastPower_le_of_le_two_pow {m b : Nat} (h : m ≤ 2 ^ b) (fuel : Nat) {start : Nat} (hs : start ≤ b) :
    leastPower m start fuel ≤ b := by
  induction fuel generalizing start with
  | zero => exact hs
  | succ n ih =>
    unfold leastPower
    split
    next => exact hs
    next small =>
      have : start ≠ b := by rintro rfl; exact small h
      exact ih (by omega)

theorem rbn_le_of_le_two_pow {m b : Nat} (h : m ≤ 2 ^ b) : rbn m ≤ b :=
  leastPower_le_of_le_two_pow h m (Nat.zero_le b)

/-- QB_CSIZE fits its 16 bits (R175). -/
theorem csize_le {n d : Nat} (hn : n ≤ 64) (hd : d ≤ 8) (maxDelta : Nat) : csize n d maxDelta ≤ 68 := by
  have bits : n * d ≤ 64 * 8 := Nat.mul_le_mul hn hd
  unfold csize ceilDiv
  split <;> omega

/-- Every field of a valid block fits its place in the record (R51 to R56). -/
theorem toNat_recordOf (s : State) {q : BlockData} (valid : q.Valid) :
    (recordOf s q).dimW.toNat = q.w ∧ (recordOf s q).dimH.toNat = q.h ∧ (recordOf s q).ydBits.toNat = q.d ∧
      (recordOf s q).cBits.toNat = q.c ∧ (recordOf s q).rbn.toNat = rbn q.maxDelta ∧
      (recordOf s q).shift.toNat = rbn q.maxDelta - q.d ∧ (recordOf s q).baseY.toNat = q.baseY ∧
      (recordOf s q).maxDelta.toNat = q.maxDelta ∧ (recordOf s q).avgCr.toNat = q.avgCr ∧
      (recordOf s q).avgCb.toNat = q.avgCb ∧ (recordOf s q).csize.toNat = csize (q.w * q.h) q.d q.maxDelta := by
  obtain ⟨⟨-, hw⟩, ⟨-, hh⟩, ⟨-, hd⟩, ⟨-, hc⟩, luma, avgCr, avgCb⟩ := valid
  have average : 2 ^ q.c ≤ 2 ^ 8 := Nat.pow_le_pow_right (by decide) hc
  have exponent : rbn q.maxDelta ≤ 8 := rbn_le_of_le_two_pow (by omega)
  have size : csize (q.w * q.h) q.d q.maxDelta ≤ 68 := csize_le (Nat.mul_le_mul hw hh) hd _
  simp only [recordOf, residualShift, BitVec.toNat_ofNat]
  refine ⟨?_, ?_, ?_, ?_, ?_, ?_, ?_, ?_, ?_, ?_, ?_⟩ <;> exact Nat.mod_eq_of_lt (by omega)

/-- The commit of a valid block leaves a valid record (R57); `flat` is R166 and R222 where MAXDELTA is 0. -/
theorem recordOk_commitRecord (s : State) {q : BlockData} (valid : q.Valid) {residual : Nat → Nat → Nat}
    (flat : q.maxDelta = 0 → ∀ row < q.h, ∀ col < q.w, residual row col = 0) :
    RecordOk (commitRecord s q residual) := by
  intro _
  obtain ⟨dimW, dimH, ydBits, cBits, rbn, shift, baseY, maxDelta, avgCr, avgCb, csize⟩ := toNat_recordOf s valid
  rw [commitRecord_qb, dimW, dimH, ydBits, cBits, rbn, shift, baseY, maxDelta, avgCr, avgCb, csize]
  refine ⟨⟨valid.width.1, valid.width.2, valid.height⟩, ⟨valid.yDeltaBits.1, valid.yDeltaBits.2, valid.crcbBits⟩, rfl, rfl,
    valid.luma, valid.avgCr, valid.avgCb, rfl, fun i hi outside => ?_, fun zero i hi => ?_⟩
  · rw [get_commitRecord s q residual hi, outside]
    rfl
  · have noDelta : q.maxDelta = 0 := by rw [← maxDelta, zero]; rfl
    rw [get_commitRecord s q residual hi]
    split
    next inside =>
      obtain ⟨col, row⟩ : i % 8 < q.w ∧ i / 8 < q.h := by simpa [inFootprint] using inside
      rw [flat noDelta _ row _ col]
      rfl
    next => rfl

/-! ## What BQ_ENCODE commits -/

theorem foldl_min_luma_le (l : List Ycc) (m : Nat) :
    l.foldl (fun m p => min m p.y) m ≤ m ∧ ∀ p ∈ l, l.foldl (fun m p => min m p.y) m ≤ p.y := by
  induction l generalizing m with
  | nil => simp
  | cons a rest ih =>
    obtain ⟨start, members⟩ := ih (min m a.y)
    refine ⟨start.trans (min_le_left _ _), fun p hp => ?_⟩
    rcases List.mem_cons.mp hp with rfl | hp
    · exact start.trans (min_le_right _ _)
    · exact members p hp

theorem le_foldl_max_luma (l : List Ycc) (m : Nat) :
    m ≤ l.foldl (fun m p => max m p.y) m ∧ ∀ p ∈ l, p.y ≤ l.foldl (fun m p => max m p.y) m := by
  induction l generalizing m with
  | nil => simp
  | cons a rest ih =>
    obtain ⟨start, members⟩ := ih (max m a.y)
    refine ⟨(le_max_left _ _).trans start, fun p hp => ?_⟩
    rcases List.mem_cons.mp hp with rfl | hp
    · exact (le_max_right _ _).trans start
    · exact members p hp

theorem foldl_max_luma_le {l : List Ycc} {b : Nat} (h : ∀ p ∈ l, p.y ≤ b) {m : Nat} (hm : m ≤ b) :
    l.foldl (fun m p => max m p.y) m ≤ b := by
  induction l generalizing m with
  | nil => exact hm
  | cons a rest ih => exact ih (fun p hp => h p (List.mem_cons_of_mem _ hp)) (max_le hm (h a List.mem_cons_self))

/-- A sum of channel values, each at most `b` (R168). -/
theorem foldl_add_le {l : List Ycc} {b : Nat} {f : Ycc → Nat} (h : ∀ p ∈ l, f p ≤ b) (t : Nat) :
    l.foldl (fun t p => t + f p) t ≤ t + b * l.length := by
  induction l generalizing t with
  | nil => simp
  | cons a rest ih =>
    have first := h a List.mem_cons_self
    have others := ih (fun p hp => h p (List.mem_cons_of_mem _ hp)) (t + f a)
    rw [List.foldl_cons, List.length_cons, Nat.mul_succ]
    omega

theorem minLuma_le {l : List Ycc} {p : Ycc} (h : p ∈ l) : minLuma l ≤ p.y := (foldl_min_luma_le l 255).2 p h
theorem minLuma_le_255 (l : List Ycc) : minLuma l ≤ 255 := (foldl_min_luma_le l 255).1
theorem le_maxLuma {l : List Ycc} {p : Ycc} (h : p ∈ l) : p.y ≤ maxLuma l := (le_foldl_max_luma l 0).2 p h

/-- Every channel of a transformed pixel is at most 255 (R140). -/
theorem toYCrCb_le (c : Rgb) : (toYCrCb c).y ≤ 255 ∧ (toYCrCb c).cr ≤ 255 ∧ (toYCrCb c).cb ≤ 255 := by
  simp only [toYCrCb, luma, clamp8_le, and_self]

theorem mem_blockYcc {s : State} {p : Ycc} : p ∈ blockYcc s ↔ ∃ i ∈ footprint (geomW s) (geomH s), pixelYcc s i = p :=
  List.mem_map

theorem blockYcc_le {s : State} {p : Ycc} (h : p ∈ blockYcc s) : p.y ≤ 255 ∧ p.cr ≤ 255 ∧ p.cb ≤ 255 := by
  obtain ⟨i, -, rfl⟩ := mem_blockYcc.mp h
  exact toYCrCb_le _

theorem length_blockYcc (s : State) : (blockYcc s).length = geomW s * geomH s := by
  rw [blockYcc, List.length_map, length_footprint]

/-- An average of values in 0..255, cut to `c` bits, fits them (R169). -/
theorem chromaAverage_lt {sum n c : Nat} (h : sum ≤ 255 * n) (hc : c ≤ 8) : chromaAverage sum n c < 2 ^ c := by
  have average : sum / n ≤ 255 := Nat.div_le_of_le_mul (by rw [Nat.mul_comm]; exact h)
  rw [chromaAverage, Nat.shiftRight_eq_div_pow, Nat.div_lt_iff_lt_mul (Nat.two_pow_pos _), ← Nat.pow_add,
    Nat.add_sub_cancel' hc]
  omega

/-- An accepted geometry has a block of 1..8 by 1..8 pixels (R160, R162). -/
theorem geom_range {s : State} (geom : geomOk s = true) : (1 ≤ geomW s ∧ geomW s ≤ 8) ∧ (1 ≤ geomH s ∧ geomH s ≤ 8) := by
  simp only [geomOk, Bool.and_eq_true, decide_eq_true_eq, List.contains_eq_mem, List.mem_cons, List.not_mem_nil,
    or_false] at geom
  obtain ⟨⟨⟨⟨-, -⟩, blkX⟩, blkY⟩, size⟩ := geom
  unfold geomW geomH
  omega

theorem bits_range {s : State} (bits : bitsOk s = true) :
    (1 ≤ s.qcfg.yDeltaBits.toNat ∧ s.qcfg.yDeltaBits.toNat ≤ 8) ∧ (1 ≤ s.qcfg.crcbBits.toNat ∧ s.qcfg.crcbBits.toNat ≤ 8) := by
  simpa [bitsOk, and_assoc] using bits

theorem encodeData_valid {s : State} (geom : geomOk s = true) (bits : bitsOk s = true) : (encodeData s).Valid := by
  obtain ⟨width, height⟩ := geom_range geom
  obtain ⟨yDeltaBits, crcbBits⟩ := bits_range bits
  have maxLuma_le : maxLuma (blockYcc s) ≤ 255 := foldl_max_luma_le (fun p hp => (blockYcc_le hp).1) (Nat.zero_le _)
  have minLuma_le := minLuma_le_255 (blockYcc s)
  have sumCr_le : sumCr (blockYcc s) ≤ 255 * (geomW s * geomH s) := by
    rw [← length_blockYcc, ← Nat.zero_add (255 * _)]
    exact foldl_add_le (fun p hp => (blockYcc_le hp).2.1) 0
  have sumCb_le : sumCb (blockYcc s) ≤ 255 * (geomW s * geomH s) := by
    rw [← length_blockYcc, ← Nat.zero_add (255 * _)]
    exact foldl_add_le (fun p hp => (blockYcc_le hp).2.2) 0
  refine ⟨width, height, yDeltaBits, crcbBits, ?_, chromaAverage_lt sumCr_le crcbBits.2, chromaAverage_lt sumCb_le crcbBits.2⟩
  simp only [encodeData]
  omega

/-- Where MAXDELTA is 0 every residual is 0 (R166). -/
theorem encodeResidual_of_flat {s : State} (flat : (encodeData s).maxDelta = 0) {row col : Nat} (hr : row < geomH s)
    (hc : col < geomW s) : encodeResidual s row col = 0 := by
  have member : pixelYcc s (row * 8 + col) ∈ blockYcc s := mem_blockYcc.mpr ⟨_, mem_footprint.mpr ⟨row, col, hr, hc, rfl⟩, rfl⟩
  have above : (pixelYcc s (row * 8 + col)).y - (encodeData s).baseY = 0 := by
    have high := le_maxLuma member
    simp only [encodeData] at flat ⊢
    omega
  rw [encodeResidual, above, Nat.zero_shiftRight]

/-! ## What BQ_DESERIALIZE commits -/

theorem widthTagOk_iff {v : Nat} : widthTagOk v = true ↔ 1 ≤ v ∧ v ≤ 8 := by simp [widthTagOk]

/-- A block that BQ_DESERIALIZE reads to its end is valid, and its residuals are 0 where MAXDELTA is (R221, R222). -/
theorem parseBlock_valid {s : State} {b : ParsedBlock} (geom : geomOk s = true) (parsed : parseBlock s = .ok b) :
    b.data.Valid ∧ (b.data.maxDelta = 0 → b.residuals = List.replicate (geomW s * geomH s) 0) := by
  simp only [parseBlock, bind_eq_ok_iff] at parsed
  obtain ⟨⟨c, p1⟩, hc, ⟨acr, p2⟩, hacr, ⟨acb, p3⟩, hacb, ⟨d, p4⟩, hd, ⟨base, p5⟩, -, ⟨md, p6⟩, hmd, rest⟩ := parsed
  obtain ⟨width, height⟩ := geom_range geom
  have crcbBits := widthTagOk_iff.mp (fieldWhere_ok hc).1
  have yDeltaBits := widthTagOk_iff.mp (fieldWhere_ok hd).1
  have luma : base + md ≤ 255 := by simpa using (fieldWhere_ok hmd).1
  split at rest
  next delta =>
    obtain ⟨⟨res, p7⟩, -, committed⟩ := bind_eq_ok_iff.mp rest
    cases committed
    exact ⟨⟨width, height, yDeltaBits, crcbBits, luma, field_ok_lt hacr, field_ok_lt hacb⟩,
      fun zero => absurd zero (Nat.ne_of_gt delta)⟩
  next =>
    cases rest
    exact ⟨⟨width, height, yDeltaBits, crcbBits, luma, field_ok_lt hacr, field_ok_lt hacb⟩, fun _ => rfl⟩

end Sys2Proof.Machine
end

section
/-! O58, O59: every step from a state that meets the invariant reaches a next state, which meets it (10_state R57, R64, R36, R37, R31).
The engine's part goes along `Ends`, the host's along the targets of the address map. -/

namespace Sys2Proof.Machine

/-! ## The parts of the invariant under change -/

/-- More draws may be counted than memories come from. -/
theorem drawsOk_of_same_epochs {s t : State} (draws : DrawsOk s) (epochs : t.epochs = s.epochs) (counted : s.draws ≤ t.draws) :
    DrawsOk t := by
  obtain ⟨distinct, below⟩ := draws
  rw [DrawsOk, epochs]
  exact ⟨distinct, fun e he => (below e he).trans_le counted⟩

/-- A memory may come from the next draw, which no other memory comes from (log 2). -/
theorem drawsOk_of_new_epoch {s t : State} (draws : DrawsOk s) (k : Nat) (epochs : t.epochs = s.epochs.set k s.draws)
    (counted : t.draws = s.draws + 1) : DrawsOk t := by
  obtain ⟨distinct, below⟩ := draws
  rw [DrawsOk, epochs, counted]
  refine ⟨distinct.set fun used => (below _ used).false, fun e he => ?_⟩
  rcases List.mem_or_eq_of_mem_set he with old | rfl
  · exact (below e old).trans (Nat.lt_succ_self _)
  · exact Nat.lt_succ_self _

theorem drawsOk_forgetA {s : State} (draws : DrawsOk s) : DrawsOk (forgetA s) := drawsOk_of_new_epoch draws 3 rfl rfl
theorem drawsOk_forgetB {s : State} (draws : DrawsOk s) : DrawsOk (forgetB s) := drawsOk_of_new_epoch draws 4 rfl rfl
theorem drawsOk_forgetOutbuf {s : State} (draws : DrawsOk s) : DrawsOk (forgetOutbuf s) := drawsOk_of_new_epoch draws 1 rfl rfl
theorem drawsOk_forgetResbuf {s : State} (draws : DrawsOk s) : DrawsOk (forgetResbuf s) := drawsOk_of_new_epoch draws 2 rfl rfl

theorem statusOk_of_eq {s t : State} (status : StatusOk s) (busy : t.status.busy = s.status.busy)
    (done : t.status.done = s.status.done) (err : t.status.err = s.status.err) (errCode : t.status.errCode = s.status.errCode) :
    StatusOk t := by
  rw [StatusOk, busy, done, err, errCode]
  exact status

/-! ## The engine -/

/-- An append that fits keeps the packer's registers and A (R64, R202). -/
theorem appendField_packed {s : State} {n : Nat} (v : Nat) (capMax : s.cap ≤ 1048576) (packer : PackerOk s) (memA : s.memA.wf s.cap)
    (room : nbits s + n ≤ 8 * s.cap) :
    PackerOk (appendField v n s) ∧ (appendField v n s).memA.wf s.cap ∧ nbits (appendField v n s) = nbits s + n := by
  obtain ⟨-, cursor⟩ := packer
  have fit : nbits (noteOverflow v n s) + n ≤ 2 ^ 23 := by rw [nbits_noteOverflow]; omega
  have len : (appendField v n s).aLen.toNat = (nbits s + n + 7) / 8 :=
    toNat_lenAfter (nbits s) n s.aLen (aLen_eq_of_cursor cursor) fit
  refine ⟨⟨?_, cursor_appendBits _ n (noteOverflow v n s) cursor fit⟩, wf_putBits memA _ _ _ room,
    nbits_appendBits _ n (noteOverflow v n s) cursor fit⟩
  rw [len, cap_appendField]
  omega

/-- Appends that fit keep the packer's registers and A (R216). -/
theorem appendFields_packed {fields : List (Nat × Nat)} {s : State} (capMax : s.cap ≤ 1048576) (packer : PackerOk s)
    (memA : s.memA.wf s.cap) (room : nbits s + (fields.map Prod.snd).sum ≤ 8 * s.cap) :
    PackerOk (appendFields fields s) ∧ (appendFields fields s).memA.wf s.cap := by
  induction fields generalizing s with
  | nil => exact ⟨packer, memA⟩
  | cons f rest ih =>
    rw [List.map_cons, List.sum_cons] at room
    obtain ⟨packer', memA', longer⟩ := appendField_packed f.1 (n := f.2) capMax packer memA (by omega)
    exact ih (s := appendField f.1 f.2 s) capMax packer' memA' (by rw [longer, cap_appendField]; omega)

/-- The widths of a block's fields add up to its serialized length (R210, R213). -/
theorem sum_blockFields_widths (s : State) : ((blockFields s).map Prod.snd).sum = serialLength s.qb := by
  unfold blockFields serialLength
  split
  · simp [Function.comp_def, length_footprint]
    omega
  · simp
    omega

@[simp] theorem appendFields_memA_epoch (fields : List (Nat × Nat)) (s : State) :
    (appendFields fields s).memA.epoch = s.memA.epoch := by
  induction fields generalizing s with
  | nil => rfl
  | cons f rest ih =>
    calc (appendFields rest (appendField f.1 f.2 s)).memA.epoch
      _ = (appendField f.1 f.2 s).memA.epoch := ih _
      _ = s.memA.epoch := putBits_epoch ..

theorem stateOk_appendFields {s : State} (ok : StateOk s) {fields : List (Nat × Nat)}
    (room : nbits s + (fields.map Prod.snd).sum ≤ 8 * s.cap) : StateOk (appendFields fields s) := by
  obtain ⟨params, packer, bLen, ⟨pixbuf, outbuf, resbuf, memA, memB⟩, draws, status, record⟩ := ok
  obtain ⟨packer', memA'⟩ := appendFields_packed params.2.2 packer memA room
  obtain ⟨m, len, cur, ovf, e⟩ := appendFields_frame fields s
  have epoch : m.epoch = s.memA.epoch := by rw [← appendFields_memA_epoch fields s, e]
  rw [e] at packer' memA' ⊢
  refine ⟨params, packer', bLen, ⟨pixbuf, outbuf, resbuf, memA', memB⟩, drawsOk_of_same_epochs draws ?_ le_rfl, status, record⟩
  simp only [State.epochs, epoch]

/-- The commit of a valid block. -/
theorem stateOk_commitRecord {s : State} (ok : StateOk s) {q : BlockData} (valid : q.Valid) {residual : Nat → Nat → Nat}
    (flat : q.maxDelta = 0 → ∀ row < q.h, ∀ col < q.w, residual row col = 0) : StateOk (commitRecord s q residual) := by
  obtain ⟨params, packer, bLen, ⟨pixbuf, outbuf, -, memA, memB⟩, draws, status, -⟩ := ok
  exact ⟨params, packer, bLen, ⟨pixbuf, outbuf, Memory.wf_fill _ 64 _, memA, memB⟩, drawsOk_of_same_epochs draws rfl le_rfl,
    status, recordOk_commitRecord s valid flat⟩

theorem stateOk_commitParsed {s : State} (ok : StateOk s) {b : ParsedBlock} (valid : b.data.Valid)
    (zeros : b.data.maxDelta = 0 → b.residuals = List.replicate (geomW s * geomH s) 0) : StateOk (commitParsed s b) := by
  have committed : StateOk (commitRecord s b.data fun row col => b.residuals.getD (row * b.data.w + col) 0) :=
    stateOk_commitRecord ok valid fun flat _ _ _ _ => by
      rw [zeros flat, List.getD_eq_getElem?_getD, List.getElem?_getD_replicate_default_eq]
  exact committed

/-- A length of at most P_MEM_BYTES fits A_LEN and B_LEN (R64, R67). -/
theorem toNat_length_ofNat {s : State} (params : ParamsOk s) {n : Nat} (room : n ≤ s.cap) : (BitVec.ofNat 21 n).toNat = n := by
  have capMax : s.cap ≤ 1048576 := params.2.2
  rw [BitVec.toNat_ofNat]
  exact Nat.mod_eq_of_lt (by omega)

/-- What a command computes from a state that meets the invariant meets it. -/
theorem Computes.stateOk {s u : State} {i : Instr} (h : Computes s i u) (ok : StateOk s) : StateOk u := by
  have ⟨params, packer, bLen, ⟨pixbuf, outbuf, resbuf, memA, memB⟩, draws, status, record⟩ := ok
  cases h with
  | nop => exact ok
  | ctFwd => exact ok
  | ctInv => exact ok
  | buRead => exact ok
  | bqEncode geom bits =>
    exact stateOk_commitRecord ok (encodeData_valid geom bits) fun flat _ hr _ hc => encodeResidual_of_flat flat hr hc
  | bqDecode f =>
    exact ⟨params, packer, bLen, ⟨pixbuf, Memory.wf_fill _ 64 f, resbuf, memA, memB⟩,
      drawsOk_of_same_epochs draws rfl le_rfl, status, record⟩
  | bqSerialize room => exact stateOk_appendFields ok (by rw [sum_blockFields_widths]; exact room)
  | bqDeserialize geom parsed =>
    obtain ⟨valid, zeros⟩ := parseBlock_valid geom parsed
    exact stateOk_commitParsed ok valid zeros
  | bpWrite room => exact stateOk_appendFields (fields := [(_, _)]) ok (by simpa using room)
  | bpClear => exact ⟨params, ⟨Nat.zero_le _, absurd rfl⟩, bLen, ⟨pixbuf, outbuf, resbuf, memA, memB⟩, draws, status, record⟩
  | rleEnc room =>
    refine ⟨params, packer, ?_, ⟨pixbuf, outbuf, resbuf, memA, Memory.wf_write memB _ (by omega)⟩,
      drawsOk_of_same_epochs draws ?_ le_rfl, status, record⟩
    · exact (toNat_length_ofNat params room).trans_le room
    · simp [State.epochs]
  | rleDec room =>
    refine ⟨params, ⟨(toNat_length_ofNat params room).trans_le room, absurd rfl⟩, bLen,
      ⟨pixbuf, outbuf, resbuf, Memory.wf_write memA _ (by omega), memB⟩, drawsOk_of_same_epochs draws ?_ le_rfl, status, record⟩
    simp [State.epochs]

theorem Fails.stateOk {s u : State} {i : Instr} {code : ErrCode} (h : Fails s i code u) (ok : StateOk s) : StateOk u := by
  have ⟨params, packer, bLen, ⟨pixbuf, outbuf, resbuf, memA, memB⟩, draws, status, record⟩ := ok
  cases h with
  | precise => exact ok
  | rleEnc =>
    exact ⟨params, packer, Nat.zero_le _, ⟨pixbuf, outbuf, resbuf, memA, Memory.wf_unspecified _ _⟩, drawsOk_forgetB draws,
      status, record⟩
  | rleDec =>
    exact ⟨params, ⟨Nat.zero_le _, absurd rfl⟩, bLen, ⟨pixbuf, outbuf, resbuf, Memory.wf_unspecified _ _, memB⟩,
      drawsOk_forgetA draws, status, record⟩

/-- A completion sets DONE over the cleared ERR of a running command (R36, R289). -/
theorem stateOk_complete {s : State} (ok : StateOk s) (busy : s.status.busy = true) : StateOk (complete s) := by
  obtain ⟨params, packer, bLen, memories, draws, ⟨running, -⟩, record⟩ := ok
  obtain ⟨-, noErr, -⟩ := running busy
  exact ⟨params, packer, bLen, memories, draws, ⟨nofun, by simp [noErr]⟩, record⟩

/-- An error completion sets ERR over the cleared DONE of a running command (R37, R290). -/
theorem stateOk_raiseError {s : State} (ok : StateOk s) (busy : s.status.busy = true) (code : ErrCode) (pos : Nat) :
    StateOk (raiseError code pos s) := by
  obtain ⟨params, packer, bLen, memories, draws, ⟨running, -⟩, record⟩ := ok
  obtain ⟨notDone, -, -⟩ := running busy
  exact ⟨params, packer, bLen, memories, draws, ⟨nofun, by simp [notDone]⟩, record⟩

/-- `t` meets the invariant and belongs to the same instance as `s` (R10). -/
def KeepsInvariant (s t : State) : Prop := StateOk t ∧ t.id = s.id ∧ t.memCap = s.memCap

theorem exec_keepsInvariant {i : Instr} {s t : State} (ok : StateOk s) (busy : s.status.busy = true) (h : exec i s = .next t) :
    KeepsInvariant s t := by
  cases exec_ends h with
  | @completed u computed =>
    obtain ⟨id, memCap, -⟩ := computed.sameInputs
    have running : u.status.busy = true := computed.status_eq.1.trans busy
    exact ⟨stateOk_complete (computed.stateOk ok) running, id, memCap⟩
  | @failed code u pos failure =>
    obtain ⟨id, memCap, -⟩ := failure.sameInputs
    have running : u.status.busy = true := failure.status_eq ▸ busy
    exact ⟨stateOk_raiseError (failure.stateOk ok) running code pos, id, memCap⟩

/-- The engine's step: the command of a legal word, ILLEGAL for any other (R113). -/
theorem engineStep_keepsInvariant {s t : State} (ok : StateOk s) (busy : s.status.busy = true)
    (h : engineStep exec s = .next t) : KeepsInvariant s t := by
  unfold engineStep at h
  split at h
  · exact exec_keepsInvariant ok busy h
  · rw [errorExit_eq] at h
    cases h
    exact ⟨stateOk_raiseError ok busy _ _, rfl, rfl⟩

/-! ## The host -/

/-- A reset of the registers asks nothing of them, and forgets the record (R76, R321). -/
theorem stateOk_resetRegisters {s : State} (params : ParamsOk s) (memories : MemoriesOk s) (draws : DrawsOk s) :
    StateOk (resetRegisters s) :=
  ⟨params, ⟨Nat.zero_le _, absurd rfl⟩, Nat.zero_le _, memories, draws, ⟨nofun, nofun⟩, nofun⟩

/-- The memories after a pulse come from the next five draws (R320). -/
theorem drawsOk_hardReset (s : State) : DrawsOk (hardReset s) := by
  have epochs : (hardReset s).epochs = List.range' s.draws 5 := rfl
  have counted : (hardReset s).draws = s.draws + 5 := rfl
  rw [DrawsOk, epochs, counted]
  exact ⟨List.nodup_range', fun e he => (List.mem_range'_1.mp he).2⟩

theorem hardReset_keepsInvariant {s : State} (ok : StateOk s) : KeepsInvariant s (hardReset s) := by
  obtain ⟨params, -⟩ := ok
  have free {w : Nat} (d n : Nat) : (Memory.unspecified d : Memory w).wf n := Memory.wf_unspecified d n
  exact ⟨⟨params, ⟨Nat.zero_le _, absurd rfl⟩, Nat.zero_le _, ⟨free _ _, free _ _, free _ _, free _ _, free _ _⟩,
    drawsOk_hardReset s, ⟨nofun, nofun⟩, nofun⟩, rfl, rfl⟩

/-- Abandoning a command keeps the memories' part of the invariant; it can lose the record's, as the reset that follows does. -/
theorem abandonWrites_memories (i : Instr) {s : State} (memories : MemoriesOk s) (draws : DrawsOk s) :
    MemoriesOk (abandonWrites i s) ∧ DrawsOk (abandonWrites i s) := by
  have kept := memories
  obtain ⟨pixbuf, outbuf, resbuf, memA, memB⟩ := kept
  have freeA : MemoriesOk (forgetA s) := ⟨pixbuf, outbuf, resbuf, Memory.wf_unspecified _ _, memB⟩
  have freeB : MemoriesOk (forgetB s) := ⟨pixbuf, outbuf, resbuf, memA, Memory.wf_unspecified _ _⟩
  have freeOutbuf : MemoriesOk (forgetOutbuf s) := ⟨pixbuf, Memory.wf_unspecified _ _, resbuf, memA, memB⟩
  have freeResbuf : MemoriesOk (forgetResbuf s) := ⟨pixbuf, outbuf, Memory.wf_unspecified _ _, memA, memB⟩
  cases i with
  | bqEncode => exact ⟨freeResbuf, drawsOk_forgetResbuf draws⟩
  | bqDeserialize => exact ⟨freeResbuf, drawsOk_forgetResbuf draws⟩
  | bqDecode => exact ⟨freeOutbuf, drawsOk_forgetOutbuf draws⟩
  | bqSerialize => exact ⟨freeA, drawsOk_forgetA draws⟩
  | bpWrite => exact ⟨freeA, drawsOk_forgetA draws⟩
  | rleDec => exact ⟨freeA, drawsOk_forgetA draws⟩
  | rleEnc => exact ⟨freeB, drawsOk_forgetB draws⟩
  | _ => exact ⟨memories, draws⟩

theorem softReset_keepsInvariant {s : State} (ok : StateOk s) : KeepsInvariant s (softReset s) := by
  obtain ⟨params, -, -, memories, draws, -⟩ := ok
  rw [softReset]
  rcases abandon_cases s with ⟨-, e⟩ | ⟨i, -, -, e⟩
  · rw [e]
    exact ⟨stateOk_resetRegisters params memories draws, rfl, rfl⟩
  · obtain ⟨id, memCap, -⟩ := abandonWrites_frame i s
    obtain ⟨memories, draws⟩ := abandonWrites_memories i memories draws
    rw [e]
    refine ⟨stateOk_resetRegisters ?_ memories draws, id, memCap⟩
    rw [ParamsOk, State.cap, memCap]
    exact params

theorem writeCtrl_keepsInvariant {s : State} (ok : StateOk s) (v : Word) : KeepsInvariant s (writeCtrl v s) := by
  unfold writeCtrl
  split
  · exact softReset_keepsInvariant ok
  · exact ⟨ok, rfl, rfl⟩

/-- Clearing flags sets none (R34). -/
theorem writeStatus_keepsInvariant {s : State} (ok : StateOk s) (v : Word) : KeepsInvariant s (writeStatus v s) := by
  obtain ⟨params, packer, bLen, memories, draws, ⟨running, exclusive⟩, record⟩ := ok
  refine ⟨⟨params, packer, bLen, memories, draws, ⟨fun busy => ?_, fun ⟨done, err⟩ => ?_⟩, record⟩, rfl, rfl⟩
  · obtain ⟨notDone, noErr, noCode⟩ := running busy
    simp [writeStatus, Status.acknowledge, notDone, noErr, noCode]
  · exact exclusive ⟨(Bool.and_eq_true_iff.mp done).1, (Bool.and_eq_true_iff.mp err).1⟩

theorem issue_keepsInvariant {s : State} (ok : StateOk s) (v : Word) : KeepsInvariant s (issue v s) := by
  obtain ⟨params, packer, bLen, memories, draws, -, record⟩ := ok
  exact ⟨⟨params, packer, bLen, memories, draws, ⟨fun _ => ⟨rfl, rfl, rfl⟩, nofun⟩, record⟩, rfl, rfl⟩

theorem writeReg_keepsInvariant {s : State} (ok : StateOk s) (v : Word) (r : Reg) : KeepsInvariant s (writeReg v s r) := by
  have ⟨params, packer, bLen, memories, draws, status, record⟩ := ok
  cases r with
  | ctrl => exact writeCtrl_keepsInvariant ok v
  | status => exact writeStatus_keepsInvariant ok v
  | cmd => exact issue_keepsInvariant ok v
  | aLen => exact ⟨⟨params, ⟨clampLen_le_cap s v, absurd rfl⟩, bLen, memories, draws, status, record⟩, rfl, rfl⟩
  | bLen => exact ⟨⟨params, packer, clampLen_le_cap s v, memories, draws, status, record⟩, rfl, rfl⟩
  | _ => exact ⟨ok, rfl, rfl⟩

theorem wf_storePixel {m : Memory 24} {n i : Nat} (wf : m.wf n) (hi : i < n) (v : Word) (strb : BitVec 4) :
    (storePixel v strb i m).wf n := by
  unfold storePixel
  split
  · exact wf
  · exact Memory.wf_set wf hi _

@[simp] theorem storePixel_epoch (v : Word) (strb : BitVec 4) (i : Nat) (m : Memory 24) : (storePixel v strb i m).epoch = m.epoch := by
  unfold storePixel
  split <;> rfl

theorem wf_storeByte {m : Memory 8} {n k j : Nat} (wf : m.wf n) (hk : k + j < n) (v : Word) (strb : BitVec 4) :
    (storeByte v strb k j m).wf n := by
  unfold storeByte
  split
  · exact Memory.wf_set wf hk _
  · exact wf

@[simp] theorem storeByte_epoch (v : Word) (strb : BitVec 4) (k j : Nat) (m : Memory 8) : (storeByte v strb k j m).epoch = m.epoch := by
  unfold storeByte
  split <;> rfl

theorem wf_storeWord {m : Memory 8} {n k : Nat} (wf : m.wf n) (hk : k + 3 < n) (v : Word) (strb : BitVec 4) :
    (storeWord v strb k m).wf n :=
  wf_storeByte (wf_storeByte (wf_storeByte (wf_storeByte wf (by omega) _ _) (by omega) _ _) (by omega) _ _) hk _ _

@[simp] theorem storeWord_epoch (v : Word) (strb : BitVec 4) (k : Nat) (m : Memory 8) : (storeWord v strb k m).epoch = m.epoch := by
  simp [storeWord]

/-- An idle write stores within the target that the address map gave it (R31, R83). -/
theorem writeIdle_keepsInvariant {s : State} (ok : StateOk s) {t : Transaction} {x : Target} (reached : access s.cap t = .ok x)
    (v : Word) (strb : BitVec 4) : KeepsInvariant s (writeIdle v strb s x) := by
  have ⟨params, packer, bLen, ⟨pixbuf, outbuf, resbuf, memA, memB⟩, draws, status, record⟩ := ok
  have range := target_in_range reached params.1
  cases x with
  | reg r => exact writeReg_keepsInvariant ok v r
  | pixbuf i =>
    exact ⟨⟨params, packer, bLen, ⟨wf_storePixel pixbuf range v strb, outbuf, resbuf, memA, memB⟩,
      drawsOk_of_same_epochs draws (by simp [writeIdle, State.epochs]) le_rfl, status, record⟩, rfl, rfl⟩
  | outbuf i => exact ⟨ok, rfl, rfl⟩
  | resbuf i => exact ⟨ok, rfl, rfl⟩
  | memA k =>
    exact ⟨⟨params, packer, bLen, ⟨pixbuf, outbuf, resbuf, wf_storeWord memA range v strb, memB⟩,
      drawsOk_of_same_epochs draws (by simp [writeIdle, State.epochs]) le_rfl, status, record⟩, rfl, rfl⟩
  | memB k =>
    exact ⟨⟨params, packer, bLen, ⟨pixbuf, outbuf, resbuf, memA, wf_storeWord memB range v strb⟩,
      drawsOk_of_same_epochs draws (by simp [writeIdle, State.epochs]) le_rfl, status, record⟩, rfl, rfl⟩

theorem writeBusy_keepsInvariant {s : State} (ok : StateOk s) (v : Word) (x : Target) : KeepsInvariant s (writeBusy v s x) := by
  unfold writeBusy
  split_ifs
  · exact writeCtrl_keepsInvariant ok v
  · exact writeStatus_keepsInvariant ok v
  · exact ⟨ok, rfl, rfl⟩
  · exact ⟨ok, rfl, rfl⟩

theorem busRead_keepsInvariant {s : State} (ok : StateOk s) (x : Target) : KeepsInvariant s (busRead s x) := by
  have ⟨params, packer, bLen, memories, draws, status, record⟩ := ok
  unfold busRead
  split
  · exact ⟨⟨params, packer, bLen, memories, drawsOk_of_same_epochs draws rfl (Nat.le_succ _), status, record⟩, rfl, rfl⟩
  · exact ⟨ok, rfl, rfl⟩

theorem transact_keepsInvariant {s : State} (ok : StateOk s) (t : Transaction) : KeepsInvariant s (transact t s) := by
  cases reached : access s.cap t with
  | error e =>
    rw [transact_error reached]
    exact ⟨ok, rfl, rfl⟩
  | ok x =>
    rw [transact_of_access reached]
    split
    · cases busy : s.status.busy with
      | false =>
        rw [busWrite_idle busy]
        exact writeIdle_keepsInvariant ok reached _ _
      | true =>
        rw [busWrite_busy busy]
        exact writeBusy_keepsInvariant ok _ x
    · exact busRead_keepsInvariant ok x

theorem hostStep_keepsInvariant {s : State} (ok : StateOk s) (a : HostAction) : KeepsInvariant s (hostStep a s) := by
  cases a with
  | transaction t => exact transact_keepsInvariant ok t
  | hardReset => exact hardReset_keepsInvariant ok

/-! ## The step -/

/-- All that a step can be: the engine's, a wait, or the next host event's (R81, R286, R322). -/
theorem step_cases (s : State) :
    (s.status.busy = true ∧ step s = engineStep exec s) ∨ step s = .next s ∨
      ∃ (a : HostAction) (rest : List HostEvent), step s = .next (hostStep a { s with pending := rest }) := by
  unfold step
  split
  next turn => exact .inl ⟨(Bool.and_eq_true_iff.mp turn).1, rfl⟩
  next =>
    split
    next => exact .inr (.inl rfl)
    next e rest _ => exact .inr (.inr ⟨e.action, rest, rfl⟩)

/-- Settles O58: the engine's step and the host's each keep the invariant, whatever word runs and whatever event lands. -/
theorem everyStepKeepsTheInvariant : Obligations.EveryStepKeepsTheInvariant := by
  intro s t ok h
  rcases step_cases s with ⟨busy, e⟩ | e | ⟨a, rest, e⟩ <;> rw [e] at h
  · exact engineStep_keepsInvariant ok busy h
  · cases h
    exact ⟨ok, rfl, rfl⟩
  · cases h
    exact hostStep_keepsInvariant (s := { s with pending := rest }) ok a

/-- Under the invariant no command stops: A_LEN and B_LEN are within the memories, and a record is at most 8 by 8 (log 12). -/
theorem stopOf_eq_none {s : State} (ok : StateOk s) (i : Instr) : stopOf s i = none := by
  obtain ⟨-, ⟨aLen, -⟩, bLen, -, -, -, record⟩ := ok
  cases i with
  | bqSerialize =>
    refine if_neg fun ⟨valid, _, large⟩ => ?_
    obtain ⟨⟨-, width, -, height⟩, -⟩ := record valid
    omega
  | bqDeserialize => exact if_neg fun ⟨_, beyond⟩ => beyond.not_ge aLen
  | buRead n => exact if_neg fun ⟨_, beyond⟩ => beyond.not_ge aLen
  | rleEnc => exact if_neg aLen.not_gt
  | rleDec => exact if_neg bLen.not_gt
  | _ => rfl

theorem exec_ran {s : State} (ok : StateOk s) (i : Instr) : Ran (exec i s) := by
  have stops := exec_stopsAs s i
  rw [stopOf_eq_none ok] at stops
  exact stops

/-- Settles O59: only a command can stop, and `stopOf` lists none under the invariant. -/
theorem noStepStopsUnderTheInvariant : Obligations.NoStepStopsUnderTheInvariant := by
  intro s ok
  rcases step_cases s with ⟨-, e⟩ | e | ⟨a, rest, e⟩ <;> rw [e]
  · unfold engineStep
    split
    · exact exec_ran ok _
    · exact ran_next _
  · exact ran_next _
  · exact ran_next _

end Sys2Proof.Machine
end

section
/-! O6, O7, O47, O52: who moves at a step, the four bus errors over the address map, and the words of A and B (20_memory R81 to R90,
60_exceptions R286, 70_reset_and_hazards R322). -/

namespace Sys2Proof.Machine

/-! ## Who moves at a step -/

/-- The flag that `step` tests is the predicate of the statements (R81, R286). -/
theorem engineTurn_iff (s : State) : engineTurn s = true ↔ EngineNext s := by
  unfold engineTurn EngineNext
  cases s.pending <;> simp

theorem step_of_engineNext {s : State} (next : EngineNext s) : step s = engineStep exec s :=
  if_pos ((engineTurn_iff s).mpr next)

/-- An idle engine leaves the step to the host. -/
theorem not_engineNext_of_idle {s : State} (idle : s.status.busy = false) : ¬ EngineNext s :=
  fun ⟨busy, _⟩ => Bool.false_ne_true (idle.symm.trans busy)

theorem step_of_event {s : State} {e : HostEvent} {rest : List HostEvent} (host : ¬ EngineNext s) (event : s.pending = e :: rest) :
    step s = .next (hostStep e.action { s with pending := rest }) := by
  unfold step
  rw [if_neg (mt (engineTurn_iff s).mp host), event]

theorem step_of_no_event {s : State} (host : ¬ EngineNext s) (noEvent : s.pending = []) : step s = .next s := by
  unfold step
  rw [if_neg (mt (engineTurn_iff s).mp host), noEvent]

theorem engineStep_of_decode {s : State} {i : Instr} (run : Instr → State → Host.Outcome State Fault Refusal)
    (decoded : decode s.cmd = .ok i) : engineStep run s = run i s := by
  unfold engineStep
  rw [decoded]

/-- Settles O6: the engine's step on a word that decodes. -/
theorem stepRunsTheDecodedCommand : Obligations.StepRunsTheDecodedCommand :=
  fun _ _ next decoded => (step_of_engineNext next).trans (engineStep_of_decode exec decoded)

/-- Settles O7: an idle engine and an early event each exclude `EngineNext`. -/
theorem hostEventLandsInItsPlace : Obligations.HostEventLandsInItsPlace := by
  refine ⟨fun s e rest event first => step_of_event ?_ event, fun s noEvent idle => step_of_no_event (not_engineNext_of_idle idle) noEvent⟩
  rcases first with idle | early
  · exact not_engineNext_of_idle idle
  · exact fun ⟨_, late⟩ => Bool.false_ne_true ((late e rest event).symm.trans early)

/-! ## The address map -/

theorem Reg.mem_all (r : Reg) : r ∈ Reg.all := by cases r <;> decide

/-- Registers lie at 0x000..0x0FF (R31, R83). -/
theorem Reg.offset_lt (r : Reg) : r.offset < 0x100 := by cases r <;> decide

theorem Reg.offset_injective : Function.Injective Reg.offset := by
  have distinct : (Reg.all.map Reg.offset).Nodup := by decide
  exact fun r q same => List.inj_on_of_nodup_map distinct r.mem_all q.mem_all same

theorem Reg.mem_offsets {a : Nat} : a ∈ Reg.all.map Reg.offset ↔ ∃ r : Reg, r.offset = a := by
  simp [Reg.mem_all]

theorem Reg.offset_mem_readOnly (r : Reg) :
    r.offset ∈ (Reg.all.filter Reg.readOnly).map Reg.offset ↔ r.readOnly = true := by
  simp [List.mem_map_of_injective Reg.offset_injective, Reg.mem_all]

theorem lt_of_mem_readOnly {a : Nat} (h : a ∈ (Reg.all.filter Reg.readOnly).map Reg.offset) : a < 0x100 := by
  obtain ⟨r, -, rfl⟩ := List.mem_map.mp h
  exact r.offset_lt

/-- Where the addresses of each kind of target lie (R31). -/
theorem address_of_target {cap a : Nat} {x : Target} (h : targetAt cap a = some x) :
    match x with
    | .reg r => a = r.offset
    | .pixbuf _ => 0x400 ≤ a ∧ a < 0x500
    | .outbuf _ => 0x500 ≤ a ∧ a < 0x600
    | .resbuf _ => 0x600 ≤ a ∧ a < 0x700
    | .memA _ => 0x100000 ≤ a
    | .memB _ => 0x200000 ≤ a := by
  unfold targetAt at h
  split_ifs at h with low pix out res memA memB
  · obtain ⟨r, found, rfl⟩ := Option.map_eq_some_iff.mp h
    have offset : (r.offset == a) = true := List.find?_some (p := fun q : Reg => q.offset == a) found
    exact (beq_iff_eq.mp offset).symm
  all_goals cases h
  · exact pix
  · exact out
  · exact res
  · exact memA.1
  · exact memB.1

/-- An address is mapped when it is a register's or lies in one of the windows (R31). -/
theorem targetAt_isSome_iff (cap a : Nat) :
    (targetAt cap a).isSome = true ↔ a ∈ Reg.all.map Reg.offset ∨ (0x400 ≤ a ∧ a < 0x700) ∨
      (0x100000 ≤ a ∧ a < 0x100000 + cap) ∨ (0x200000 ≤ a ∧ a < 0x200000 + cap) := by
  by_cases low : a < 0x100
  · have windows : ¬ ((0x400 ≤ a ∧ a < 0x700) ∨ (0x100000 ≤ a ∧ a < 0x100000 + cap) ∨
      (0x200000 ≤ a ∧ a < 0x200000 + cap)) := by omega
    simp [targetAt, low, windows, Reg.mem_all]
  · have noReg : a ∉ Reg.all.map Reg.offset := by
      rw [Reg.mem_offsets]
      rintro ⟨r, rfl⟩
      exact low r.offset_lt
    simp only [noReg, false_or]
    unfold targetAt
    split_ifs <;> simp <;> omega

/-- The read-only targets are the read-only registers, OUTBUF and RESBUF (R31, R61, R62). -/
theorem readOnly_target_iff {cap a : Nat} {x : Target} (h : targetAt cap a = some x) :
    x.readOnly = true ↔ a ∈ (Reg.all.filter Reg.readOnly).map Reg.offset ∨ (0x500 ≤ a ∧ a < 0x700) := by
  have place := address_of_target h
  cases x with
  | reg r =>
    obtain rfl : a = r.offset := place
    have low := r.offset_lt
    rw [Reg.offset_mem_readOnly, or_iff_left (by omega)]
    rfl
  | outbuf => exact iff_of_true rfl (.inr ⟨place.1, by omega⟩)
  | resbuf => exact iff_of_true rfl (.inr ⟨by omega, place.2⟩)
  | pixbuf | memA | memB =>
    refine iff_of_false Bool.false_ne_true (not_or.mpr ⟨fun listed => ?_, by omega⟩)
    have := lt_of_mem_readOnly listed
    omega

theorem isReg_target_iff {cap a : Nat} {x : Target} (h : targetAt cap a = some x) : x.isReg = true ↔ a < 0x100 := by
  have place := address_of_target h
  cases x with
  | reg r => exact iff_of_true rfl (place ▸ r.offset_lt)
  | pixbuf | outbuf | resbuf | memA | memB => exact iff_of_false Bool.false_ne_true (by omega)

/-! ## The bus errors -/

/-- A transaction is accepted where none of the four bus errors holds, each in terms of the address (R31, R84). -/
theorem exists_access_ok_iff (cap : Nat) (t : Transaction) :
    (∃ x, access cap t = .ok x) ↔
      ¬ (t.addr.toNat % 4 ≠ 0 ∨
        ¬ (t.addr.toNat ∈ Reg.all.map Reg.offset ∨ (0x400 ≤ t.addr.toNat ∧ t.addr.toNat < 0x700) ∨
          (0x100000 ≤ t.addr.toNat ∧ t.addr.toNat < 0x100000 + cap) ∨
          (0x200000 ≤ t.addr.toNat ∧ t.addr.toNat < 0x200000 + cap)) ∨
        (t.we = true ∧ (t.addr.toNat ∈ (Reg.all.filter Reg.readOnly).map Reg.offset ∨
          (0x500 ≤ t.addr.toNat ∧ t.addr.toNat < 0x700))) ∨
        (t.we = true ∧ t.addr.toNat < 0x100 ∧ t.wstrb ≠ 0xF)) := by
  rw [← targetAt_isSome_iff]
  unfold access
  split_ifs with misaligned
  · simp [misaligned]
  · cases reached : targetAt cap t.addr.toNat with
    | none => simp
    | some x =>
      rw [← readOnly_target_iff reached, ← isReg_target_iff reached]
      simp only [Bool.and_eq_true, bne_iff_ne, and_assoc]
      split_ifs with readOnly partialStrobe
      · exact iff_of_false (by simp) (not_not.mpr (.inr (.inr (.inl readOnly))))
      · exact iff_of_false (by simp) (not_not.mpr (.inr (.inr (.inr partialStrobe))))
      · exact iff_of_true ⟨x, rfl⟩ (not_or.mpr ⟨misaligned, not_or.mpr ⟨by simp, not_or.mpr ⟨readOnly, partialStrobe⟩⟩⟩)

/-- An accepted transaction answers `bus_err = 0` (R80, R84). -/
theorem resp_of_access {t : Transaction} {s : State} {x : Target} (reached : access s.cap t = .ok x) :
    (transact t s).resp = .writeDone false ∨ ∃ v, (transact t s).resp = .readDone v false := by
  rw [transact_of_access reached]
  split
  · exact .inl rfl
  · unfold busRead
    split <;> exact .inr ⟨_, rfl⟩

/-- Settles O47: the statement's lists are the registers' offsets, and `access` is `.ok` exactly outside the four errors. -/
theorem busErrorsChangeNothing : Obligations.BusErrorsChangeNothing := by
  intro t s a registers readOnly mapped failing
  have accepted : (∃ x, access s.cap t = .ok x) ↔ ¬ failing := exists_access_ok_iff s.cap t
  refine ⟨fun fails => ?_, fun passes => ?_⟩
  · cases reached : access s.cap t with
    | ok x => exact absurd fails (accepted.mp ⟨x, reached⟩)
    | error e => exact transact_error reached
  · obtain ⟨x, reached⟩ := accepted.mpr passes
    exact resp_of_access reached

/-! ## The words of A and B -/

theorem get_storeByte (v : Word) (strb : BitVec 4) (k j : Nat) (m : Memory 8) (a : Nat) :
    (storeByte v strb k j m).get a = if a = k + j then strobed v strb j (m.get a) else m.get a := by
  unfold storeByte strobed
  split
  · exact m.get_set a (k + j) _
  · exact (ite_self _).symm

/-- Byte `j` of a word write lands at offset `k + j` where its strobe is 1 (R83, R86). -/
theorem get_storeWord_byte (v : Word) (strb : BitVec 4) (k : Nat) (m : Memory 8) {j : Nat} (hj : j < 4) :
    (storeWord v strb k m).get (k + j) = if strb.getLsbD j then v.extractLsb' (8 * j) 8 else m.get (k + j) := by
  interval_cases j <;> simp [storeWord, get_storeByte, strobed, busByte]

theorem get_storeWord_other (v : Word) (strb : BitVec 4) {k a : Nat} (m : Memory 8) (h : a < k ∨ k + 4 ≤ a) :
    (storeWord v strb k m).get a = m.get a := by
  simp (disch := omega) only [storeWord, get_storeByte, if_neg]

/-- Settles O52: each access reaches its word, which `storeWord` writes and `wordAt` reads. -/
theorem windowWritesAreLittleEndianAndStrobed : Obligations.WindowWritesAreLittleEndianAndStrobed := by
  intro s k v strb ⟨_, _, capMax⟩ idle aligned inside
  have memA := access_memA capMax inside aligned
  have memB := access_memB capMax inside aligned
  refine ⟨⟨storeWord v strb k s.memA, ?_, fun j hj => get_storeWord_byte v strb k _ hj, fun a ha => get_storeWord_other v strb _ ha⟩,
    ⟨storeWord v strb k s.memB, ?_, fun j hj => get_storeWord_byte v strb k _ hj, fun a ha => get_storeWord_other v strb _ ha⟩,
    ?_, ?_⟩
  · exact (transact_of_access (memA true v strb)).trans (busWrite_idle idle v strb _)
  · exact (transact_of_access (memB true v strb)).trans (busWrite_idle idle v strb _)
  · rw [transact_of_access (memA false 0 0)]
    exact congrArg State.resp (busRead_idle idle _)
  · rw [transact_of_access (memB false 0 0)]
    exact congrArg State.resp (busRead_idle idle _)

end Sys2Proof.Machine
end

section
/-! O1 to O5: the decoder, the encoder and the rows of the match and mask table (30_encoding R110 to R117). Both directions of the round trip
and the engine's classification rest on `decode_eq_ok_iff`: what the three fields of a word that decodes are. -/

namespace Sys2Proof

/-! ## The fields of a command word -/

theorem opField_eq (w : Word) : opField w = w.toNat % 256 := by simp [opField]

theorem cntField_eq (w : Word) : cntField w = w.toNat / 256 % 64 := by simp [cntField, Nat.shiftRight_eq_div_pow]

theorem rsvField_eq (w : Word) : rsvField w = w.toNat / 16384 := by
  have := w.isLt
  simp only [rsvField, BitVec.extractLsb'_toNat, Nat.shiftRight_eq_div_pow]
  omega

/-- OP, CNT and RSV are all of a command word (R110). -/
theorem toNat_eq_fields (w : Word) : w.toNat = opField w + 256 * cntField w + 16384 * rsvField w := by
  rw [opField_eq, cntField_eq, rsvField_eq]
  omega

theorem cntField_lt (w : Word) : cntField w < 64 := (w.extractLsb' 8 6).isLt

/-- The mask of BP_WRITE and BU_READ keeps OP and RSV (R115). -/
theorem opField_and_countMask (w : Word) : opField (w &&& 0xFFFFC0FF) = opField w := by
  have mask : (0xFFFFC0FF : Word).extractLsb' 0 8 = BitVec.allOnes 8 := by decide
  rw [opField, BitVec.extractLsb'_and, mask, BitVec.and_allOnes, opField]

theorem rsvField_and_countMask (w : Word) : rsvField (w &&& 0xFFFFC0FF) = rsvField w := by
  have mask : (0xFFFFC0FF : Word).extractLsb' 14 18 = BitVec.allOnes 18 := by decide
  rw [rsvField, BitVec.extractLsb'_and, mask, BitVec.and_allOnes, rsvField]

/-! ## The commands and the opcode map -/

theorem Instr.opcode_lt (i : Instr) : i.opcode < 256 := by cases i <;> simp [Instr.opcode]

/-- Only CNT can keep a command from having a word (R111). -/
theorem Instr.wellFormed_iff (i : Instr) : i.wellFormed = true ↔ i.count < 64 := by
  cases i <;> simp [Instr.wellFormed, Instr.count, cntFits]

theorem instrOf_opcode_count (i : Instr) : instrOf i.opcode i.count = some i := by cases i <;> rfl

theorem takesCount_opcode_or_count_eq_zero (i : Instr) : takesCount i.opcode = true ∨ i.count = 0 := by
  cases i with
  | bpWrite | buRead => exact .inl rfl
  | _ => exact .inr rfl

/-- What the opcode map hands out: a command of this opcode, which carries CNT where the opcode takes one (R114). -/
theorem opcode_count_of_instrOf {op cnt : Nat} {i : Instr} (h : instrOf op cnt = some i) :
    i.opcode = op ∧ i.count = if takesCount op then cnt else 0 := by
  unfold instrOf at h
  split at h <;> cases h <;> exact ⟨rfl, rfl⟩

/-- The opcode map has exactly the opcodes of R114. -/
theorem instrOf_isSome_iff (op cnt : Nat) : (instrOf op cnt).isSome = true ↔
    op ∈ [0x00, 0x01, 0x02, 0x10, 0x11, 0x12, 0x13, 0x20, 0x21, 0x22, 0x30, 0x31] := by
  constructor
  · unfold instrOf
    split <;> simp
  · intro known
    fin_cases known <;> rfl

/-! ## The decoder and the encoder -/

/-- A word decodes when it passes the three tests of R113, and then to what the opcode map answers. -/
theorem decode_eq_ok_iff_tests (w : Word) (i : Instr) : decode w = .ok i ↔
    rsvField w = 0 ∧ instrOf (opField w) (cntField w) = some i ∧ (takesCount (opField w) = true ∨ cntField w = 0) := by
  unfold decode
  by_cases reserved : rsvField w = 0
  · cases instrOf (opField w) (cntField w) with
    | none => simp [reserved]
    | some j =>
      cases takesCount (opField w) with
      | true => simp [reserved]
      | false => by_cases zero : cntField w = 0 <;> simp [reserved, zero]
  · simp [reserved]

/-- The word of a command is the one with RSV 0, its OP and its CNT (R110, R113). -/
theorem decode_eq_ok_iff (w : Word) (i : Instr) :
    decode w = .ok i ↔ rsvField w = 0 ∧ opField w = i.opcode ∧ cntField w = i.count := by
  rw [decode_eq_ok_iff_tests]
  constructor
  · rintro ⟨reserved, found, counted⟩
    obtain ⟨opcode, count⟩ := opcode_count_of_instrOf found
    refine ⟨reserved, opcode.symm, ?_⟩
    rcases counted with takes | zero
    · rw [count, if_pos takes]
    · rw [count, zero, ite_self]
  · rintro ⟨reserved, opcode, count⟩
    rw [opcode, count]
    exact ⟨reserved, instrOf_opcode_count i, takesCount_opcode_or_count_eq_zero i⟩

theorem toNat_encode {i : Instr} (wf : i.wellFormed = true) : (encode i).toNat = i.opcode + 256 * i.count := by
  have opcode := i.opcode_lt
  have count := i.wellFormed_iff.mp wf
  rw [encode, BitVec.toNat_ofNat, Nat.mod_eq_of_lt (by omega)]

theorem decode_encode {i : Instr} (wf : i.wellFormed = true) : decode (encode i) = .ok i := by
  have word := toNat_encode wf
  have opcode := i.opcode_lt
  have count := i.wellFormed_iff.mp wf
  rw [decode_eq_ok_iff, opField_eq, cntField_eq, rsvField_eq, word]
  omega

theorem wellFormed_of_decode {w : Word} {i : Instr} (h : decode w = .ok i) : i.wellFormed = true := by
  obtain ⟨-, -, count⟩ := (decode_eq_ok_iff w i).mp h
  exact i.wellFormed_iff.mpr (count ▸ cntField_lt w)

theorem encode_of_decode {w : Word} {i : Instr} (h : decode w = .ok i) : encode i = w := by
  obtain ⟨reserved, opcode, count⟩ := (decode_eq_ok_iff w i).mp h
  apply BitVec.eq_of_toNat_eq
  rw [toNat_encode (wellFormed_of_decode h), toNat_eq_fields w, reserved, opcode, count, Nat.mul_zero, Nat.add_zero]

/-- Settles O1: the word's fields are the command's, so the tests of R113 pass. -/
theorem decodeInvertsEncode : Obligations.DecodeInvertsEncode := fun _ => decode_encode

/-- Settles O2: the three fields are all of the word (`toNat_eq_fields`). -/
theorem encodeInvertsDecode : Obligations.EncodeInvertsDecode :=
  fun _ _ decoded => ⟨wellFormed_of_decode decoded, encode_of_decode decoded⟩

/-- Settles O4: the six legal words are encodings. -/
theorem sampleWordsDecode : Obligations.SampleWordsDecode :=
  ⟨decode_encode (i := .nop) rfl, decode_encode (i := .ctFwd) rfl, decode_encode (i := .bqSerialize) rfl,
    decode_encode (i := .bpWrite 3) rfl, decode_encode (i := .buRead 32) rfl, decode_encode (i := .rleDec) rfl,
    by decide, by decide, by decide⟩

/-! ## The rows of the match and mask table -/

/-- Every word of the row decodes to a command of the row's name. -/
def OpcodeRow.Decodes (r : OpcodeRow) : Prop :=
  ∀ w, r.accepts w = true → ∃ i, decode w = .ok i ∧ i.mnemonic = r.mnemonic

/-- A row whose mask is all ones holds one word. -/
theorem decodes_of_fullMask {i : Instr} (wf : i.wellFormed = true) :
    OpcodeRow.Decodes ⟨i.mnemonic, encode i, 0xFFFFFFFF⟩ := by
  intro w accepted
  have word : w &&& BitVec.allOnes 32 = encode i := beq_iff_eq.mp accepted
  rw [BitVec.and_allOnes] at word
  exact ⟨i, word ▸ decode_encode wf, rfl⟩

/-- A row whose mask leaves CNT free holds the words of one command with every CNT. -/
theorem decodes_of_countMask {row : OpcodeRow} (mask : row.mask = 0xFFFFC0FF) (reserved : rsvField row.pattern = 0)
    {command : Nat → Instr} (opcode : ∀ cnt, (command cnt).opcode = opField row.pattern)
    (count : ∀ cnt, (command cnt).count = cnt) (name : ∀ cnt, (command cnt).mnemonic = row.mnemonic) : row.Decodes := by
  intro w accepted
  have pattern : w &&& 0xFFFFC0FF = row.pattern := mask ▸ beq_iff_eq.mp accepted
  refine ⟨command (cntField w), (decode_eq_ok_iff w _).mpr ⟨?_, ?_, (count _).symm⟩, name _⟩
  · rw [← rsvField_and_countMask, pattern, reserved]
  · rw [← opField_and_countMask, pattern, opcode]

theorem opcodeRows_decode : ∀ r ∈ opcodeRows, r.Decodes := by
  simp only [opcodeRows, List.forall_mem_cons]
  exact ⟨decodes_of_fullMask (i := .nop) rfl, decodes_of_fullMask (i := .ctFwd) rfl, decodes_of_fullMask (i := .ctInv) rfl,
    decodes_of_fullMask (i := .bqEncode) rfl, decodes_of_fullMask (i := .bqDecode) rfl,
    decodes_of_fullMask (i := .bqSerialize) rfl, decodes_of_fullMask (i := .bqDeserialize) rfl,
    decodes_of_countMask (command := .bpWrite) rfl rfl (fun _ => rfl) (fun _ => rfl) (fun _ => rfl),
    decodes_of_fullMask (i := .bpClear) rfl,
    decodes_of_countMask (command := .buRead) rfl rfl (fun _ => rfl) (fun _ => rfl) (fun _ => rfl),
    decodes_of_fullMask (i := .rleEnc) rfl, decodes_of_fullMask (i := .rleDec) rfl, nofun⟩

theorem matchesTable (i : Instr) : Laws.MatchesTable.Statement i := by
  cases i with
  | nop => exact Laws.MatchesTable.nop
  | ctFwd => exact Laws.MatchesTable.ctFwd
  | ctInv => exact Laws.MatchesTable.ctInv
  | bqEncode => exact Laws.MatchesTable.bqEncode
  | bqDecode => exact Laws.MatchesTable.bqDecode
  | bqSerialize => exact Laws.MatchesTable.bqSerialize
  | bqDeserialize => exact Laws.MatchesTable.bqDeserialize
  | bpWrite cnt => exact Laws.MatchesTable.bpWrite cnt
  | bpClear => exact Laws.MatchesTable.bpClear
  | buRead cnt => exact Laws.MatchesTable.buRead cnt
  | rleEnc => exact Laws.MatchesTable.rleEnc
  | rleDec => exact Laws.MatchesTable.rleDec

/-- A word that decodes is the encoding of its command, which lies in its row. -/
theorem exists_row_of_decode {w : Word} {i : Instr} (h : decode w = .ok i) :
    ∃ r ∈ opcodeRows, r.accepts w = true ∧ r.mnemonic = i.mnemonic := by
  obtain ⟨r, listed, name, accepted, -⟩ := matchesTable i (wellFormed_of_decode h)
  exact ⟨r, listed, encode_of_decode h ▸ accepted, name⟩

/-- No row, no command (R115). -/
theorem decode_error_of_no_row {w : Word} (h : ∀ r ∈ opcodeRows, r.accepts w = false) : ∃ e, decode w = .error e := by
  cases decoded : decode w with
  | error e => exact ⟨e, rfl⟩
  | ok i =>
    obtain ⟨r, listed, accepted, -⟩ := exists_row_of_decode decoded
    exact absurd accepted (Bool.eq_false_iff.mp (h r listed))

end Sys2Proof

namespace Sys2Proof.Machine

/-! ## What the engine makes of a command word -/

/-- A width outside 1..32 is turned away before anything else (R203). -/
theorem exec_of_badWidth {cnt : Nat} (bad : cnt = 0 ∨ 33 ≤ cnt) (s : State) :
    exec (.bpWrite cnt) s = errorExit .param 0 s ∧ exec (.buRead cnt) s = errorExit .param 0 s := by
  have width : (!widthOk cnt) = true := by
    rw [Bool.not_eq_true', Bool.eq_false_iff, Ne, widthOk_iff]
    omega
  exact ⟨if_pos width, if_pos width⟩

/-- Settles O3: the rows' words decode (`opcodeRows_decode`), and every word that decodes is in a row. -/
theorem decodingFollowsTheMatchMaskRows : Obligations.DecodingFollowsTheMatchMaskRows := by
  refine ⟨opcodeRows_decode, fun _ _ => exists_row_of_decode, fun cnt fits bad => ⟨?_, ?_, exec_of_badWidth bad⟩,
    fun _ => decode_error_of_no_row⟩
  · rw [Nat.add_comm]
    exact decode_encode (i := .bpWrite cnt) (decide_eq_true fits)
  · rw [Nat.add_comm]
    exact decode_encode (i := .buRead cnt) (decide_eq_true fits)

/-- Every illegal word ends in the same way, whichever test it fails (R113, R290). -/
theorem engineStep_of_decode_error {s : State} {e : Illegal} (run : Instr → State → Host.Outcome State Fault Refusal)
    (illegal : decode s.cmd = .error e) : engineStep run s = .next (failedWith s .illegal 0) := by
  unfold engineStep
  rw [illegal]
  rfl

/-- The words that decode, in the terms of R113's three tests. -/
theorem exists_decode_iff (w : Word) : (∃ i, decode w = .ok i) ↔
    ¬ (rsvField w ≠ 0 ∨ ¬ opField w ∈ [0x00, 0x01, 0x02, 0x10, 0x11, 0x12, 0x13, 0x20, 0x21, 0x22, 0x30, 0x31] ∨
      (opField w ≠ 0x20 ∧ opField w ≠ 0x22 ∧ cntField w ≠ 0)) := by
  have takes : (takesCount (opField w) = true ∨ cntField w = 0) ↔
      ¬ (opField w ≠ 0x20 ∧ opField w ≠ 0x22 ∧ cntField w ≠ 0) := by
    simp only [takesCount, Bool.or_eq_true, beq_iff_eq]
    tauto
  simp only [decode_eq_ok_iff_tests, exists_and_left, exists_and_right, takes, ← instrOf_isSome_iff _ (cntField w),
    Option.isSome_iff_exists]
  tauto

/-- Settles O5: a failing test makes `decode` answer an error, and a word that passes has the fields of its command. -/
theorem engineClassifiesCommandWords : Obligations.EngineClassifiesCommandWords := by
  intro s next op cnt known
  have legal := exists_decode_iff s.cmd
  split_ifs with illegal
  · rw [step_of_engineNext next]
    cases decoded : decode s.cmd with
    | ok i => exact absurd illegal (legal.mp ⟨i, decoded⟩)
    | error e => exact engineStep_of_decode_error exec decoded
  · obtain ⟨i, decoded⟩ := legal.mpr illegal
    obtain ⟨-, opcode, count⟩ := (decode_eq_ok_iff s.cmd i).mp decoded
    exact ⟨i, opcode.symm, count.symm, stepRunsTheDecodedCommand s i next decoded⟩

end Sys2Proof.Machine
end

section
/-! O10 to O14: the colour transform and its two commands (40_color_transform R140 to R147). Two facts carry the section: the forward
numerators lie in a range where neither the truncation nor the clamp acts, and the clamp undoes the truncation's one deviation from the floor. -/

namespace Sys2Proof.Machine

/-! ## Quotients and clamps -/

theorem clamp8_of_nonpos {v : Int} (h : v ≤ 0) : clamp8 v = 0 := by
  unfold clamp8
  split_ifs <;> omega

/-- A channel value is its own clamp. -/
theorem clamp8_natCast {n : Nat} (h : n ≤ 255) : clamp8 n = n :=
  Int.ofNat.inj (clamp8_of_range (Int.natCast_nonneg n) (Int.ofNat_le.mpr h))

/-- Truncation differs from the floor on negative numerators only, and those clamp to 0 either way (R144). -/
theorem clamp8_truncDiv (a : Int) {b : Int} (hb : 0 < b) : clamp8 (truncDiv a b) = clamp8 (a / b) := by
  rcases lt_or_ge a 0 with negative | nonneg
  · rw [clamp8_of_nonpos (truncDiv_nonpos negative hb), clamp8_of_nonpos (Int.ediv_neg_of_neg_of_pos negative hb).le]
  · rw [truncDiv_of_nonneg nonneg]

/-! ## The forward transform -/

/-- The channels of a pixel (R140). -/
structure Rgb.InRange (c : Rgb) : Prop where
  r : c.r ≤ 255
  g : c.g ≤ 255
  b : c.b ≤ 255

theorem inRange_rgbOfPixel (p : Pixel) : (rgbOfPixel p).InRange := ⟨channel2_le p, channel1_le p, channel0_le p⟩

/-- The clamp of R141 never acts. -/
theorem natCast_luma {c : Rgb} (h : c.InRange) : (luma c : Int) = (299 * c.r + 587 * c.g + 114 * c.b) / 1000 := by
  obtain ⟨hr, hg, hb⟩ := h
  rw [luma, clamp8_of_range] <;> omega

/-- The numerators of R142 and R143, over the integer luma. -/
def redNumerator (c : Rgb) : Int := 713 * ((c.r : Int) - luma c) + 128000
def blueNumerator (c : Rgb) : Int := 564 * ((c.b : Int) - luma c) + 128000

theorem toYCrCb_eq (c : Rgb) : toYCrCb c =
    ⟨luma c, clamp8 (truncDiv (redNumerator c) 1000), clamp8 (truncDiv (blueNumerator c) 1000)⟩ := rfl

/-- The numerator of Cr attains both bounds, at cyan and at red (R142). -/
theorem redNumerator_range {c : Rgb} (h : c.InRange) : 1086 ≤ redNumerator c ∧ redNumerator c ≤ 255627 := by
  rw [redNumerator, natCast_luma h]
  obtain ⟨hr, hg, hb⟩ := h
  omega

/-- The numerator of Cb attains both bounds, at yellow and at blue (R143). -/
theorem blueNumerator_range {c : Rgb} (h : c.InRange) : 1100 ≤ blueNumerator c ∧ blueNumerator c ≤ 255464 := by
  rw [blueNumerator, natCast_luma h]
  obtain ⟨hr, hg, hb⟩ := h
  omega

/-- Neither the truncation nor the clamp acts on a numerator in 1000..255999 (R142, R143). -/
theorem chroma_exact {n : Int} (lower : 1000 ≤ n) (upper : n < 256000) :
    (clamp8 (truncDiv n 1000) : Int) = n / 1000 ∧ truncDiv n 1000 = n / 1000 ∧
      1 ≤ clamp8 (truncDiv n 1000) ∧ clamp8 (truncDiv n 1000) ≤ 255 := by
  have floor : truncDiv n 1000 = n / 1000 := truncDiv_of_nonneg (by omega) 1000
  have value : (clamp8 (n / 1000) : Int) = n / 1000 := clamp8_of_range (by omega) (by omega)
  rw [floor]
  exact ⟨value, rfl, by omega, clamp8_le _⟩

/-- Settles O10: the integer luma is the quotient of R141, and both chroma numerators stay in the range of `chroma_exact`. -/
theorem forwardTransformIsExactAndInRange : Obligations.ForwardTransformIsExactAndInRange := by
  intro r g b hr hg hb
  have inRange : Rgb.InRange ⟨r, g, b⟩ := ⟨hr, hg, hb⟩
  have clampY : clamp8 (luma ⟨r, g, b⟩) = luma ⟨r, g, b⟩ := clamp8_natCast (clamp8_le _)
  obtain ⟨redLower, redUpper⟩ := redNumerator_range inRange
  obtain ⟨blueLower, blueUpper⟩ := blueNumerator_range inRange
  obtain ⟨crValue, crFloor, crLower, crUpper⟩ := chroma_exact (n := redNumerator ⟨r, g, b⟩) (by omega) (by omega)
  have cb := chroma_exact (n := blueNumerator ⟨r, g, b⟩) (by omega) (by omega)
  dsimp only
  rw [← natCast_luma inRange, clampY]
  exact ⟨rfl, rfl, redLower, redUpper, rfl, crValue, crFloor, crLower, crUpper, rfl, cb⟩

/-! ## The inverse transform -/

/-- The clamped floors of R144. -/
theorem toRGB_eq_floors (c : Ycc) : toRGB c =
    { r := clamp8 ((1000 * (c.y : Int) + 1403 * ((c.cr : Int) - 128)) / 1000)
      g := clamp8 ((1000 * (c.y : Int) - 344 * ((c.cb : Int) - 128) - 714 * ((c.cr : Int) - 128)) / 1000)
      b := clamp8 ((1000 * (c.y : Int) + 1770 * ((c.cb : Int) - 128)) / 1000) } := by
  simp only [toRGB, clamp8_truncDiv _ (by decide : (0 : Int) < 1000)]

/-- Settles O11: `toRGB` is the first form by definition, and the clamp makes it the second (`clamp8_truncDiv`). -/
theorem inverseTransformIsClampedFloor : Obligations.InverseTransformIsClampedFloor :=
  ⟨fun _ _ _ _ _ _ => ⟨rfl, toRGB_eq_floors _⟩, by decide⟩

/-! ## Greys -/

theorem luma_grey {v : Nat} (h : v ≤ 255) : luma ⟨v, v, v⟩ = v := by
  have value := natCast_luma (c := ⟨v, v, v⟩) ⟨h, h, h⟩
  dsimp only at value
  omega

/-- A grey has no chroma: both numerators are 128000 (R145). -/
theorem toYCrCb_grey {v : Nat} (h : v ≤ 255) : toYCrCb ⟨v, v, v⟩ = ⟨v, 128, 128⟩ := by
  rw [toYCrCb, luma_grey h, Int.sub_self]
  rfl

/-- Without chroma every channel is the luma (R145). -/
theorem toRGB_grey {v : Nat} (h : v ≤ 255) : toRGB ⟨v, 128, 128⟩ = ⟨v, v, v⟩ := by
  simp [toRGB_eq_floors, clamp8_natCast h]

/-- Settles O12: the three pixels are evaluated. -/
theorem colourRoundTripIsExactOnGreysAndNotTheIdentity : Obligations.ColourRoundTripIsExactOnGreysAndNotTheIdentity :=
  ⟨fun _ h => ⟨toYCrCb_grey h, toRGB_grey h⟩, by decide, by decide, by decide⟩

/-! ## The commands -/

/-- The channels of the operand are the bytes of ARG0[23:0] (R42, R59). -/
theorem channel2_argPixel (s : State) : channel2 (argPixel s) = s.arg0.toNat / 65536 % 256 := by
  simp only [channel2, argPixel, BitVec.extractLsb'_toNat, Nat.shiftRight_eq_div_pow]
  omega

theorem channel1_argPixel (s : State) : channel1 (argPixel s) = s.arg0.toNat / 256 % 256 := by
  simp only [channel1, argPixel, BitVec.extractLsb'_toNat, Nat.shiftRight_eq_div_pow]
  omega

theorem channel0_argPixel (s : State) : channel0 (argPixel s) = s.arg0.toNat % 256 := by
  simp only [channel0, argPixel, BitVec.extractLsb'_toNat, Nat.shiftRight_eq_div_pow]
  omega

/-- The number that a packed triple is in RESULT (R59). -/
theorem toNat_wordOfPixel_packChannels {a b c : Nat} (ha : a ≤ 255) (hb : b ≤ 255) (hc : c ≤ 255) :
    (wordOfPixel (packChannels a b c)).toNat = 65536 * a + 256 * b + c := by
  rw [wordOfPixel, BitVec.toNat_setWidth_of_le (by decide), toNat_packChannels ha hb hc]

/-- The transformed pixel as a word: three exact quotients, in their bytes (R59, R141 to R143). -/
theorem toNat_wordOfPixel_toYCrCb {c : Rgb} (h : c.InRange) : ((wordOfPixel (pixelOfYcc (toYCrCb c))).toNat : Int) =
    65536 * luma c + 256 * (redNumerator c / 1000) + blueNumerator c / 1000 := by
  have red := redNumerator_range h
  have blue := blueNumerator_range h
  obtain ⟨cr, -⟩ := chroma_exact (n := redNumerator c) (by omega) (by omega)
  obtain ⟨cb, -⟩ := chroma_exact (n := blueNumerator c) (by omega) (by omega)
  obtain ⟨hy, hcr, hcb⟩ := toYCrCb_le c
  rw [pixelOfYcc, toNat_wordOfPixel_packChannels hy hcr hcb, toYCrCb_eq]
  push_cast
  rw [cr, cb]

/-- Settles O13: the word is the packed transform of the operand (`toNat_wordOfPixel_toYCrCb`). -/
theorem ctFwdWritesYCrCb : Obligations.CtFwdWritesYCrCb := by
  intro s
  have inRange := inRange_rgbOfPixel (argPixel s)
  refine ⟨wordOfPixel (pixelOfYcc (toYCrCb (rgbOfPixel (argPixel s)))), rfl, ?_⟩
  rw [toNat_wordOfPixel_toYCrCb inRange, redNumerator, blueNumerator, natCast_luma inRange]
  simp only [rgbOfPixel, channel2_argPixel, channel1_argPixel, channel0_argPixel]
  push_cast
  rfl

/-- Settles O14: the word is the packed transform of the operand, whose channels are the clamped floors of R144. -/
theorem ctInvWritesRgb : Obligations.CtInvWritesRgb := by
  intro s
  refine ⟨wordOfPixel (pixelOfRgb (toRGB (yccOfPixel (argPixel s)))), rfl, ?_⟩
  rw [toRGB_eq_floors, pixelOfRgb, toNat_wordOfPixel_packChannels (clamp8_le _) (clamp8_le _) (clamp8_le _)]
  simp only [yccOfPixel, channel2_argPixel, channel1_argPixel, channel0_argPixel]
  push_cast
  rfl

end Sys2Proof.Machine
end

section
/-! O15 to O19, O21, O22, O25: the block quantizer (41_block_quantizer R160 to R184). O17 is the one account of what BQ_ENCODE writes;
O19, O21 and O22 read each residual off it (`EncodedPixel`) and are then facts about natural numbers. -/

namespace Sys2Proof.Machine

/-! ## The least exponent -/

/-- The search that defines `rbn` stops at an exponent that is large enough, unless its fuel runs out first. -/
theorem le_two_pow_leastPower {m start fuel : Nat} (h : m ≤ 2 ^ (start + fuel)) : m ≤ 2 ^ leastPower m start fuel := by
  induction fuel generalizing start with
  | zero => exact h
  | succ n ih =>
    unfold leastPower
    split
    next large => exact large
    next => exact ih (by rwa [Nat.add_right_comm])

theorem le_two_pow_rbn (m : Nat) : m ≤ 2 ^ rbn m :=
  le_two_pow_leastPower (by rw [Nat.zero_add]; exact Nat.lt_two_pow_self.le)

theorem rbn_le_iff {m b : Nat} : rbn m ≤ b ↔ m ≤ 2 ^ b :=
  ⟨fun h => (le_two_pow_rbn m).trans (Nat.pow_le_pow_right (by decide) h), rbn_le_of_le_two_pow⟩

theorem rbn_two_pow (k : Nat) : rbn (2 ^ k) = k :=
  eq_of_forall_ge_iff fun _ => rbn_le_iff.trans (Nat.pow_le_pow_iff_right (by decide))

/-- A row of the table of R161. -/
theorem rbn_eq_succ {m b : Nat} (lower : ¬ m ≤ 2 ^ b) (upper : m ≤ 2 ^ (b + 1)) : rbn m = b + 1 :=
  le_antisymm (rbn_le_iff.mpr upper) (not_le.mp (rbn_le_iff.not.mpr lower))

/-- Settles O15: `rbn_le_iff` says that `rbn` is the least exponent, and each row of the table is one of its intervals. -/
theorem rbnIsTheLeastExponent : Obligations.RbnIsTheLeastExponent := by
  intro m hm
  refine ⟨le_two_pow_rbn m, fun b => rbn_le_of_le_two_pow, ?_⟩
  split_ifs with flat
  · exact Nat.le_zero.mp (rbn_le_iff.mpr flat)
  all_goals exact rbn_eq_succ (by assumption) (by omega)

/-! ## The shifted residual -/

/-- A residual is at most `2 ^ d`, although only those below fit `d` bits (R165, R166). -/
theorem shifted_le_two_pow {m d a : Nat} (h : a ≤ m) : a / 2 ^ (rbn m - d) ≤ 2 ^ d := by
  refine Nat.div_le_of_le_mul (h.trans ?_)
  rw [← Nat.pow_add, ← rbn_le_iff]
  omega

/-- A residual attains `2 ^ d` only where the pixel lies a whole power above the base, and MAXDELTA is that power (R167). -/
theorem two_pow_le_shifted_iff {m d a : Nat} (h : a ≤ m) :
    2 ^ d ≤ a / 2 ^ (rbn m - d) ↔ ∃ k, d ≤ k ∧ m = 2 ^ k ∧ 2 ^ k ≤ a := by
  rw [Nat.le_div_iff_mul_le (Nat.two_pow_pos _), ← Nat.pow_add]
  constructor
  · intro high
    have exponent : d + (rbn m - d) ≤ rbn m :=
      (Nat.pow_le_pow_iff_right (by decide)).mp ((high.trans h).trans (le_two_pow_rbn m))
    rw [show d + (rbn m - d) = rbn m by omega] at high
    exact ⟨rbn m, by omega, le_antisymm (le_two_pow_rbn m) (high.trans h), high⟩
  · rintro ⟨k, hk, rfl, high⟩
    rwa [rbn_two_pow, Nat.add_sub_cancel' hk]

/-! ## How BQ_ENCODE and the checks end -/

/-- The geometry conditions of R162. -/
theorem geomOk_iff {s : State} : geomOk s = true ↔
    1 ≤ s.imgW.toNat ∧ 1 ≤ s.imgH.toNat ∧ s.blkX.toNat < s.imgW.toNat ∧ s.blkY.toNat < s.imgH.toNat ∧
      (s.qcfg.blockSize = 2 ∨ s.qcfg.blockSize = 4 ∨ s.qcfg.blockSize = 6 ∨ s.qcfg.blockSize = 8) := by
  simp [geomOk, and_assoc, ← BitVec.toNat_inj]

/-- The width conditions of R162. -/
theorem bitsOk_iff {s : State} : bitsOk s = true ↔
    1 ≤ s.qcfg.yDeltaBits.toNat ∧ s.qcfg.yDeltaBits.toNat ≤ 8 ∧ 1 ≤ s.qcfg.crcbBits.toNat ∧ s.qcfg.crcbBits.toNat ≤ 8 := by
  simp [bitsOk, and_assoc]

theorem exec_bqEncode_of_ok {s : State} (geom : geomOk s = true) (bits : bitsOk s = true) :
    exec .bqEncode s = .next (complete (commitRecord s (encodeData s) (encodeResidual s))) :=
  if_pos (Bool.and_eq_true_iff.mpr ⟨geom, bits⟩)

theorem exec_bqEncode_of_not_ok {s : State} (bad : ¬ (geomOk s = true ∧ bitsOk s = true)) :
    exec .bqEncode s = .next (failedWith s .param 0) :=
  if_neg fun ok => bad (Bool.and_eq_true_iff.mp ok)

theorem exec_bqDeserialize_of_not_geomOk {s : State} (bad : ¬ geomOk s = true) :
    exec .bqDeserialize s = .next (failedWith s .param 0) :=
  if_pos (by simpa using bad)

/-- Settles O16: the statement's conditions are `geomOk` and `bitsOk`. -/
theorem badParametersRaiseParam : Obligations.BadParametersRaiseParam := by
  intro s
  dsimp only
  rw [← geomOk_iff, ← bitsOk_iff]
  exact ⟨exec_bqEncode_of_not_ok, fun ⟨geom, bits⟩ => ⟨_, exec_bqEncode_of_ok geom bits, rfl, rfl⟩,
    exec_bqDeserialize_of_not_geomOk⟩

/-- Settles O25: each check comes first where it fails. -/
theorem recordAndCapacityChecksArePrecise : Obligations.RecordAndCapacityChecksArePrecise := by
  intro s
  refine ⟨fun noRecord => ⟨if_neg (by simp [noRecord]), if_pos (by simp [noRecord])⟩, fun record full => ?_,
    fun n h1 h32 full => ?_⟩
  · exact (if_neg (by simp [record])).trans (if_pos full)
  · exact (if_neg (by simp [widthOk_iff, h1, h32])).trans (if_pos full)

/-! ## The values of the record -/

/-- A search that keeps one of two values at each pixel ends at a pixel's luma, or where it starts (R168). -/
theorem foldl_luma_attained {op : Nat → Nat → Nat} (choice : ∀ a b, op a b = a ∨ op a b = b) (l : List Ycc) (m : Nat) :
    l.foldl (fun m p => op m p.y) m = m ∨ ∃ p ∈ l, p.y = l.foldl (fun m p => op m p.y) m := by
  induction l generalizing m with
  | nil => exact .inl rfl
  | cons a rest ih =>
    rw [List.foldl_cons]
    rcases ih (op m a.y) with start | ⟨p, hp, attained⟩
    · rw [start]
      rcases choice m a.y with kept | taken
      · exact .inl kept
      · exact .inr ⟨a, List.mem_cons_self, taken.symm⟩
    · exact .inr ⟨p, List.mem_cons_of_mem _ hp, attained⟩

/-- The footprint of an accepted block has a pixel, the first. -/
theorem first_mem_blockYcc {s : State} (geom : geomOk s = true) : pixelYcc s 0 ∈ blockYcc s := by
  obtain ⟨⟨width, -⟩, height, -⟩ := geom_range geom
  exact mem_blockYcc.mpr ⟨0, mem_footprint.mpr ⟨0, 0, height, width, rfl⟩, rfl⟩

theorem minLuma_attained {l : List Ycc} {q : Ycc} (member : q ∈ l) (hq : q.y ≤ 255) : ∃ p ∈ l, p.y = minLuma l := by
  rcases foldl_luma_attained min_choice l 255 with start | attained
  · exact ⟨q, member, le_antisymm (hq.trans start.ge) (minLuma_le member)⟩
  · exact attained

theorem maxLuma_attained {l : List Ycc} {q : Ycc} (member : q ∈ l) : ∃ p ∈ l, p.y = maxLuma l := by
  rcases foldl_luma_attained max_choice l 0 with start | attained
  · exact ⟨q, member, le_antisymm (le_maxLuma member) (start.le.trans (Nat.zero_le _))⟩
  · exact attained

/-- BASEY is the luma of a footprint pixel, and the greatest luma is too (R164). -/
theorem extremes_attained {s : State} (geom : geomOk s = true) :
    (∃ i ∈ footprint (geomW s) (geomH s), (pixelYcc s i).y = minLuma (blockYcc s)) ∧
      ∃ i ∈ footprint (geomW s) (geomH s), (pixelYcc s i).y = maxLuma (blockYcc s) := by
  have first := first_mem_blockYcc geom
  constructor
  · simpa [mem_blockYcc] using minLuma_attained first (blockYcc_le first).1
  · simpa [mem_blockYcc] using maxLuma_attained first

/-- MAXDELTA spans from the least luma to the greatest, the subtraction being exact (R164). -/
theorem encodeData_baseY_add_maxDelta {s : State} (geom : geomOk s = true) :
    (encodeData s).baseY + (encodeData s).maxDelta = maxLuma (blockYcc s) := by
  have first := first_mem_blockYcc geom
  exact Nat.add_sub_cancel' ((minLuma_le first).trans (le_maxLuma first))

/-- A running sum is the sum of the footprint's values (R168). -/
theorem foldl_blockYcc_eq_sum (s : State) (f : Ycc → Nat) :
    (blockYcc s).foldl (fun t p => t + f p) 0 = ((footprint (geomW s) (geomH s)).map fun i => f (pixelYcc s i)).sum := by
  rw [List.sum_eq_foldl, List.foldl_map, blockYcc, List.foldl_map]

/-- The residual of buffer entry `i`, a quotient (R166). -/
theorem encodeResidual_eq_div (s : State) (i : Nat) : encodeResidual s (i / 8) (i % 8) =
    ((pixelYcc s i).y - (encodeData s).baseY) / 2 ^ (rbn (encodeData s).maxDelta - (encodeData s).d) := by
  rw [encodeResidual, Nat.div_add_mod', Nat.shiftRight_eq_div_pow, residualShift]

/-- A residual fits a RESBUF entry, being no larger than the luma it comes from (R62). -/
theorem encodeResidual_lt (s : State) (i : Nat) : encodeResidual s (i / 8) (i % 8) < 2 ^ 8 := by
  have luma : (pixelYcc s i).y ≤ 255 := (toYCrCb_le _).1
  have quotient := Nat.div_le_self ((pixelYcc s i).y - (encodeData s).baseY)
    (2 ^ (rbn (encodeData s).maxDelta - (encodeData s).d))
  rw [encodeResidual_eq_div]
  omega

theorem inFootprint_iff {w h i : Nat} : inFootprint w h i = true ↔ i % 8 < w ∧ i / 8 < h := by simp [inFootprint]

theorem mem_footprint_of_inside {w h i : Nat} (inside : i % 8 < w ∧ i / 8 < h) : i ∈ footprint w h :=
  mem_footprint.mpr ⟨i / 8, i % 8, inside.2, inside.1, (Nat.div_add_mod' i 8).symm⟩

/-- All 64 residuals that BQ_ENCODE writes (R62, R166). -/
theorem toNat_get_encoded (s : State) {i : Nat} (hi : i < 64) :
    ((commitRecord s (encodeData s) (encodeResidual s)).resbuf.get i).toNat =
      if i % 8 < geomW s ∧ i / 8 < geomH s then encodeResidual s (i / 8) (i % 8) else 0 := by
  rw [get_commitRecord s _ _ hi, apply_ite BitVec.toNat, BitVec.toNat_ofNat, Nat.mod_eq_of_lt (encodeResidual_lt s i)]
  exact if_congr inFootprint_iff rfl rfl

/-- Settles O17: each field of `encodeData` is the rule's value, and each fits its place (`toNat_recordOf`). -/
theorem bqEncodeWritesTheRecord : Obligations.BqEncodeWritesTheRecord := by
  intro s geom bits
  obtain ⟨dimW, dimH, ydBits, cBits, exponent, shift, baseY, maxDelta, avgCr, avgCb, size⟩ :=
    toNat_recordOf s (encodeData_valid geom bits)
  have span := encodeData_baseY_add_maxDelta geom
  obtain ⟨least, greatest⟩ := extremes_attained geom
  refine ⟨recordOf s (encodeData s), (commitRecord s (encodeData s) (encodeResidual s)).resbuf, exec_bqEncode_of_ok geom bits,
    rfl, rfl, dimW, dimH, ydBits, cBits, fun i hi => ?_, ?_, ?_, ?_, ?_, ?_, ?_, ?_, fun i hi => ?_⟩
  · have member := mem_blockYcc.mpr ⟨i, hi, rfl⟩
    rw [baseY, maxDelta, span]
    exact ⟨minLuma_le member, le_maxLuma member⟩
  · rw [baseY]
    exact least
  · rw [baseY, maxDelta, span]
    exact greatest
  · rw [exponent, maxDelta]
  · rw [shift, maxDelta]
    rfl
  · rw [avgCr, ← Nat.shiftRight_eq_div_pow]
    exact congrArg (fun sum => chromaAverage sum _ _) (foldl_blockYcc_eq_sum s Ycc.cr)
  · rw [avgCb, ← Nat.shiftRight_eq_div_pow]
    exact congrArg (fun sum => chromaAverage sum _ _) (foldl_blockYcc_eq_sum s Ycc.cb)
  · rw [size, maxDelta]
    rfl
  · rw [toNat_get_encoded s hi, encodeResidual_eq_div, baseY, shift]
    rfl

/-! ## The footprint alone -/

/-- The triples of the footprint depend on the geometry and the footprint's pixels (R163). -/
theorem blockYcc_congr {s t : State} (width : geomW s = geomW t) (height : geomH s = geomH t)
    (pixels : ∀ i ∈ footprint (geomW s) (geomH s), s.pixbuf.get i = t.pixbuf.get i) : blockYcc s = blockYcc t := by
  unfold blockYcc
  rw [← width, ← height]
  exact List.map_congr_left fun i hi => by rw [pixelYcc, pixels i hi, pixelYcc]

/-- Settles O18: the record is made of the block's triples, and a residual of its own pixel and the record. -/
theorem encodeIgnoresPixelsOutsideFootprint : Obligations.EncodeIgnoresPixelsOutsideFootprint := by
  intro s t s' t' imgW imgH blkX blkY qcfg pixels geom bits runS runT
  have width : geomW s = geomW t := by rw [geomW, geomW, imgW, blkX, qcfg]
  have height : geomH s = geomH t := by rw [geomH, geomH, imgH, blkY, qcfg]
  have geom' : geomOk t = true := by rwa [geomOk_iff, ← imgW, ← imgH, ← blkX, ← blkY, ← qcfg, ← geomOk_iff]
  have bits' : bitsOk t = true := by rwa [bitsOk_iff, ← qcfg, ← bitsOk_iff]
  have data : encodeData s = encodeData t := by
    simp only [encodeData, blockYcc_congr width height pixels, width, height, qcfg]
  cases (exec_bqEncode_of_ok geom bits).symm.trans runS
  cases (exec_bqEncode_of_ok geom' bits').symm.trans runT
  refine ⟨?_, fun i hi => BitVec.eq_of_toNat_eq ?_⟩
  · simp only [complete_qb, commitRecord_qb, recordOf, data, blkX, blkY]
  · rw [complete_resbuf, complete_resbuf, toNat_get_encoded s hi, toNat_get_encoded t hi, ← width, ← height]
    refine ite_congr rfl (fun inside => ?_) fun _ => rfl
    rw [encodeResidual_eq_div, encodeResidual_eq_div, data, pixelYcc, pixels i (mem_footprint_of_inside inside), pixelYcc]

/-! ## One pixel of an encoded block -/

/-- What BQ_ENCODE from `s` leaves in `t` for the pixel at buffer index `i` (R164 to R166). -/
structure EncodedPixel (s t : State) (i : Nat) : Prop where
  base_le : t.qb.baseY.toNat ≤ (pixelYcc s i).y
  le_top : (pixelYcc s i).y ≤ t.qb.baseY.toNat + t.qb.maxDelta.toNat
  top_le : t.qb.baseY.toNat + t.qb.maxDelta.toNat ≤ 255
  shift : t.qb.shift.toNat = rbn t.qb.maxDelta.toNat - s.qcfg.yDeltaBits.toNat
  residual : (t.resbuf.get i).toNat = ((pixelYcc s i).y - t.qb.baseY.toNat) / 2 ^ t.qb.shift.toNat

/-- Every pixel of the record's footprint is encoded. -/
theorem encodedPixel_of_mem {s t : State} (geom : geomOk s = true) (bits : bitsOk s = true)
    (run : exec .bqEncode s = .next t) {i : Nat} (hi : i ∈ footprint t.qb.dimW.toNat t.qb.dimH.toNat) : EncodedPixel s t i := by
  obtain ⟨⟨-, width⟩, -, height⟩ := geom_range geom
  obtain ⟨q, m, encoded, -, -, dimW, dimH, -, -, range, -, ⟨j, -, top⟩, -, shift, -, -, -, residuals⟩ :=
    bqEncodeWritesTheRecord s geom bits
  cases encoded.symm.trans run
  replace hi : i ∈ footprint (geomW s) (geomH s) := by rwa [dimW, dimH] at hi
  obtain ⟨base_le, le_top⟩ := range i hi
  have inside : i % 8 < geomW s ∧ i / 8 < geomH s := inFootprint_iff.mp ((mem_footprint_iff width).mp hi)
  exact ⟨base_le, le_top, top ▸ (toYCrCb_le _).1, shift, (residuals i (by omega)).trans (if_pos inside)⟩

/-- Settles O19: a residual is a shifted distance of at most MAXDELTA (`two_pow_le_shifted_iff`). -/
theorem residualOverflowsOnlyAtPowersOfTwo : Obligations.ResidualOverflowsOnlyAtPowersOfTwo := by
  intro s t geom bits run i hi
  obtain ⟨-, le_top, top_le, shift, residual⟩ := encodedPixel_of_mem geom bits run hi
  have above : (pixelYcc s i).y - t.qb.baseY.toNat ≤ t.qb.maxDelta.toNat := by omega
  dsimp only
  rw [residual, Nat.shiftRight_eq_div_pow]
  refine ⟨Nat.div_le_div_right above, (Nat.div_le_self _ _).trans (by omega), ?_, fun high => ?_⟩
  · rw [shift]
    exact two_pow_le_shifted_iff above
  · rw [shift] at high ⊢
    exact le_antisymm (shifted_le_two_pow above) high

/-- Settles O21: a quotient times its divisor falls short by less than the divisor. -/
theorem decodedLumaOfAnEncodedBlockNeedsNoClamp : Obligations.DecodedLumaOfAnEncodedBlockNeedsNoClamp := by
  intro s t geom bits run i hi
  obtain ⟨base_le, le_top, top_le, -, residual⟩ := encodedPixel_of_mem geom bits run hi
  have lower := Nat.div_mul_le_self ((pixelYcc s i).y - t.qb.baseY.toNat) (2 ^ t.qb.shift.toNat)
  have upper := Nat.lt_div_mul_add (a := (pixelYcc s i).y - t.qb.baseY.toNat) (Nat.two_pow_pos t.qb.shift.toNat)
  dsimp only
  rw [residual]
  omega

/-! ## A flat grey block -/

/-- The average of a channel with one value on the whole footprint, cut and restored, is that value where no bit of it is cut off
(R169, R183). -/
theorem decoded_average_of_flat {w h c v : Nat} {f : Nat → Nat} (area : 0 < w * h) (flat : ∀ i ∈ footprint w h, f i = v)
    (kept : 2 ^ (8 - c) ∣ v) : ((footprint w h).map f).sum / (w * h) / 2 ^ (8 - c) * 2 ^ (8 - c) = v := by
  rw [List.map_congr_left flat, List.map_const', List.sum_replicate, length_footprint, smul_eq_mul, Nat.mul_div_cancel_left v area,
    Nat.div_mul_cancel kept]

/-- The grey of L1.3 and L1.8, its luma below the clamp of R182. -/
theorem pixelOfRgb_toRGB_grey128 : pixelOfRgb (toRGB ⟨min 255 128, 128, 128⟩) = 0x808080 := by
  rw [show min 255 128 = 128 from rfl, toRGB_grey (by decide)]
  rfl

/-- Settles O22: every residual and MAXDELTA is 0, and the chroma 128 keeps its only bit in any width. -/
theorem flatGrey128BlockSurvivesQuantization : Obligations.FlatGrey128BlockSurvivesQuantization := by
  intro s geom bits grey
  obtain ⟨⟨width, -⟩, height, -⟩ := geom_range geom
  obtain ⟨-, cPos, -⟩ := bits_range bits
  have area : 0 < geomW s * geomH s := Nat.mul_pos width height
  have kept : 2 ^ (8 - s.qcfg.crcbBits.toNat) ∣ 128 := pow_dvd_pow 2 (show 8 - s.qcfg.crcbBits.toNat ≤ 7 by omega)
  have ycc : ∀ i ∈ footprint (geomW s) (geomH s), pixelYcc s i = ⟨128, 128, 128⟩ := fun i hi => by
    rw [pixelYcc, grey i hi]
    exact toYCrCb_grey (v := 128) (by decide)
  obtain ⟨q, m, encoded, -, -, dimW, dimH, -, cBits, -, ⟨i, hi, base⟩, ⟨j, hj, top⟩, -, -, avgCr, avgCb, size, residuals⟩ :=
    bqEncodeWritesTheRecord s geom bits
  rw [ycc i hi] at base
  rw [ycc j hj, ← base] at top
  have flat : q.maxDelta.toNat = 0 := Nat.left_eq_add.mp top
  have cr : q.avgCr.toNat * 2 ^ (8 - q.cBits.toNat) = 128 := by
    rw [avgCr, cBits]
    exact decoded_average_of_flat area (fun i hi => congrArg Ycc.cr (ycc i hi)) kept
  have cb : q.avgCb.toNat * 2 ^ (8 - q.cBits.toNat) = 128 := by
    rw [avgCb, cBits]
    exact decoded_average_of_flat area (fun i hi => congrArg Ycc.cb (ycc i hi)) kept
  rw [flat] at size
  obtain ⟨out, decoded, pixels⟩ := bqDecodeReconstructsTheBlock
    { s with qb := q, resbuf := m, status := { s.status with busy := false, done := true, recValid := true } } rfl
  refine ⟨_, _, encoded, BitVec.eq_of_toNat_eq flat, BitVec.eq_of_toNat_eq size, decoded, fun k hk => ?_⟩
  rw [pixels k hk]
  dsimp only
  rw [dimW, dimH, cr, cb]
  refine ite_congr rfl (fun inside => ?_) fun _ => rfl
  have residual : (m.get k).toNat = 0 := by
    rw [(residuals k hk).trans (if_pos inside), ycc k (mem_footprint_of_inside inside), ← base, Nat.sub_self, Nat.zero_div]
  rw [residual, Nat.zero_mul, ← base]
  exact pixelOfRgb_toRGB_grey128

end Sys2Proof.Machine
end

section
/-! O23, O26 to O32: the bit-packer and the block serializer (42_bit_packer R200 to R223). Two facts carry the section: fields appended one
after another are one append of their concatenation (`Appended`), and such an append reads back field by field (`HoldsFields`). -/

namespace Sys2Proof.Machine

/-! ## Several fields as one -/

/-- A list of fields (value, width) as one number, each value cut to its width and the first field in the lowest bits. -/
def packedValue : List (Nat × Nat) → Nat
  | [] => 0
  | (v, n) :: rest => 2 ^ n * packedValue rest + v % 2 ^ n

/-- The append loop reads only the bits it appends. -/
theorem putBits_congr {v v' n : Nat} (start : Nat) (m : Memory 8) (same : ∀ j < n, v.testBit j = v'.testBit j) :
    putBits start v n m = putBits start v' n m := by
  induction n with
  | zero => rfl
  | succ n ih => rw [putBits, putBits, ih fun j hj => same j (by omega), same n (by omega)]

/-- Two appends in a row are one append of the two values side by side (R202). -/
theorem putBits_putBits (start : Nat) {v n : Nat} (fits : v < 2 ^ n) (v' n' : Nat) (m : Memory 8) :
    putBits (start + n) v' n' (putBits start v n m) = putBits start (2 ^ n * v' + v) (n + n') m := by
  induction n' with
  | zero =>
    refine putBits_congr start m fun j hj => ?_
    rw [Nat.testBit_two_pow_mul_add v' fits, if_pos hj]
  | succ n' ih =>
    rw [putBits, ih, ← Nat.add_assoc, putBits, Nat.testBit_two_pow_mul_add v' fits, if_neg (by omega),
      Nat.add_sub_cancel_left, Nat.add_assoc]

/-- `t` holds the stream of `s` with the fields appended one after another (R202, R216). -/
structure Appended (fields : List (Nat × Nat)) (s t : State) : Prop where
  memA : t.memA = putBits (nbits s) (packedValue fields) (fields.map Prod.snd).sum s.memA
  aLen : t.aLen.toNat = (nbits s + (fields.map Prod.snd).sum + 7) / 8
  aCur : t.aCur.toNat = (nbits s + (fields.map Prod.snd).sum) % 8

theorem Appended.nbits_eq {fields : List (Nat × Nat)} {s t : State} (h : Appended fields s t) :
    nbits t = nbits s + (fields.map Prod.snd).sum :=
  nbits_of_len_cur h.aLen h.aCur

theorem Appended.packerOk {fields : List (Nat × Nat)} {s t : State} (h : Appended fields s t)
    (room : nbits s + (fields.map Prod.snd).sum ≤ 8 * t.cap) : PackerOk t := by
  have len := h.aLen
  have cur := h.aCur
  refine ⟨by omega, fun opened => ?_⟩
  have : t.aCur.toNat ≠ 0 := fun zero => opened (BitVec.eq_of_toNat_eq zero)
  omega

theorem appended_nil {s : State} (packer : PackerOk s) : Appended [] s s :=
  ⟨rfl, aLen_eq_of_cursor packer.2, aCur_eq_of_cursor s⟩

theorem Appended.cons {v n : Nat} {rest : List (Nat × Nat)} {s t u : State} (first : Appended [(v, n)] s t)
    (others : Appended rest t u) : Appended ((v, n) :: rest) s u := by
  have longer : nbits t = nbits s + n := first.nbits_eq
  have memA : t.memA = putBits (nbits s) (v % 2 ^ n) n s.memA := by simpa [packedValue] using first.memA
  refine ⟨?_, ?_, ?_⟩
  · rw [others.memA, longer, memA, putBits_putBits _ (Nat.mod_lt v (Nat.two_pow_pos n))]
    rfl
  · rw [others.aLen, longer, List.map_cons, List.sum_cons, Nat.add_assoc (nbits s)]
  · rw [others.aCur, longer, List.map_cons, List.sum_cons, Nat.add_assoc (nbits s)]

theorem appended_appendField (v : Nat) {n : Nat} {s : State} (capMax : s.cap ≤ 1048576) (packer : PackerOk s)
    (room : nbits s + n ≤ 8 * s.cap) : Appended [(v, n)] s (appendField v n s) := by
  refine ⟨by simp [packedValue, appendField_eq], ?_, by simp [appendField_eq]⟩
  exact toNat_lenAfter (nbits s) n s.aLen (aLen_eq_of_cursor packer.2) (by omega)

theorem appended_appendFields {fields : List (Nat × Nat)} {s : State} (capMax : s.cap ≤ 1048576) (packer : PackerOk s)
    (room : nbits s + (fields.map Prod.snd).sum ≤ 8 * s.cap) : Appended fields s (appendFields fields s) := by
  induction fields generalizing s with
  | nil => exact appended_nil packer
  | cons f rest ih =>
    obtain ⟨v, n⟩ := f
    rw [List.map_cons, List.sum_cons] at room
    have first := appended_appendField v (n := n) capMax packer (by omega)
    have longer : nbits (appendField v n s) = nbits s + n := first.nbits_eq
    refine first.cons (ih (s := appendField v n s) capMax (first.packerOk ?_) ?_)
    · change nbits s + n ≤ 8 * s.cap
      omega
    · rw [longer, cap_appendField]
      omega

/-- FIELD_OVF after several appends (R38, R216). -/
theorem appendFields_fieldOvf (fields : List (Nat × Nat)) (s : State) :
    (appendFields fields s).status.fieldOvf = (s.status.fieldOvf || fields.any fun f => overflows f.1 f.2) := by
  induction fields generalizing s with
  | nil => simp [appendFields]
  | cons f rest ih =>
    calc (appendFields rest (appendField f.1 f.2 s)).status.fieldOvf
      _ = ((s.status.fieldOvf || overflows f.1 f.2) || rest.any fun f => overflows f.1 f.2) := ih _
      _ = _ := by rw [List.any_cons, Bool.or_assoc]

/-! ## Fields read back -/

/-- From bit `pos` on, the stream holds the fields one after another, each value cut to its width. -/
def HoldsFields (m : Memory 8) : Nat → List (Nat × Nat) → Prop
  | _, [] => True
  | pos, (v, n) :: rest => readBits m pos n = v % 2 ^ n ∧ HoldsFields m (pos + n) rest

/-- A read inside an append gives a slice of the appended value (R202, R207). -/
theorem readBits_putBits (start v n : Nat) (m : Memory 8) {off k : Nat} (inside : off + k ≤ n) :
    readBits (putBits start v n m) (start + off) k = v / 2 ^ off % 2 ^ k := by
  refine Nat.eq_of_testBit_eq fun j => ?_
  rw [testBit_readBits, Nat.testBit_mod_two_pow, Nat.testBit_div_two_pow]
  by_cases hj : j < k
  · rw [streamBit_putBits, if_neg (by omega), if_pos (by omega)]
    congr 2
    omega
  · simp [hj]

theorem holdsFields_putBits (start v n : Nat) (m : Memory 8) {off : Nat} {fields : List (Nat × Nat)}
    (slice : v / 2 ^ off = packedValue fields) (inside : off + (fields.map Prod.snd).sum ≤ n) :
    HoldsFields (putBits start v n m) (start + off) fields := by
  induction fields generalizing off with
  | nil => trivial
  | cons f rest ih =>
    obtain ⟨x, k⟩ := f
    rw [List.map_cons, List.sum_cons] at inside
    refine ⟨?_, ?_⟩
    · rw [readBits_putBits start v n m (by omega), slice, packedValue, Nat.mul_add_mod, Nat.mod_mod]
    · rw [Nat.add_assoc]
      refine ih ?_ (by omega)
      rw [Nat.pow_add, ← Nat.div_div_eq_div_mul, slice, packedValue, Nat.mul_add_div (Nat.two_pow_pos k),
        Nat.div_eq_of_lt (Nat.mod_lt x (Nat.two_pow_pos k)), Nat.add_zero]

theorem Appended.holdsFields {fields : List (Nat × Nat)} {s t : State} (h : Appended fields s t) :
    HoldsFields t.memA (nbits s) fields := by
  rw [h.memA]
  exact holdsFields_putBits (off := 0) _ _ _ _ (by simp) (by omega)

/-! ## BP_WRITE, BP_CLEAR and BU_READ -/

theorem exec_bpWrite_of_width {n : Nat} (bad : ¬ (1 ≤ n ∧ n ≤ 32)) (s : State) :
    exec (.bpWrite n) s = .next (failedWith s .param 0) :=
  if_pos (by rwa [Bool.not_eq_true', ← Bool.not_eq_true, widthOk_iff])

theorem exec_buRead_of_width {n : Nat} (bad : ¬ (1 ≤ n ∧ n ≤ 32)) (s : State) :
    exec (.buRead n) s = .next (failedWith s .param 0) :=
  if_pos (by rwa [Bool.not_eq_true', ← Bool.not_eq_true, widthOk_iff])

/-- A position within the valid bits fits RD_POS (R66). -/
theorem toNat_ofNat_of_le_nbits {s : State} {pos : Nat} (inside : pos ≤ nbits s) : (BitVec.ofNat 24 pos).toNat = pos := by
  rw [BitVec.toNat_ofNat]
  exact Nat.mod_eq_of_lt (inside.trans_lt (nbits_lt s))

/-- BU_READ with a legal width, in a state whose stream lies in its memory (R208). -/
theorem exec_buRead_of_packed {s : State} {n : Nat} (width : 1 ≤ n ∧ n ≤ 32) (packer : PackerOk s) :
    exec (.buRead n) s =
      if nbits s < s.rdPos.toNat + n then .next (raiseError .underrun s.rdPos.toNat s)
      else .next (complete { s with
        result := BitVec.ofNat 32 (readBits s.memA s.rdPos.toNat n)
        rdPos := BitVec.ofNat 24 (s.rdPos.toNat + n) }) :=
  (if_neg (by simp [widthOk_iff.mpr width])).trans (needStream_of_le packer.1 _)

/-- Settles O26: the completion of BP_CLEAR is the statement's own state. -/
theorem bpClearEmptiesThePacker : Obligations.BpClearEmptiesThePacker :=
  fun _ => ⟨_, rfl, rfl, rfl⟩

/-- Settles O23: past the width check the only error is CAPACITY or UNDERRUN, and a completion keeps ERRCODE. -/
theorem fieldWidthOutsideRangeRaisesParam : Obligations.FieldWidthOutsideRangeRaisesParam := by
  refine fun s n => ⟨fun bad => ⟨exec_bpWrite_of_width bad s, exec_buRead_of_width bad s⟩, fun h1 h32 before t run => ?_⟩
  have width : widthOk n = true := widthOk_iff.mpr ⟨h1, h32⟩
  rcases run with write | read
  · simp only [exec, execBpWrite, width, Bool.not_true, Bool.false_eq_true, if_false] at write
    split at write <;> cases write
    · exact nofun
    · exact before
  · simp only [exec, execBuRead, width, Bool.not_true, Bool.false_eq_true, if_false, needStream_next_iff] at read
    obtain ⟨-, read⟩ := read
    split at read <;> cases read
    · exact nofun
    · exact before

/-- Settles O27: the bits of the read value are `testBit_readBits`. -/
theorem buReadReadsTheField : Obligations.BuReadReadsTheField := by
  intro s n h1 h32 capMax packer
  rw [exec_buRead_of_packed ⟨h1, h32⟩ packer]
  refine ⟨fun there => ⟨_, _, if_neg there.not_gt, toNat_ofNat_of_le_nbits there, fun j => ?_⟩,
    fun missing => (if_pos missing).trans ?_⟩
  · rw [BitVec.getLsbD_ofNat, testBit_readBits, ← Bool.and_assoc, ← Bool.decide_and]
    congr 2
    apply propext
    omega
  · rw [raiseError, BitVec.ofNat_toNat, BitVec.setWidth_eq]
    rfl

/-! ## Packing and unpacking in several commands -/

/-- The host's fields with their values as numbers. -/
def fieldNumbers (fields : List (Word × Nat)) : List (Nat × Nat) := fields.map fun f => (f.1.toNat, f.2)

theorem fieldNumbers_widths (fields : List (Word × Nat)) : (fieldNumbers fields).map Prod.snd = fields.map Prod.snd := by
  simp [fieldNumbers, Function.comp_def]

/-- One step of `packFields`: the issue of the command touches no part of the stream, nor does its completion. -/
theorem runCommandWord_bpWrite {s : State} {n : Nat} (v : Word) (capMax : s.cap ≤ 1048576) (packer : PackerOk s)
    (width : 1 ≤ n ∧ n ≤ 32) (room : nbits s + n ≤ 8 * s.cap) :
    ∃ t, runCommandWord (.bpWrite n) { s with arg0 := v } = .next t ∧ t.status.done = true ∧ t.memCap = s.memCap ∧
      Appended [(v.toNat, n)] s t := by
  let issued := issue (encode (.bpWrite n)) { s with arg0 := v }
  have one : Appended [(v.toNat, n)] issued (appendField v.toNat n issued) := appended_appendField _ capMax packer room
  exact ⟨_, execBpWrite_of_room (s := issued) width.1 width.2 room, rfl, rfl, one.memA, one.aLen, one.aCur⟩

theorem packFields_appended {fields : List (Word × Nat)} {s : State} (capMax : s.cap ≤ 1048576) (packer : PackerOk s)
    (widths : ∀ f ∈ fields, 1 ≤ f.2 ∧ f.2 ≤ 32) (room : nbits s + (fields.map Prod.snd).sum ≤ 8 * s.cap) :
    ∃ t, packFields fields s = some t ∧ t.memCap = s.memCap ∧ Appended (fieldNumbers fields) s t := by
  induction fields generalizing s with
  | nil => exact ⟨s, rfl, rfl, appended_nil packer⟩
  | cons f rest ih =>
    obtain ⟨v, n⟩ := f
    obtain ⟨width, widths⟩ := List.forall_mem_cons.mp widths
    rw [List.map_cons, List.sum_cons] at room
    obtain ⟨t, run, done, memCap, first⟩ := runCommandWord_bpWrite v capMax packer width (by omega)
    have cap : t.cap = s.cap := congrArg BitVec.toNat memCap
    have longer : nbits t = nbits s + n := first.nbits_eq
    have packer' : PackerOk t := first.packerOk (by simp; omega)
    obtain ⟨u, packed, memCap', others⟩ := ih (by omega) packer' widths (by omega)
    refine ⟨u, ?_, memCap'.trans memCap, first.cons others⟩
    simp only [packFields, run, done, if_true, packed]

/-- One step of `unpackFields`: the stream stays, and RD_POS moves past the field. -/
theorem runCommandWord_buRead {s : State} {n : Nat} (packer : PackerOk s) (width : 1 ≤ n ∧ n ≤ 32)
    (there : s.rdPos.toNat + n ≤ nbits s) :
    ∃ t, runCommandWord (.buRead n) s = .next t ∧ t.status.done = true ∧
      t.result = BitVec.ofNat 32 (readBits s.memA s.rdPos.toNat n) ∧ t.rdPos.toNat = s.rdPos.toNat + n ∧
      t.memA = s.memA ∧ nbits t = nbits s ∧ PackerOk t := by
  let issued := issue (encode (.buRead n)) s
  exact ⟨_, (exec_buRead_of_packed (s := issued) width packer).trans (if_neg there.not_gt), rfl, rfl,
    toNat_ofNat_of_le_nbits there, rfl, rfl, packer⟩

/-- Fields that lie within the valid bits are read back, each cut to its width. -/
theorem unpackFields_of_holdsFields {fields : List (Nat × Nat)} {s : State} (packer : PackerOk s)
    (widths : ∀ f ∈ fields, 1 ≤ f.2 ∧ f.2 ≤ 32) (inside : s.rdPos.toNat + (fields.map Prod.snd).sum ≤ nbits s)
    (holds : HoldsFields s.memA s.rdPos.toNat fields) :
    unpackFields (fields.map Prod.snd) s = some (fields.map fun f => BitVec.ofNat 32 (f.1 % 2 ^ f.2)) := by
  induction fields generalizing s with
  | nil => rfl
  | cons f rest ih =>
    obtain ⟨v, n⟩ := f
    obtain ⟨width, widths⟩ := List.forall_mem_cons.mp widths
    obtain ⟨value, others⟩ := holds
    rw [List.map_cons, List.sum_cons] at inside
    obtain ⟨t, run, done, result, advanced, memA, length, packer'⟩ := runCommandWord_buRead packer width (by omega)
    have later := ih packer' widths (by omega) (by rwa [memA, advanced])
    simp only [List.map_cons, unpackFields, run, done, if_true, later, Option.map_some, result, value]

/-- Settles O28: the fields are packed as one append, which holds them one after another. -/
theorem packedFieldsReadBackInOrder : Obligations.PackedFieldsReadBackInOrder := by
  intro s fields capMax packer widths room
  obtain ⟨t, packed, memCap, appended⟩ := packFields_appended capMax packer widths room
  have length := appended.nbits_eq
  have holds := appended.holdsFields
  have cap : t.cap = s.cap := congrArg BitVec.toNat memCap
  rw [fieldNumbers_widths] at length
  have packer' : PackerOk t := appended.packerOk (by rw [fieldNumbers_widths]; omega)
  have start : (BitVec.ofNat 24 (nbits s)).toNat = nbits s := toNat_ofNat_of_le_nbits le_rfl
  refine ⟨t, packed, ?_⟩
  rw [← fieldNumbers_widths, unpackFields_of_holdsFields (fields := fieldNumbers fields)]
  · simp [fieldNumbers]
  · exact packer'
  · exact List.forall_mem_map.mpr widths
  · rw [fieldNumbers_widths, start]
    exact length.ge
  · rw [start]
    exact holds

/-! ## BQ_SERIALIZE -/

/-- BQ_SERIALIZE of a record whose block fits; it writes A, A_LEN, A_CUR and FIELD_OVF alone (R216). -/
theorem exec_bqSerialize_of_room {s : State} (valid : s.status.recValid = true) (room : nbits s + serialLength s.qb ≤ 8 * s.cap)
    (width : s.qb.dimW.toNat ≤ 8) (height : s.qb.dimH.toNat ≤ 8) :
    let t := appendFields (blockFields s) s
    exec .bqSerialize s = .next { s with memA := t.memA, aLen := t.aLen, aCur := t.aCur, status := { s.status with
      busy := false, done := true, fieldOvf := t.status.fieldOvf } } := by
  have run : exec .bqSerialize s = .next (complete (appendFields (blockFields s) s)) := by
    simp [exec, execBqSerialize, valid, room.not_gt, width.not_gt, height.not_gt]
  obtain ⟨m, len, cur, ovf, frame⟩ := appendFields_frame (blockFields s) s
  rw [run, frame]
  rfl

/-- Fields of one width lie at equal distances (R211). -/
theorem HoldsFields.readBits_map {m : Memory 8} {pos d : Nat} {l : List Nat} {f : Nat → Nat}
    (h : HoldsFields m pos (l.map fun i => (f i, d))) {j : Nat} (hj : j < l.length) :
    readBits m (pos + j * d) d = f l[j] % 2 ^ d := by
  induction l generalizing pos j with
  | nil => exact absurd hj (Nat.not_lt_zero j)
  | cons i rest ih =>
    obtain ⟨value, others⟩ := h
    cases j with
    | zero => simpa using value
    | succ j =>
      rw [Nat.succ_mul, Nat.add_comm (j * d), ← Nat.add_assoc]
      exact ih others (Nat.lt_of_succ_lt_succ hj)

/-- The six fields of a serialized block that stand before its residuals (R210). -/
def blockHeader (s : State) : List (Nat × Nat) :=
  [(s.qb.cBits.toNat, 8), (s.qb.avgCr.toNat, s.qb.cBits.toNat), (s.qb.avgCb.toNat, s.qb.cBits.toNat), (s.qb.ydBits.toNat, 8),
    (s.qb.baseY.toNat, 8), (s.qb.maxDelta.toNat, 8)]

theorem blockFields_eq (s : State) : blockFields s = blockHeader s ++
    if 0 < s.qb.maxDelta.toNat then
      (footprint s.qb.dimW.toNat s.qb.dimH.toNat).map fun i => ((s.resbuf.get i).toNat, s.qb.ydBits.toNat)
    else [] := rfl

/-- Every header field of a valid record fits its width (R57). -/
theorem blockHeader_fits {s : State} (valid : s.status.recValid = true) (record : RecordOk s) :
    ∀ f ∈ blockHeader s, f.1 < 2 ^ f.2 := by
  obtain ⟨-, ⟨-, d8, -, c8⟩, -, -, -, avgCr, avgCb, -, -, -⟩ := record valid
  simp only [blockHeader, List.forall_mem_cons]
  exact ⟨by omega, avgCr, avgCb, by omega, s.qb.baseY.isLt, s.qb.maxDelta.isLt, nofun⟩

/-- FIELD_OVF of a valid record: only a residual can set it (R216). -/
theorem any_overflows_blockFields {s : State} (valid : s.status.recValid = true) (record : RecordOk s) :
    ((blockFields s).any fun f => overflows f.1 f.2) = true ↔
      ∃ i ∈ footprint s.qb.dimW.toNat s.qb.dimH.toNat, 2 ^ s.qb.ydBits.toNat ≤ (s.resbuf.get i).toNat := by
  obtain ⟨⟨-, w8, -, h8⟩, -, -, -, -, -, -, -, -, flat⟩ := record valid
  have header : ((blockHeader s).any fun f => overflows f.1 f.2) = false :=
    List.any_eq_false.mpr fun f hf => by simpa [overflows_eq] using blockHeader_fits valid record f hf
  rw [blockFields_eq, List.any_append, header, Bool.false_or]
  split
  · simp [overflows_eq]
  · next noDelta =>
    have zero : s.qb.maxDelta = 0 := BitVec.eq_of_toNat_eq (by simpa using noDelta)
    refine ⟨nofun, fun ⟨i, hi, high⟩ => ?_⟩
    obtain ⟨row, col, hr, hc, rfl⟩ := mem_footprint.mp hi
    rw [flat zero _ (by omega)] at high
    exact absurd high (Nat.two_pow_pos _).not_ge

/-- Where the fields of a valid record's block stand (R210, R211). -/
structure BlockAt (s : State) (m : Memory 8) (pos : Nat) : Prop where
  cBits : readBits m pos 8 = s.qb.cBits.toNat
  avgCr : readBits m (pos + 8) s.qb.cBits.toNat = s.qb.avgCr.toNat
  avgCb : readBits m (pos + 8 + s.qb.cBits.toNat) s.qb.cBits.toNat = s.qb.avgCb.toNat
  ydBits : readBits m (pos + 8 + 2 * s.qb.cBits.toNat) 8 = s.qb.ydBits.toNat
  baseY : readBits m (pos + 16 + 2 * s.qb.cBits.toNat) 8 = s.qb.baseY.toNat
  maxDelta : readBits m (pos + 24 + 2 * s.qb.cBits.toNat) 8 = s.qb.maxDelta.toNat
  residuals (delta : 0 < s.qb.maxDelta.toNat) (j : Nat) (hj : j < (footprint s.qb.dimW.toNat s.qb.dimH.toNat).length) :
    readBits m (pos + 32 + 2 * s.qb.cBits.toNat + j * s.qb.ydBits.toNat) s.qb.ydBits.toNat =
      (s.resbuf.get (footprint s.qb.dimW.toNat s.qb.dimH.toNat)[j]).toNat % 2 ^ s.qb.ydBits.toNat

/-- The fields of a block stand where the layout puts them. -/
theorem HoldsFields.blockAt {s : State} {m : Memory 8} {pos : Nat} (valid : s.status.recValid = true) (record : RecordOk s)
    (h : HoldsFields m pos (blockFields s)) : BlockAt s m pos := by
  have fits := blockHeader_fits valid record
  simp only [blockHeader, List.forall_mem_cons] at fits
  obtain ⟨fc, fcr, fcb, fd, fb, fm, -⟩ := fits
  obtain ⟨c, cr, cb, d, base, md, res⟩ := h
  have p3 : pos + 8 + s.qb.cBits.toNat + s.qb.cBits.toNat = pos + 8 + 2 * s.qb.cBits.toNat := by omega
  have p4 : pos + 8 + 2 * s.qb.cBits.toNat + 8 = pos + 16 + 2 * s.qb.cBits.toNat := by omega
  have p5 : pos + 16 + 2 * s.qb.cBits.toNat + 8 = pos + 24 + 2 * s.qb.cBits.toNat := by omega
  have p6 : pos + 24 + 2 * s.qb.cBits.toNat + 8 = pos + 32 + 2 * s.qb.cBits.toNat := by omega
  rw [p3] at d base md res
  rw [p4] at base md res
  rw [p5] at md res
  rw [p6] at res
  refine ⟨c.trans (Nat.mod_eq_of_lt fc), cr.trans (Nat.mod_eq_of_lt fcr), cb.trans (Nat.mod_eq_of_lt fcb),
    d.trans (Nat.mod_eq_of_lt fd), base.trans (Nat.mod_eq_of_lt fb), md.trans (Nat.mod_eq_of_lt fm), fun delta j hj => ?_⟩
  rw [if_pos delta] at res
  exact res.readBits_map hj

/-- Settles O29: the fields are one append, whose bits `streamBit_putBits` gives and whose fields `Appended.holdsFields` gives. -/
theorem bqSerializeAppendsTheLayout : Obligations.BqSerializeAppendsTheLayout := by
  intro s capMax packer valid record c d fp N T room
  obtain ⟨⟨-, w8, -, h8⟩, -⟩ := record valid
  have widths : ((blockFields s).map Prod.snd).sum = T := sum_blockFields_widths s
  have T_ge : 32 ≤ T := (Nat.le_add_right 32 _).trans (Nat.le_add_right _ _)
  have appended := appended_appendFields (fields := blockFields s) capMax packer (by rw [widths]; exact room)
  obtain ⟨cBits, avgCr, avgCb, ydBits, baseY, maxDelta, residuals⟩ := appended.holdsFields.blockAt valid record
  obtain ⟨memA, aLen, aCur⟩ := appended
  rw [widths] at memA aLen aCur
  refine ⟨_, _, _, _, exec_bqSerialize_of_room valid room w8 h8, aLen, aCur, ?_, cBits, avgCr, avgCb, ydBits, baseY, maxDelta,
    residuals, fun k hk => ?_, fun k hk covered => ?_, fun a ha => ?_⟩
  · rw [appendFields_fieldOvf, Bool.or_eq_true, any_overflows_blockFields valid record]
  · rw [memA, streamBit_putBits, if_pos hk]
  · rw [memA, streamBit_putBits, if_neg (by omega), if_neg (by omega), if_pos (by omega)]
  · rw [memA]
    rcases ha with below | above
    · exact get_putBits_below _ _ _ _ below
    · exact get_putBits_above _ _ _ _ (aLen ▸ above)

/-! ## The fields BQ_DESERIALIZE reads -/

/-- A field that lies within the valid bits and passes its check. -/
theorem fieldWhere_of_ok {s : State} {n pos : Nat} {ok : Nat → Bool} (there : pos + n ≤ nbits s)
    (accepted : ok (readBits s.memA pos n) = true) : fieldWhere s n pos ok = .ok (readBits s.memA pos n, pos + n) := by
  rw [fieldWhere, field_of_le there]
  exact if_pos accepted

theorem fieldWhere_of_bad {s : State} {n pos : Nat} {ok : Nat → Bool} (there : pos + n ≤ nbits s)
    (rejected : ¬ ok (readBits s.memA pos n) = true) : fieldWhere s n pos ok = .error ⟨.format, pos⟩ := by
  rw [fieldWhere, field_of_le there]
  exact if_neg rejected

theorem field_of_gt {s : State} {n pos : Nat} (missing : nbits s < pos + n) : field s n pos = .error ⟨.underrun, pos⟩ :=
  if_pos missing

theorem fieldWhere_of_gt {s : State} {n pos : Nat} {ok : Nat → Bool} (missing : nbits s < pos + n) :
    fieldWhere s n pos ok = .error ⟨.underrun, pos⟩ := by
  rw [fieldWhere, field_of_gt missing]

/-- Of several fields of one width, the first that is cut underruns (R220). -/
theorem fieldList_of_gt {s : State} {n k pos j : Nat} (hj : j < k) (there : pos + j * n ≤ nbits s)
    (missing : nbits s < pos + (j + 1) * n) : fieldList s n k pos = .error ⟨.underrun, pos + j * n⟩ := by
  induction k generalizing pos j with
  | zero => exact absurd hj (Nat.not_lt_zero j)
  | succ k ih =>
    cases j with
    | zero => rw [fieldList, field_of_gt (by simpa using missing), Nat.zero_mul, Nat.add_zero]
    | succ j =>
      rw [Nat.succ_mul] at there missing ⊢
      rw [fieldList, field_of_le (by omega), show pos + (j * n + n) = pos + n + j * n by omega]
      dsimp only
      rw [ih (Nat.lt_of_succ_lt_succ hj) (by omega) (by omega)]

/-! ## How far BQ_DESERIALIZE reads -/

theorem bind_of_ok {ε α β : Type} {x : Except ε α} {a : α} (h : x = .ok a) (f : α → Except ε β) : x >>= f = f a := by
  rw [h]
  rfl

theorem bind_of_error {ε α β : Type} {x : Except ε α} {e : ε} (h : x = .error e) (f : α → Except ε β) :
    x >>= f = .error e := by
  rw [h]
  rfl

/-- The fields of the block at RD_POS, as far as the stream holds them (R210, R220). -/
def crcbField (s : State) : Nat := readBits s.memA s.rdPos.toNat 8
def avgCrField (s : State) : Nat := readBits s.memA (s.rdPos.toNat + 8) (crcbField s)
def avgCbField (s : State) : Nat := readBits s.memA (s.rdPos.toNat + 8 + crcbField s) (crcbField s)
def ydField (s : State) : Nat := readBits s.memA (s.rdPos.toNat + 8 + 2 * crcbField s) 8
def baseField (s : State) : Nat := readBits s.memA (s.rdPos.toNat + 16 + 2 * crcbField s) 8
def deltaField (s : State) : Nat := readBits s.memA (s.rdPos.toNat + 24 + 2 * crcbField s) 8
def residualField (s : State) (j : Nat) : Nat :=
  readBits s.memA (s.rdPos.toNat + 32 + 2 * crcbField s + j * ydField s) (ydField s)

/-- The block at RD_POS (R222). -/
def blockAtRdPos (s : State) : ParsedBlock where
  data := { w := geomW s, h := geomH s, d := ydField s, c := crcbField s, baseY := baseField s, maxDelta := deltaField s,
            avgCr := avgCrField s, avgCb := avgCbField s }
  residuals :=
    if 0 < deltaField s then (List.range (geomW s * geomH s)).map (residualField s)
    else List.replicate (geomW s * geomH s) 0
  stop := s.rdPos.toNat + (32 + 2 * crcbField s + if 0 < deltaField s then geomW s * geomH s * ydField s else 0)

/-- The reads of `parseBlock` after the header. -/
def parseResiduals (s : State) (c acr acb d base md pos : Nat) : Except CmdError ParsedBlock := do
  let (res, p7) ← if 0 < md then fieldList s d (geomW s * geomH s) pos else .ok (List.replicate (geomW s * geomH s) 0, pos)
  return { data := { w := geomW s, h := geomH s, d := d, c := c, baseY := base, maxDelta := md, avgCr := acr, avgCb := acb }
           residuals := res
           stop := p7 }

/-- The reads of `parseBlock` from the field of QB_LUMA.BASEY on. -/
def parseLuma (s : State) (c acr acb d pos : Nat) : Except CmdError ParsedBlock := do
  let (base, p5) ← field s 8 pos
  let (md, p6) ← fieldWhere s 8 p5 fun v => decide (base + v ≤ 255)
  parseResiduals s c acr acb d base md p6

/-- The reads of `parseBlock` from the first average on. -/
def parseChroma (s : State) (c pos : Nat) : Except CmdError ParsedBlock := do
  let (acr, p2) ← field s c pos
  let (acb, p3) ← field s c p2
  let (d, p4) ← fieldWhere s 8 p3 widthTagOk
  parseLuma s c acr acb d p4

/-! Each of these takes `parseBlock` past one more accepted field, in stream order (R222). -/

theorem parseBlock_eq_bind (s : State) :
    parseBlock s = fieldWhere s 8 s.rdPos.toNat widthTagOk >>= fun f => parseChroma s f.1 f.2 := rfl

theorem parseBlock_of_crcb {s : State} (there : s.rdPos.toNat + 8 ≤ nbits s) (ok : 1 ≤ crcbField s ∧ crcbField s ≤ 8) :
    parseBlock s = parseChroma s (crcbField s) (s.rdPos.toNat + 8) :=
  bind_of_ok (fieldWhere_of_ok there (widthTagOk_iff.mpr ok)) _

theorem parseBlock_of_averages {s : State} (there : s.rdPos.toNat + 8 + 2 * crcbField s ≤ nbits s)
    (ok : 1 ≤ crcbField s ∧ crcbField s ≤ 8) :
    parseBlock s = fieldWhere s 8 (s.rdPos.toNat + 8 + 2 * crcbField s) widthTagOk >>= fun f =>
      parseLuma s (crcbField s) (avgCrField s) (avgCbField s) f.1 f.2 := by
  have next : s.rdPos.toNat + 8 + crcbField s + crcbField s = s.rdPos.toNat + 8 + 2 * crcbField s := by omega
  rw [parseBlock_of_crcb (by omega) ok, ← next]
  exact (bind_of_ok (field_of_le (by omega)) _).trans (bind_of_ok (field_of_le (by omega)) _)

theorem parseBlock_of_ydBits {s : State} (there : s.rdPos.toNat + 16 + 2 * crcbField s ≤ nbits s)
    (ok : 1 ≤ crcbField s ∧ crcbField s ≤ 8) (ok' : 1 ≤ ydField s ∧ ydField s ≤ 8) :
    parseBlock s = parseLuma s (crcbField s) (avgCrField s) (avgCbField s) (ydField s) (s.rdPos.toNat + 16 + 2 * crcbField s) := by
  have next : s.rdPos.toNat + 8 + 2 * crcbField s + 8 = s.rdPos.toNat + 16 + 2 * crcbField s := by omega
  rw [parseBlock_of_averages (by omega) ok, ← next]
  exact bind_of_ok (fieldWhere_of_ok (by omega) (widthTagOk_iff.mpr ok')) _

theorem parseBlock_of_baseY {s : State} (there : s.rdPos.toNat + 24 + 2 * crcbField s ≤ nbits s)
    (ok : 1 ≤ crcbField s ∧ crcbField s ≤ 8) (ok' : 1 ≤ ydField s ∧ ydField s ≤ 8) :
    parseBlock s = fieldWhere s 8 (s.rdPos.toNat + 24 + 2 * crcbField s) (fun v => decide (baseField s + v ≤ 255)) >>= fun f =>
      parseResiduals s (crcbField s) (avgCrField s) (avgCbField s) (ydField s) (baseField s) f.1 f.2 := by
  have next : s.rdPos.toNat + 16 + 2 * crcbField s + 8 = s.rdPos.toNat + 24 + 2 * crcbField s := by omega
  rw [parseBlock_of_ydBits (by omega) ok ok', ← next]
  exact bind_of_ok (field_of_le (by omega)) _

theorem parseBlock_of_maxDelta {s : State} (there : s.rdPos.toNat + 32 + 2 * crcbField s ≤ nbits s)
    (ok : 1 ≤ crcbField s ∧ crcbField s ≤ 8) (ok' : 1 ≤ ydField s ∧ ydField s ≤ 8)
    (luma : baseField s + deltaField s ≤ 255) :
    parseBlock s = parseResiduals s (crcbField s) (avgCrField s) (avgCbField s) (ydField s) (baseField s) (deltaField s)
      (s.rdPos.toNat + 32 + 2 * crcbField s) := by
  have next : s.rdPos.toNat + 24 + 2 * crcbField s + 8 = s.rdPos.toNat + 32 + 2 * crcbField s := by omega
  rw [parseBlock_of_baseY (by omega) ok ok', ← next]
  exact bind_of_ok (fieldWhere_of_ok (by omega) (decide_eq_true luma)) _

/-! ## BQ_DESERIALIZE -/

theorem exec_bqDeserialize_of_geomOk {s : State} (packer : PackerOk s) (geom : geomOk s = true) :
    exec .bqDeserialize s = settle s ((parseBlock s).map (commitParsed s)) :=
  (if_neg (by simp [geom])).trans (needStream_of_le packer.1 _)

theorem exec_bqDeserialize_of_error {s : State} {code : ErrCode} {pos : Nat} (packer : PackerOk s) (geom : geomOk s = true)
    (failed : parseBlock s = .error ⟨code, pos⟩) :
    exec .bqDeserialize s = .next (failedWith s code (BitVec.ofNat 24 pos)) := by
  rw [exec_bqDeserialize_of_geomOk packer geom, failed]
  rfl

/-- Settles O31: each clause is an error of `parseBlock`, the fields before it having been accepted. -/
theorem deserializeRejectsBadOrMissingFields : Obligations.DeserializeRejectsBadOrMissingFields := by
  intro s packer geom P N c d base md failsAt
  have fails {code : ErrCode} {p : Nat} (failed : parseBlock s = .error ⟨code, p⟩) : failsAt code p :=
    exec_bqDeserialize_of_error packer geom failed
  refine ⟨fun missing => fails ?crcbMissing, fun there bad => fails ?crcbBad, fun okC =>
    ⟨fun there missing => fails ?avgCrMissing, fun there missing => fails ?avgCbMissing,
      fun there missing => fails ?ydMissing, fun there bad => fails ?ydBad, fun okD =>
        ⟨fun there missing => fails ?baseMissing, fun there missing => fails ?deltaMissing, fun there bad => fails ?lumaBad,
          fun luma delta j hj there missing => fails ?residualMissing⟩⟩⟩
  case crcbMissing => exact bind_of_error (fieldWhere_of_gt missing) _
  case crcbBad => exact bind_of_error (fieldWhere_of_bad there (widthTagOk_iff.not.mpr bad)) _
  case avgCrMissing => exact (parseBlock_of_crcb there okC).trans (bind_of_error (field_of_gt missing) _)
  case avgCbMissing =>
    have missing : N < P + 8 + c + c := by omega
    exact (parseBlock_of_crcb (by omega) okC).trans
      ((bind_of_ok (field_of_le there) _).trans (bind_of_error (field_of_gt missing) _))
  case ydMissing =>
    have missing : N < P + 8 + 2 * c + 8 := by omega
    exact (parseBlock_of_averages there okC).trans (bind_of_error (fieldWhere_of_gt missing) _)
  case ydBad =>
    have before : P + 8 + 2 * c ≤ N := by omega
    have there : P + 8 + 2 * c + 8 ≤ N := by omega
    exact (parseBlock_of_averages before okC).trans
      (bind_of_error (fieldWhere_of_bad there (widthTagOk_iff.not.mpr bad)) _)
  case baseMissing =>
    have missing : N < P + 16 + 2 * c + 8 := by omega
    exact (parseBlock_of_ydBits there okC okD).trans (bind_of_error (field_of_gt missing) _)
  case deltaMissing =>
    have missing : N < P + 24 + 2 * c + 8 := by omega
    exact (parseBlock_of_baseY there okC okD).trans (bind_of_error (fieldWhere_of_gt missing) _)
  case lumaBad =>
    have before : P + 24 + 2 * c ≤ N := by omega
    have there : P + 24 + 2 * c + 8 ≤ N := by omega
    have rejected : ¬ decide (base + md ≤ 255) = true := by simpa using bad
    exact (parseBlock_of_baseY before okC okD).trans (bind_of_error (fieldWhere_of_bad there rejected) _)
  case residualMissing =>
    have before : P + 32 + 2 * c ≤ N := (Nat.le_add_right _ _).trans there
    have cut := fieldList_of_gt hj there missing
    exact (parseBlock_of_maxDelta before okC okD luma).trans ((if_pos delta).trans (bind_of_error cut _))

/-- A block whose fields are accepted and all there is read whole (R222). -/
theorem parseBlock_of_wellFormed {s : State} (okC : 1 ≤ crcbField s ∧ crcbField s ≤ 8) (okD : 1 ≤ ydField s ∧ ydField s ≤ 8)
    (luma : baseField s + deltaField s ≤ 255) (there : (blockAtRdPos s).stop ≤ nbits s) :
    parseBlock s = .ok (blockAtRdPos s) := by
  rw [blockAtRdPos] at there
  dsimp only at there
  rw [parseBlock_of_maxDelta (by omega) okC okD luma, parseResiduals, blockAtRdPos]
  split at there
  next delta =>
    rw [if_pos delta, if_pos delta, if_pos delta, ← Nat.add_assoc, ← Nat.add_assoc]
    exact bind_of_ok (fieldList_of_le (by omega)) _
  next flat =>
    rw [if_neg flat, if_neg flat, if_neg flat]
    simp only [Nat.add_zero, ← Nat.add_assoc]
    rfl

/-- The block at RD_POS is one that R57 lets a record hold, where the checks of R221 accept it. -/
theorem blockAtRdPos_valid {s : State} (geom : geomOk s = true) (okC : 1 ≤ crcbField s ∧ crcbField s ≤ 8)
    (okD : 1 ≤ ydField s ∧ ydField s ≤ 8) (luma : baseField s + deltaField s ≤ 255) : (blockAtRdPos s).data.Valid := by
  obtain ⟨width, height⟩ := geom_range geom
  exact ⟨width, height, okD, okC, luma, readBits_lt _ _ _, readBits_lt _ _ _⟩

theorem getD_residuals_blockAtRdPos {s : State} {j : Nat} (hj : j < geomW s * geomH s) :
    (blockAtRdPos s).residuals.getD j 0 = if 0 < deltaField s then residualField s j else 0 := by
  rw [blockAtRdPos]
  split <;> simp [hj]

/-- The number of a footprint pixel in row-major order. -/
theorem rowMajor_lt {w h row col : Nat} (hr : row < h) (hc : col < w) : row * w + col < w * h :=
  calc row * w + col
    _ < (row + 1) * w := by rw [Nat.succ_mul]; omega
    _ ≤ w * h := by rw [Nat.mul_comm w]; exact Nat.mul_le_mul_right w hr

/-- All 64 residuals that BQ_DESERIALIZE writes (R62, R222). -/
theorem toNat_get_commitParsed {s : State} (okD : ydField s ≤ 8) {i : Nat} (hi : i < 64) :
    ((commitParsed s (blockAtRdPos s)).resbuf.get i).toNat =
      if i % 8 < geomW s ∧ i / 8 < geomH s ∧ 0 < deltaField s then residualField s (i / 8 * geomW s + i % 8) else 0 := by
  have fits (j : Nat) : residualField s j < 2 ^ 8 := (readBits_lt _ _ _).trans_le (Nat.pow_le_pow_right (by decide) okD)
  have entry : (commitParsed s (blockAtRdPos s)).resbuf.get i =
      if inFootprint (geomW s) (geomH s) i then BitVec.ofNat 8 ((blockAtRdPos s).residuals.getD (i / 8 * geomW s + i % 8) 0)
      else 0 := get_commitRecord s (blockAtRdPos s).data (fun row col => (blockAtRdPos s).residuals.getD (row * geomW s + col) 0) hi
  rw [entry]
  split
  next inside =>
    obtain ⟨col, row⟩ := inFootprint_iff.mp inside
    rw [getD_residuals_blockAtRdPos (rowMajor_lt row col), BitVec.toNat_ofNat]
    split
    next delta => rw [if_pos ⟨col, row, delta⟩, Nat.mod_eq_of_lt (fits _)]
    next flat => rw [if_neg fun ⟨_, _, delta⟩ => flat delta, Nat.zero_mod]
  next outside =>
    rw [inFootprint_iff] at outside
    rw [if_neg fun ⟨col, row, _⟩ => outside ⟨col, row⟩]
    rfl

/-- Settles O30: the block is the one at RD_POS, and every field fits its place (`toNat_recordOf`). -/
theorem bqDeserializeReadsTheLayout : Obligations.BqDeserializeReadsTheLayout := by
  intro s capMax packer geom P w h c d base md T c1 c8 d1 d8 luma there
  obtain ⟨dimW, dimH, ydBits, cBits, exponent, shift, baseY, maxDelta, avgCr, avgCb, size⟩ :=
    toNat_recordOf s (blockAtRdPos_valid geom ⟨c1, c8⟩ ⟨d1, d8⟩ luma)
  refine ⟨recordOf s (blockAtRdPos s).data, (commitParsed s (blockAtRdPos s)).resbuf, BitVec.ofNat 24 (blockAtRdPos s).stop,
    ?_, toNat_ofNat_of_le_nbits there, rfl, rfl, dimW, dimH, ydBits, cBits, exponent, shift, baseY, maxDelta, avgCr, avgCb, size,
    fun i hi => toNat_get_commitParsed d8 hi⟩
  rw [exec_bqDeserialize_of_geomOk packer geom, parseBlock_of_wellFormed ⟨c1, c8⟩ ⟨d1, d8⟩ luma there]
  rfl

/-! ## Serializing and deserializing -/

/-- Row-major order (R16). -/
theorem getElem?_footprint {w h row col : Nat} (hr : row < h) (hc : col < w) :
    (footprint w h)[row * w + col]? = some (row * 8 + col) := by
  induction h with
  | zero => exact absurd hr (Nat.not_lt_zero row)
  | succ h ih =>
    have rows : footprint w (h + 1) = footprint w h ++ (List.range w).map (h * 8 + ·) := by simp [footprint, List.range_succ]
    rw [rows]
    rcases Nat.lt_succ_iff_lt_or_eq.mp hr with above | rfl
    · rw [List.getElem?_append_left (by rw [length_footprint]; exact rowMajor_lt above hc), ih above]
    · rw [List.getElem?_append_right (by rw [length_footprint, Nat.mul_comm]; omega), length_footprint, Nat.mul_comm w,
        Nat.add_sub_cancel_left, List.getElem?_map, List.getElem?_range hc]
      rfl

/-- The values of a record. -/
def recordData (q : BlockRecord) : BlockData where
  w := q.dimW.toNat
  h := q.dimH.toNat
  d := q.ydBits.toNat
  c := q.cBits.toNat
  baseY := q.baseY.toNat
  maxDelta := q.maxDelta.toNat
  avgCr := q.avgCr.toNat
  avgCb := q.avgCb.toNat

/-- A valid record is the one that its values make at its origin: QB_BITS and QB_CSIZE follow from them (R57, R175). -/
theorem recordOf_recordData {s v : State} (valid : s.status.recValid = true) (record : RecordOk s) (blkX : v.blkX = s.qb.posX)
    (blkY : v.blkY = s.qb.posY) : recordOf v (recordData s.qb) = s.qb := by
  obtain ⟨-, -, exponent, shift, -, -, -, size, -, -⟩ := record valid
  rw [← exponent] at shift
  simp only [recordOf, recordData, residualShift, ← exponent, ← shift, ← size, BitVec.ofNat_toNat, BitVec.setWidth_eq, blkX, blkY]

/-- BQ_DESERIALIZE of a valid record's block restores the record, each residual cut to its width (R222). -/
theorem bqDeserialize_of_blockAt {s v : State} (valid : s.status.recValid = true) (record : RecordOk s)
    (packer : PackerOk v) (geom : geomOk v = true) (width : geomW v = s.qb.dimW.toNat) (height : geomH v = s.qb.dimH.toNat)
    (blkX : v.blkX = s.qb.posX) (blkY : v.blkY = s.qb.posY) (block : BlockAt s v.memA v.rdPos.toNat)
    (there : v.rdPos.toNat + serialLength s.qb ≤ nbits v) :
    ∃ u, exec .bqDeserialize v = .next u ∧ u.status.recValid = true ∧ u.qb = s.qb ∧
      ∀ i < 64, (u.resbuf.get i).toNat = (s.resbuf.get i).toNat % 2 ^ s.qb.ydBits.toNat := by
  obtain ⟨-, ⟨d1, d8, c1, c8⟩, -, -, luma, -, -, -, outside, flat⟩ := record valid
  have c : crcbField v = s.qb.cBits.toNat := block.cBits
  have d : ydField v = s.qb.ydBits.toNat := by rw [ydField, c, block.ydBits]
  have base : baseField v = s.qb.baseY.toNat := by rw [baseField, c, block.baseY]
  have md : deltaField v = s.qb.maxDelta.toNat := by rw [deltaField, c, block.maxDelta]
  have cr : avgCrField v = s.qb.avgCr.toNat := by rw [avgCrField, c, block.avgCr]
  have cb : avgCbField v = s.qb.avgCb.toNat := by rw [avgCbField, c, block.avgCb]
  have data : (blockAtRdPos v).data = recordData s.qb := by
    rw [blockAtRdPos, recordData, c, d, base, md, cr, cb, width, height]
  have stop : (blockAtRdPos v).stop = v.rdPos.toNat + serialLength s.qb := by
    rw [blockAtRdPos, serialLength, c, d, md, width, height]
  have parsed : parseBlock v = .ok (blockAtRdPos v) :=
    parseBlock_of_wellFormed (by omega) (by omega) (by omega) (by omega)
  refine ⟨complete (commitParsed v (blockAtRdPos v)), ?_, rfl, ?_, fun i hi => ?_⟩
  · rw [exec_bqDeserialize_of_geomOk packer geom, parsed]
    rfl
  · exact (congrArg (recordOf v) data).trans (recordOf_recordData valid record blkX blkY)
  · rw [complete_resbuf, toNat_get_commitParsed (by omega) hi, width, height, md]
    split
    next inside =>
      obtain ⟨col, row, delta⟩ := inside
      obtain ⟨hj, entry⟩ := List.getElem?_eq_some_iff.mp (getElem?_footprint row col)
      rw [residualField, c, d, block.residuals delta _ hj, entry, Nat.div_add_mod']
    next zero =>
      have entry : s.resbuf.get i = 0 := by
        by_cases inside : i % 8 < s.qb.dimW.toNat ∧ i / 8 < s.qb.dimH.toNat
        · have noDelta : s.qb.maxDelta.toNat = 0 := by omega
          exact flat (BitVec.eq_of_toNat_eq noDelta) i hi
        · exact outside i hi (Bool.eq_false_iff.mpr (inFootprint_iff.not.mpr inside))
      rw [entry]
      exact (Nat.zero_mod _).symm

/-- Settles O32: the serialized block is a `BlockAt` at the old end of the stream, and it is all of the stream after it. -/
theorem serializeThenDeserializeRestoresTheRecord : Obligations.SerializeThenDeserializeRestoresTheRecord := by
  intro s capMax packer valid record geom width height blkX blkY room
  obtain ⟨⟨-, w8, -, h8⟩, -⟩ := record valid
  have widths := sum_blockFields_widths s
  have start : (BitVec.ofNat 24 (nbits s)).toNat = nbits s := toNat_ofNat_of_le_nbits le_rfl
  let t := appendFields (blockFields s) s
  let v : State := { s with memA := t.memA, aLen := t.aLen, aCur := t.aCur, rdPos := BitVec.ofNat 24 (nbits s),
                            status := { s.status with busy := false, done := true, fieldOvf := t.status.fieldOvf } }
  have appended : Appended (blockFields s) s v := by
    obtain ⟨memA, aLen, aCur⟩ := appended_appendFields capMax packer (widths.symm ▸ room)
    exact ⟨memA, aLen, aCur⟩
  have packer' : PackerOk v := appended.packerOk (widths.symm ▸ room)
  have block : BlockAt s v.memA v.rdPos.toNat := start.symm ▸ appended.holdsFields.blockAt valid record
  have there : v.rdPos.toNat + serialLength s.qb ≤ nbits v := by rw [appended.nbits_eq, widths, start]
  obtain ⟨u, run, recValid, qb, residuals⟩ :=
    bqDeserialize_of_blockAt valid record packer' geom width height blkX blkY block there
  refine ⟨_, u, exec_bqSerialize_of_room valid room w8 h8, run, recValid, qb, fun i hi => ⟨fun fits => ?_, fun full => ?_⟩⟩
  · exact BitVec.eq_of_toNat_eq ((residuals i hi).trans (Nat.mod_eq_of_lt fits))
  · refine BitVec.eq_of_toNat_eq ((residuals i hi).trans ?_)
    rw [full, Nat.mod_self]
    rfl

end Sys2Proof.Machine
end

section
/-! O33 to O39: the run-length codec (43_run_length R240 to R252). The encoder puts out a list of legal chunks (`ChunksOf`), and the decoder
reads any list of chunks with legal lengths as what the chunks stand for; that decoding inverts encoding follows from these two. -/

namespace Sys2Proof.Machine

/-! ## The encoder's loop -/

/-- At the end of the input the open span is flushed (R242). -/
theorem rleEncodeFrom_nil (fuel : Nat) (lit : List Byte) : rleEncodeFrom fuel lit [] = literalChunk lit := by
  cases fuel <;> rfl

/-- A turn that finds a run of two or more (R242). -/
theorem rleEncodeFrom_run {a : Byte} {rest : List Byte} (repeated : 1 ≤ runLength a 254 rest) (fuel : Nat) (lit : List Byte) :
    rleEncodeFrom (fuel + 1) lit (a :: rest) = literalChunk lit ++
      (runChunk (runLength a 254 rest + 1) a ++ rleEncodeFrom fuel [] (rest.drop (runLength a 254 rest))) := by
  rw [rleEncodeFrom, if_pos (by omega), Nat.add_sub_cancel_left, Nat.add_comm, List.append_assoc]

/-- A turn that finds a byte alone (R242): the byte joins the open span, which is flushed at 255. -/
theorem rleEncodeFrom_single {a : Byte} {rest : List Byte} (alone : runLength a 254 rest = 0) (fuel : Nat) (lit : List Byte) :
    rleEncodeFrom (fuel + 1) lit (a :: rest) =
      if (lit ++ [a]).length = 255 then literalChunk (lit ++ [a]) ++ rleEncodeFrom fuel [] rest
      else rleEncodeFrom fuel (lit ++ [a]) rest := by
  rw [rleEncodeFrom, if_neg (by omega)]

/-- Where the count is 0, the next byte differs. -/
theorem ne_head_of_runLength_eq_zero {v : Byte} {limit : Nat} {l : List Byte} (alone : runLength v (limit + 1) l = 0) :
    ∀ b ∈ l.head?, v ≠ b := by
  cases l with
  | nil => nofun
  | cons b rest =>
    rintro c ⟨⟩ rfl
    simp [runLength] at alone

/-- A run, counted, and what follows it. -/
theorem replicate_runLength_append_drop (v : Byte) (limit : Nat) (l : List Byte) :
    List.replicate (runLength v limit l) v ++ l.drop (runLength v limit l) = l := by
  rw [← take_runLength, List.take_append_drop]

theorem runLength_replicate (v : Byte) (limit n : Nat) : runLength v limit (List.replicate n v) = min limit n := by
  induction limit generalizing n with
  | zero => simp [runLength]
  | succ limit ih =>
    cases n with
    | zero => rfl
    | succ n => simp [List.replicate_succ, runLength, ih]

/-! ## The encoding as a list of chunks -/

/-- `cs` is a legal list of chunks that is written as `out` and stands for `a` (R240, R243). -/
structure ChunksOf (out a : List Byte) (cs : List Chunk) : Prop where
  bytes : out = cs.flatMap Chunk.bytes
  data : cs.flatMap Chunk.data = a
  legal : ∀ c ∈ cs, c.legal
  chain : cs.IsChain Chunk.mayPrecede

theorem chunksOf_nil : ChunksOf [] [] [] := ⟨rfl, rfl, nofun, .nil⟩

theorem ChunksOf.cons {c : Chunk} {cs : List Chunk} {out a : List Byte} (h : ChunksOf out a cs) (legal : c.legal)
    (next : ∀ d ∈ cs.head?, c.mayPrecede d) : ChunksOf (c.bytes ++ out) (c.data ++ a) (c :: cs) where
  bytes := by rw [h.bytes, List.flatMap_cons]
  data := by rw [List.flatMap_cons, h.data]
  legal := List.forall_mem_cons.mpr ⟨legal, h.legal⟩
  chain := List.isChain_cons.mpr ⟨next, h.chain⟩

/-- A flushed span in front of a legal list of chunks that it may precede (R242, FlushLit). -/
theorem ChunksOf.flush {lit out a : List Byte} {cs : List Chunk} (h : ChunksOf out a cs) (short : lit.length ≤ 255)
    (distinct : lit.IsChain (· ≠ ·)) (next : ∀ d ∈ cs.head?, (Chunk.literal lit).mayPrecede d) :
    ∃ cs, ChunksOf (literalChunk lit ++ out) (lit ++ a) cs := by
  by_cases empty : lit = []
  · subst empty
    exact ⟨cs, h⟩
  · rw [literalChunk_of_ne_nil empty]
    have lengthOk : (Chunk.literal lit).lengthOk := ⟨List.length_pos_iff.mpr empty, short⟩
    exact ⟨_, h.cons ⟨lengthOk, distinct⟩ next⟩

/-- The open span between two turns of the encoder, and the byte that comes next: not full, and no two equal neighbours. -/
def OpenSpan (lit rest : List Byte) : Prop := lit.length < 255 ∧ (lit ++ rest.take 1).IsChain (· ≠ ·)

theorem openSpan_nil (rest : List Byte) : OpenSpan [] rest := by
  cases rest <;> simp [OpenSpan]

/-- The last flush, at the end of the input. -/
theorem OpenSpan.chunksOf_end {lit : List Byte} (span : OpenSpan lit []) (fuel : Nat) :
    ∃ cs, ChunksOf (rleEncodeFrom fuel lit []) (lit ++ []) cs := by
  have distinct : lit.IsChain (· ≠ ·) := by simpa using span.2
  simpa [rleEncodeFrom_nil] using chunksOf_nil.flush span.1.le distinct nofun

/-- A byte that is not repeated leaves no two equal neighbours when it joins the span. -/
theorem OpenSpan.snoc {lit rest : List Byte} {a : Byte} (span : OpenSpan lit (a :: rest))
    (alone : runLength a 254 rest = 0) : (lit ++ [a] ++ rest.take 1).IsChain (· ≠ ·) := by
  refine List.isChain_append.mpr ⟨span.2, by cases rest <;> simp, fun x hx y hy => ?_⟩
  rw [List.getLast?_concat, Option.mem_some_iff] at hx
  rw [List.head?_take] at hy
  exact hx ▸ ne_head_of_runLength_eq_zero alone y hy

/-- A counted run of two or more, in front of the chunks of what follows it (R242). -/
theorem ChunksOf.run {a : Byte} {rest out : List Byte} {cs : List Chunk} (repeated : 1 ≤ runLength a 254 rest)
    (h : ChunksOf out (rest.drop (runLength a 254 rest)) cs) :
    ChunksOf (runChunk (runLength a 254 rest + 1) a ++ out) (a :: rest) (.run (runLength a 254 rest + 1) a :: cs) := by
  have bound := runLength_le_limit a 254 rest
  have lengthOk : (Chunk.run (runLength a 254 rest + 1) a).lengthOk := ⟨by omega, by omega⟩
  have input : (Chunk.run (runLength a 254 rest + 1) a).data ++ rest.drop (runLength a 254 rest) = a :: rest := by
    rw [Chunk.data, List.replicate_succ, List.cons_append, replicate_runLength_append_drop]
  exact input ▸ h.cons ⟨lengthOk, trivial⟩ fun _ _ => trivial

/-- A full span may precede every chunk (R243). -/
theorem mayPrecede_of_full {lit : List Byte} (full : lit.length = 255) (d : Chunk) : (Chunk.literal lit).mayPrecede d := by
  cases d with
  | run => trivial
  | literal => exact full

/-- The encoder's loop puts out legal chunks for the open span and what is left of the input (R243). -/
theorem rleEncodeFrom_chunksOf {fuel : Nat} {lit rest : List Byte} (enough : rest.length ≤ fuel) (span : OpenSpan lit rest) :
    ∃ cs, ChunksOf (rleEncodeFrom fuel lit rest) (lit ++ rest) cs := by
  induction fuel generalizing lit rest with
  | zero =>
    obtain rfl := List.length_eq_zero_iff.mp (Nat.le_zero.mp enough)
    exact span.chunksOf_end 0
  | succ fuel ih =>
    cases rest with
    | nil => exact span.chunksOf_end _
    | cons a rest =>
      have enough : rest.length ≤ fuel := Nat.le_of_succ_le_succ enough
      have short : lit.length < 255 := span.1
      rcases Nat.eq_zero_or_pos (runLength a 254 rest) with alone | repeated
      · have distinct := span.snoc alone
        have joined : (lit ++ [a]).length = lit.length + 1 := List.length_append
        rw [rleEncodeFrom_single alone, List.append_cons lit a rest]
        split
        next full =>
          obtain ⟨cs, h⟩ := ih enough (openSpan_nil rest)
          exact h.flush full.le (List.isChain_append.mp distinct).1 fun d _ => mayPrecede_of_full full d
        next notFull => exact ih enough ⟨by omega, distinct⟩
      · have enough : (rest.drop (runLength a 254 rest)).length ≤ fuel := by rw [List.length_drop]; omega
        obtain ⟨cs, h⟩ := ih enough (openSpan_nil _)
        rw [rleEncodeFrom_run repeated]
        exact (h.run repeated).flush short.le (List.isChain_append.mp span.2).1 (by rintro _ ⟨⟩; trivial)

/-- Settles O34: the whole input is left of the loop, and no span is open. -/
theorem rleEncodingIsASequenceOfLegalChunks : Obligations.RleEncodingIsASequenceOfLegalChunks := by
  intro a
  obtain ⟨cs, bytes, data, legal, chain⟩ := rleEncodeFrom_chunksOf le_rfl (openSpan_nil a)
  exact ⟨cs, bytes, data, legal, chain⟩

/-! ## Runs of one byte -/

/-- The chunks of a run shorter than 255 (R243). -/
def restChunk (m : Nat) (v : Byte) : List Byte :=
  if 2 ≤ m then runChunk m v else if m = 1 then literalChunk [v] else []

/-- With no open span, two or more equal bytes give one RUN chunk of up to 255 of them. -/
theorem rleEncodeFrom_replicate {m : Nat} (two : 2 ≤ m) (v : Byte) (fuel : Nat) :
    rleEncodeFrom (fuel + 1) [] (List.replicate m v) =
      runChunk (min m 255) v ++ rleEncodeFrom fuel [] (List.replicate (m - 255) v) := by
  obtain ⟨n, rfl⟩ : ∃ n, m = n + 1 := ⟨m - 1, by omega⟩
  have count : runLength v 254 (List.replicate n v) = min n 254 := (runLength_replicate v 254 n).trans (Nat.min_comm 254 n)
  have taken : min n 254 + 1 = min (n + 1) 255 := by omega
  have left : n - min n 254 = n + 1 - 255 := by omega
  rw [List.replicate_succ, rleEncodeFrom_run (by omega), count, List.drop_replicate, taken, left]
  rfl

theorem rleEncodeFrom_rest {m fuel : Nat} (short : m < 255) (enough : m ≤ fuel) (v : Byte) :
    rleEncodeFrom fuel [] (List.replicate m v) = restChunk m v := by
  by_cases two : 2 ≤ m
  · obtain ⟨fuel, rfl⟩ : ∃ f, fuel = f + 1 := ⟨fuel - 1, by omega⟩
    rw [rleEncodeFrom_replicate two, Nat.min_eq_left short.le, Nat.sub_eq_zero_of_le short.le, List.replicate_zero,
      rleEncodeFrom_nil, literalChunk_nil, List.append_nil, restChunk, if_pos two]
  · obtain rfl | rfl : m = 0 ∨ m = 1 := by omega
    · exact rleEncodeFrom_nil fuel []
    · obtain ⟨fuel, rfl⟩ : ∃ f, fuel = f + 1 := ⟨fuel - 1, by omega⟩
      exact (rleEncodeFrom_single rfl fuel []).trans (rleEncodeFrom_nil fuel [v])

/-- A long run: full RUN chunks and then the chunk of the rest (R243). -/
theorem rleEncodeFrom_runs (q : Nat) {m fuel : Nat} (short : m < 255) (enough : 255 * q + m ≤ fuel) (v : Byte) :
    rleEncodeFrom fuel [] (List.replicate (255 * q + m) v) =
      (List.replicate q (runChunk 255 v)).flatten ++ restChunk m v := by
  induction q generalizing fuel with
  | zero =>
    rw [Nat.mul_zero, Nat.zero_add] at *
    exact rleEncodeFrom_rest short enough v
  | succ q ih =>
    obtain ⟨fuel, rfl⟩ : ∃ f, fuel = f + 1 := ⟨fuel - 1, by omega⟩
    have full : min (255 * (q + 1) + m) 255 = 255 := by omega
    have left : 255 * (q + 1) + m - 255 = 255 * q + m := by omega
    rw [rleEncodeFrom_replicate (by omega), full, left, ih (by omega), List.replicate_succ, List.flatten_cons, List.append_assoc]

/-- Settles O35: `m / 255` full runs and then the rest. -/
theorem rleEncodesARunInCappedChunks : Obligations.RleEncodesARunInCappedChunks := by
  intro m v
  have runs := rleEncodeFrom_runs (m / 255) (Nat.mod_lt m (by omega)) (Nat.div_add_mod m 255).le v
  rw [Nat.div_add_mod] at runs
  rw [rleEncode, List.length_replicate]
  exact runs

/-! ## The decoder's loop -/

/-- A chunk with a RUN tag, whole (R251). -/
theorem rleDecodeFrom_run (cap fuel p o : Nat) (len v : Byte) (rest : List Byte) :
    rleDecodeFrom cap (fuel + 1) p o (0x01 :: len :: v :: rest) =
      if len.toNat < 2 then .error ⟨.format, p⟩
      else if cap < o + len.toNat then .error ⟨.capacity, p⟩
      else (rleDecodeFrom cap fuel (p + 3) (o + len.toNat) rest).map (List.replicate len.toNat v ++ ·) := rfl

/-- A chunk with a LITERAL tag and a length (R251). -/
theorem rleDecodeFrom_literal (cap fuel p o : Nat) (len : Byte) (body : List Byte) :
    rleDecodeFrom cap (fuel + 1) p o (0x00 :: len :: body) =
      if len.toNat < 1 then .error ⟨.format, p⟩
      else if body.length < len.toNat then .error ⟨.format, p⟩
      else if cap < o + len.toNat then .error ⟨.capacity, p⟩
      else (rleDecodeFrom cap fuel (p + 2 + len.toNat) (o + len.toNat) (body.drop len.toNat)).map
        (body.take len.toNat ++ ·) := rfl

theorem rleDecodeFrom_badTag {t : Byte} (bad : 1 < t.toNat) (cap fuel p o : Nat) (rest : List Byte) :
    rleDecodeFrom cap (fuel + 1) p o (t :: rest) = .error ⟨.format, p⟩ := by
  cases rest <;> exact if_pos bad

theorem rleDecodeFrom_noLength (cap fuel p o : Nat) (t : Byte) :
    rleDecodeFrom cap (fuel + 1) p o [t] = .error ⟨.format, p⟩ :=
  ite_self _

theorem rleDecodeFrom_shortRun {len : Byte} (short : len.toNat < 2) (cap fuel p o : Nat) (rest : List Byte) :
    rleDecodeFrom cap (fuel + 1) p o (0x01 :: len :: rest) = .error ⟨.format, p⟩ := if_pos short

theorem rleDecodeFrom_noValue (cap fuel p o : Nat) (len : Byte) :
    rleDecodeFrom cap (fuel + 1) p o [0x01, len] = .error ⟨.format, p⟩ := ite_self _

/-- A length of R240 fits its byte. -/
theorem toNat_lengthByte {n : Nat} (h : n ≤ 255) : (BitVec.ofNat 8 n).toNat = n :=
  (BitVec.toNat_ofNat n 8).trans (Nat.mod_eq_of_lt (Nat.lt_succ_of_le h))

theorem map_append_map_append (l k : List Byte) (x : Except CmdError (List Byte)) :
    (x.map (k ++ ·)).map (l ++ ·) = x.map (l ++ k ++ ·) := by
  cases x <;> simp [Except.map]

/-- One turn of the decoder on a whole chunk with a length of R240, whose bytes still fit the memory (R251). -/
theorem rleDecodeFrom_chunk {cap o : Nat} {c : Chunk} (ok : c.lengthOk) (room : o + c.data.length ≤ cap) (fuel p : Nat)
    (rest : List Byte) :
    rleDecodeFrom cap (fuel + 1) p o (c.bytes ++ rest) =
      (rleDecodeFrom cap fuel (p + c.bytes.length) (o + c.data.length) rest).map (c.data ++ ·) := by
  cases c with
  | run len v =>
    obtain ⟨two, short⟩ := ok
    rw [Chunk.data, List.length_replicate] at *
    refine (rleDecodeFrom_run cap fuel p o (BitVec.ofNat 8 len) v rest).trans ?_
    rw [toNat_lengthByte short, if_neg two.not_gt, if_neg room.not_gt]
    rfl
  | literal l =>
    obtain ⟨one, short⟩ := ok
    have len := toNat_lengthByte short
    have there : l.length ≤ (l ++ rest).length := by simp
    have offset : p + 2 + l.length = p + (Chunk.literal l).bytes.length := by simp only [Chunk.bytes, List.length_cons]; omega
    refine (rleDecodeFrom_literal cap fuel p o (BitVec.ofNat 8 l.length) (l ++ rest)).trans ?_
    rw [Chunk.data] at *
    rw [len, if_neg one.not_gt, if_neg there.not_gt, if_neg room.not_gt, List.drop_left, List.take_left, offset]

/-- The decoder reads whole chunks one after another, and then goes on at the offset and with the output they leave (R251). -/
theorem rleDecodeFrom_chunks {cap o : Nat} {cs : List Chunk} (ok : ∀ c ∈ cs, c.lengthOk)
    (room : o + (cs.flatMap Chunk.data).length ≤ cap) (fuel p : Nat) (rest : List Byte) :
    rleDecodeFrom cap (fuel + cs.length) p o (cs.flatMap Chunk.bytes ++ rest) =
      (rleDecodeFrom cap fuel (p + (cs.flatMap Chunk.bytes).length) (o + (cs.flatMap Chunk.data).length) rest).map
        (cs.flatMap Chunk.data ++ ·) := by
  induction cs generalizing o p with
  | nil => exact (id_map (rleDecodeFrom cap fuel p o rest)).symm
  | cons c cs ih =>
    obtain ⟨okFirst, okRest⟩ := List.forall_mem_cons.mp ok
    simp only [List.flatMap_cons, List.length_append, List.length_cons, ← Nat.add_assoc, List.append_assoc] at room ⊢
    rw [rleDecodeFrom_chunk okFirst (by omega), ih okRest room, map_append_map_append]
    simp only [List.append_assoc]

/-- A chunk is written in one byte at least. -/
theorem length_le_length_flatMap_bytes (cs : List Chunk) : cs.length ≤ (cs.flatMap Chunk.bytes).length := by
  induction cs with
  | nil => rfl
  | cons c cs ih =>
    have : 1 ≤ c.bytes.length := by cases c <;> simp [Chunk.bytes]
    rw [List.flatMap_cons, List.length_append, List.length_cons]
    omega

/-- The decoder after any list of chunks with lengths of R240 that fits the memory: it has as many turns left as there are bytes left, or
more (R251). -/
theorem rleDecode_chunks_append {cap : Nat} {cs : List Chunk} (ok : ∀ c ∈ cs, c.lengthOk)
    (room : (cs.flatMap Chunk.data).length ≤ cap) (rest : List Byte) :
    ∃ fuel, rest.length ≤ fuel ∧ rleDecode cap (cs.flatMap Chunk.bytes ++ rest) =
      (rleDecodeFrom cap fuel (cs.flatMap Chunk.bytes).length (cs.flatMap Chunk.data).length rest).map
        (cs.flatMap Chunk.data ++ ·) := by
  have turns := length_le_length_flatMap_bytes cs
  obtain ⟨fuel, total⟩ : ∃ fuel, (cs.flatMap Chunk.bytes ++ rest).length = fuel + cs.length :=
    ⟨_, (Nat.sub_add_cancel (by rw [List.length_append]; omega)).symm⟩
  have enough : rest.length ≤ fuel := by rw [List.length_append] at total; omega
  have run := rleDecodeFrom_chunks (o := 0) ok ((Nat.zero_add _).trans_le room) fuel 0 rest
  rw [Nat.zero_add, Nat.zero_add] at run
  exact ⟨fuel, enough, by rw [rleDecode, total, run]⟩

/-- Chunks with lengths of R240 decode to what they stand for, where that fits the memory (R251). -/
theorem rleDecode_chunks {cap : Nat} {cs : List Chunk} (ok : ∀ c ∈ cs, c.lengthOk)
    (room : (cs.flatMap Chunk.data).length ≤ cap) :
    rleDecode cap (cs.flatMap Chunk.bytes) = .ok (cs.flatMap Chunk.data) := by
  obtain ⟨fuel, -, run⟩ := rleDecode_chunks_append ok room []
  have ended (p o : Nat) : rleDecodeFrom cap fuel p o [] = .ok [] := by cases fuel <;> rfl
  rw [List.append_nil, ended] at run
  exact run.trans (congrArg Except.ok (List.append_nil _))

/-- A chunk that fails wherever it stands fails after any list of chunks that fits, at its own offset. -/
theorem rleDecode_chunks_error {cap : Nat} {cs : List Chunk} (ok : ∀ c ∈ cs, c.lengthOk)
    (room : (cs.flatMap Chunk.data).length ≤ cap) {code : ErrCode} {t : Byte} {rest : List Byte}
    (fails : ∀ fuel p, rleDecodeFrom cap (fuel + 1) p (cs.flatMap Chunk.data).length (t :: rest) = .error ⟨code, p⟩) :
    rleDecode cap (cs.flatMap Chunk.bytes ++ t :: rest) = .error ⟨code, (cs.flatMap Chunk.bytes).length⟩ := by
  obtain ⟨fuel, enough, run⟩ := rleDecode_chunks_append ok room (t :: rest)
  obtain ⟨fuel, rfl⟩ := Nat.exists_eq_add_one_of_ne_zero (Nat.ne_zero_of_lt enough)
  rw [run, fails]
  rfl

/-- Settles O36: whole chunks, and then the failing one, in the order of the checks. -/
theorem rleDecodeReadsChunksAndReportsTheFirstBadOne : Obligations.RleDecodeReadsChunksAndReportsTheFirstBadOne := by
  intro cap cs ok room
  refine ⟨rleDecode_chunks ok room, fun t rest bad => ?badTag, fun t => ?noLength, fun len rest short => ?shortRun,
    fun len => ?noValue, fun len v rest two full => ?runTooLong, fun rest => ?emptyLiteral, fun len body missing => ?missingBytes,
    fun len body one there full => ?literalTooLong⟩ <;>
  refine rleDecode_chunks_error ok room fun fuel p => ?_
  case badTag => exact rleDecodeFrom_badTag bad ..
  case noLength => exact rleDecodeFrom_noLength ..
  case shortRun => exact rleDecodeFrom_shortRun short ..
  case noValue => exact rleDecodeFrom_noValue ..
  case runTooLong => rw [rleDecodeFrom_run, if_neg two.not_gt, if_pos full]
  case emptyLiteral => rfl
  case missingBytes => rw [rleDecodeFrom_literal, if_pos missing, ite_self]
  case literalTooLong => rw [rleDecodeFrom_literal, if_neg one.not_gt, if_neg there.not_gt, if_pos full]

/-- Settles O33: the encoding is chunks of legal lengths (O34), and those decode to what they stand for (O36). -/
theorem rleDecodeInvertsEncode : Obligations.RleDecodeInvertsEncode := by
  intro cap a room
  obtain ⟨cs, bytes, data, legal, -⟩ := rleEncodingIsASequenceOfLegalChunks a
  rw [bytes, rleDecode_chunks (fun c hc => (legal c hc).1) (data.symm ▸ room), data]

/-! ## RLE_ENC and RLE_DEC -/

/-- A length within a memory of at most 2 ^ 20 bytes fits A_LEN and B_LEN (R64, R67), also where its size is not a legal one. -/
theorem toNat_lengthWord {cap n : Nat} (capMax : cap ≤ 1048576) (room : n ≤ cap) : (BitVec.ofNat 21 n).toNat = n :=
  (BitVec.toNat_ofNat n 21).trans (Nat.mod_eq_of_lt (by omega))

/-- What was written at the start of a memory is read there, and every byte after it stays. -/
theorem Memory.write_start (m : Memory 8) (out : List Byte) :
    (m.write 0 out).read 0 out.length = out ∧ ∀ k, out.length ≤ k → (m.write 0 out).get k = m.get k :=
  ⟨m.read_write 0 out, fun _ above => m.get_write_above out ((Nat.zero_add _).trans_le above)⟩

/-- Memories that read alike over a range hold the same byte at each place of it. -/
theorem Memory.get_eq_of_read_eq {m m' : Memory 8} {n k : Nat} (alike : m.read 0 n = m'.read 0 n) (inside : k < n) :
    m.get k = m'.get k := by
  have here : k < (m.read 0 n).length := (m.length_read 0 n).symm ▸ inside
  have there : k < (m'.read 0 n).length := (m'.length_read 0 n).symm ▸ inside
  calc m.get k = (m.read 0 n)[k] := by rw [Memory.getElem_read, Nat.zero_add]
    _ = (m'.read 0 n)[k] := List.getElem_of_eq alike here
    _ = m'.get k := by rw [Memory.getElem_read, Nat.zero_add]

/-- RLE_ENC in a state whose stream lies in its memory (R245). -/
theorem exec_rleEnc_of_stream {s : State} (aLen : s.aLen.toNat ≤ s.cap) :
    exec .rleEnc s =
      let out := rleEncode (s.memA.read 0 s.aLen.toNat)
      if s.cap < out.length then .next (raiseError .capacity 0 { forgetB s with bLen := 0 })
      else .next (complete { s with memB := s.memB.write 0 out, bLen := BitVec.ofNat 21 out.length }) :=
  needStream_of_le aLen _

/-- RLE_DEC of chunks that lie in their memory and decode (R252). -/
theorem exec_rleDec_of_ok {s : State} (bLen : s.bLen.toNat ≤ s.cap) {out : List Byte}
    (decoded : rleDecode s.cap (s.memB.read 0 s.bLen.toNat) = .ok out) :
    exec .rleDec s = .next (complete { s with
      memA := s.memA.write 0 out, aLen := BitVec.ofNat 21 out.length, aCur := 0, rdPos := 0 }) := by
  refine (needChunks_of_le bLen _).trans ?_
  rw [decoded]
  rfl

/-- RLE_DEC of chunks that lie in their memory and do not decode (R252, R284). -/
theorem exec_rleDec_of_error {s : State} (bLen : s.bLen.toNat ≤ s.cap) {e : CmdError}
    (failed : rleDecode s.cap (s.memB.read 0 s.bLen.toNat) = .error e) :
    exec .rleDec s = .next (raiseError e.code e.pos { forgetA s with aLen := 0, aCur := 0, rdPos := 0 }) := by
  refine (needChunks_of_le bLen _).trans ?_
  rw [failed]
  rfl

/-- What the decoder puts out fits the memory it is for (R251). -/
theorem length_le_of_rleDecode {cap : Nat} {b out : List Byte} (decoded : rleDecode cap b = .ok out) : out.length ≤ cap := by
  rcases rleDecodeFrom_result b.length (p := 0) (b := b) (Nat.zero_le cap) with ⟨out', result, room⟩ | ⟨e, result, -⟩
  · obtain rfl : out' = out := Except.ok.inj (result.symm.trans decoded)
    omega
  · exact nomatch result.symm.trans decoded

/-- Settles O37: `write` stores the encoding, and its length fits B_LEN. -/
theorem rleEncStoresTheEncoding : Obligations.RleEncStoresTheEncoding := by
  intro s capMax aLen
  have run := exec_rleEnc_of_stream aLen
  exact ⟨fun room => ⟨_, _, run.trans (if_neg room.not_gt), toNat_lengthWord capMax room, Memory.write_start _ _⟩,
    fun full => ⟨_, _, run.trans (if_pos full)⟩⟩

/-- Settles O38: `write` stores the decoding, which fits A, and its length fits A_LEN. -/
theorem rleDecStoresTheDecoding : Obligations.RleDecStoresTheDecoding := by
  intro s capMax bLen
  refine ⟨fun out decoded => ?_, fun e failed => ⟨_, _, exec_rleDec_of_error bLen failed⟩⟩
  have room := length_le_of_rleDecode decoded
  exact ⟨_, _, exec_rleDec_of_ok bLen decoded, toNat_lengthWord capMax room, Memory.write_start _ _⟩

/-- Settles O39: RLE_DEC reads from B what RLE_ENC stored there (O37), which decodes to the stream (O33, O38). -/
theorem rleCommandsRestoreTheStream : Obligations.RleCommandsRestoreTheStream := by
  intro s capMax aLen room
  have length : (s.memA.read 0 s.aLen.toNat).length = s.aLen.toNat := s.memA.length_read 0 _
  obtain ⟨m, len, runEnc, lenEq, stored, -⟩ := (rleEncStoresTheEncoding s capMax aLen).1 room
  let t : State := { s with memB := m, bLen := len, status := { s.status with busy := false, done := true } }
  have bLen : t.bLen.toNat ≤ t.cap := lenEq.trans_le room
  have chunks : t.memB.read 0 t.bLen.toNat = rleEncode (s.memA.read 0 s.aLen.toNat) := by rw [← stored, ← lenEq]
  have decoded : rleDecode t.cap (t.memB.read 0 t.bLen.toNat) = .ok (s.memA.read 0 s.aLen.toNat) :=
    chunks ▸ rleDecodeInvertsEncode s.cap _ (length.trans_le aLen)
  obtain ⟨a, n, runDec, nEq, restored, above⟩ := (rleDecStoresTheDecoding t capMax bLen).1 _ decoded
  rw [length] at nEq restored above
  refine ⟨t, _, runEnc, runDec, BitVec.eq_of_toNat_eq nEq, rfl, rfl, fun k => ?_⟩
  rcases Nat.lt_or_ge k s.aLen.toNat with inside | beyond
  · exact Memory.get_eq_of_read_eq restored inside
  · exact above k beyond

end Sys2Proof.Machine
end

section
/-! O9: the control command NOP (44_control R270). -/

namespace Sys2Proof.Machine

/-- Settles O9: NOP hands its own state to `settle`, which completes it (R289). -/
theorem nopOnlyCompletes : Obligations.NopOnlyCompletes :=
  fun s =>
    calc exec .nop s
      _ = settle s (.ok s) := rfl
      _ = .next (complete s) := settle_ok s s

end Sys2Proof.Machine
end

section
/-! O40, O42: what a failed command leaves (60_exceptions R281, R284, R290) and the interrupt output (R295). Of the ways in which a command
ends (`exec_ends`) only a failure raises ERR, and `Fails` lists what each failure has made of the state before the error is recorded. -/

namespace Sys2Proof.Machine

/-- Every failure has a code that the error table gives the command (R281). -/
theorem Fails.code_mem_raisedBy {s u : State} {i : Instr} {code : ErrCode} (h : Fails s i code u) : code ∈ raisedBy i := by
  cases h with
  | precise raised => exact raised
  | rleEnc => exact .head _
  | rleDec raised => exact raised

/-- A command that turns ERR on has failed: a computation leaves ERR as it was, and so does its completion (R289). -/
theorem fails_of_err {i : Instr} {s t : State} (h : exec i s = .next t) (noErr : s.status.err = false)
    (err : t.status.err = true) : ∃ (code : ErrCode) (pos : Nat) (u : State), Fails s i code u ∧ t = raiseError code pos u := by
  cases exec_ends h with
  | completed computed =>
    obtain ⟨-, -, sameErr, -⟩ := computed.status_eq
    rw [complete_status_err, sameErr, noErr] at err
    exact absurd err Bool.false_ne_true
  | failed pos failure => exact ⟨_, pos, _, failure, rfl⟩

/-- Settles O40: the recording of an error over the state that each kind of failure leaves (R284). -/
theorem failedCommandsArePrecise : Obligations.FailedCommandsArePrecise := by
  intro i s t h noErr err
  obtain ⟨code, pos, u, failure, rfl⟩ := fails_of_err h noErr err
  refine ⟨code, BitVec.ofNat 24 pos, failure.code_mem_raisedBy, ?_⟩
  cases failure with
  | precise _ notEnc notDec => exact ⟨fun enc => absurd enc notEnc, fun dec => absurd dec notDec, fun _ _ => rfl⟩
  | rleEnc => exact ⟨fun _ => ⟨s.draws + 1, rfl⟩, nofun, fun notEnc _ => absurd rfl notEnc⟩
  | rleDec => exact ⟨nofun, fun _ => ⟨s.draws + 1, rfl⟩, fun _ notDec => absurd rfl notDec⟩

theorem irq_iff (s : State) : s.irq = true ↔ s.irqEn = true ∧ (s.status.done = true ∨ s.status.err = true) := by
  simp [State.irq]

/-- CTRL = 1 sets IRQ_EN, with SOFT_RST 0, and leaves the rest of the state but the bus answer (R33). -/
theorem transact_enableIrq (s : State) :
    transact ⟨true, 0x004, 1, 0xF⟩ s = { s with irqEn := true, resp := .writeDone false } := by
  obtain ⟨ctrlWrite, -⟩ := registerWritesStoreTheirFields s 1
  exact ctrlWrite rfl

/-- STATUS = 6 has bits 1 and 2 set, so it acknowledges DONE and ERR (R37, R292). -/
theorem transact_acknowledge (s : State) :
    transact ⟨true, 0x008, 6, 0xF⟩ s = { s with status := s.status.acknowledge 6, resp := .writeDone false } :=
  (transact_writeReg s (r := .status) rfl 6).trans (busWrite_status 6 0xF s)

theorem acknowledge_six_clears_done_err (t : Status) : (t.acknowledge 6).done = false ∧ (t.acknowledge 6).err = false :=
  ⟨Bool.and_false _, Bool.and_false _⟩

/-- Settles O42: irq reads IRQ_EN, DONE and ERR alone, and the two writes set the first and clear the other two. -/
theorem irqFollowsEnableAndCompletion : Obligations.IrqFollowsEnableAndCompletion := by
  refine ⟨irq_iff, fun _ _ _ _ => rfl, fun s ended => ?_, fun s => ?_⟩
  · rw [transact_enableIrq, irq_iff]
    exact ⟨rfl, ended⟩
  · obtain ⟨noDone, noErr⟩ := acknowledge_six_clears_done_err s.status
    rw [transact_acknowledge, State.irq, noDone, noErr]
    exact Bool.and_false _

end Sys2Proof.Machine
end

section
/-! O50, O60: writes while BUSY (70_reset_and_hazards R331), and that every schedule of host events drains (R336, R337). A step that is
not a wait either ends the running command or takes one event off the queue, and an event starts at most one command; so the count
`stepsLeft` falls with every step until it is 0, where the machine is idle with nothing to come. -/

namespace Sys2Proof.Machine

/-! ## Writes while BUSY -/

/-- While BUSY any target but CTRL and STATUS turns a write away with the flag of its own (R39, R40, R331). -/
theorem writeBusy_of_ne {x : Target} (notCtrl : x ≠ .reg .ctrl) (notStatus : x ≠ .reg .status) (v : Word) (s : State) :
    writeBusy v s x =
      { s with status := { s.status with cmdOvr := s.status.cmdOvr || decide (x = .reg .cmd)
                                         wrIgn := s.status.wrIgn || decide (x ≠ .reg .cmd) } } := by
  rw [writeBusy, if_neg notCtrl, if_neg notStatus]
  by_cases isCmd : x = .reg .cmd <;> simp [isCmd]

/-- Settles O50: a busy bus write of such a target is `writeBusy_of_ne` with the bus answer. -/
theorem busyWritesAreIgnored : Obligations.BusyWritesAreIgnored := by
  intro t s x busy write reached notCtrl notStatus
  rw [transact_of_access reached, if_pos write, busWrite_busy busy, writeBusy_of_ne notCtrl notStatus]

/-! ## What a host event leaves of the queue -/

@[simp] theorem writeCtrl_pending (v : Word) (s : State) : (writeCtrl v s).pending = s.pending := by
  unfold writeCtrl
  split
  · rw [softReset_eq]
  · rfl

@[simp] theorem writeIdle_pending (v : Word) (strb : BitVec 4) (s : State) (x : Target) :
    (writeIdle v strb s x).pending = s.pending := by
  cases x with
  | reg r =>
    cases r with
    | ctrl => exact writeCtrl_pending v s
    | _ => rfl
  | _ => rfl

@[simp] theorem writeBusy_pending (v : Word) (s : State) (x : Target) : (writeBusy v s x).pending = s.pending := by
  unfold writeBusy
  split_ifs
  · exact writeCtrl_pending v s
  · rfl
  · rfl
  · rfl

@[simp] theorem busWrite_pending (v : Word) (strb : BitVec 4) (s : State) (x : Target) :
    (busWrite v strb s x).pending = s.pending := by
  unfold busWrite
  split <;> simp

@[simp] theorem transact_pending (t : Transaction) (s : State) : (transact t s).pending = s.pending := by
  cases write : t.we with
  | false =>
    obtain ⟨_, _, read, -⟩ := transact_read t s write
    rw [read]
  | true =>
    cases reached : access s.cap t with
    | error e => rw [transact_error reached]
    | ok x => rw [transact_of_access reached, if_pos write, busWrite_pending]

/-- No host event, a reset among them, takes back what the host is still to do. -/
@[simp] theorem hostStep_pending (a : HostAction) (s : State) : (hostStep a s).pending = s.pending := by
  cases a with
  | transaction t => exact transact_pending t s
  | hardReset => rfl

/-! ## What the engine's step leaves -/

/-- Whichever way a command ends, no command runs then (R289, R290). -/
theorem Ends.idle {s t : State} {i : Instr} (h : Ends s i t) : t.status.busy = false := by
  cases h <;> rfl

/-- The engine's step ends the running command, legal or not, and leaves the queue. -/
theorem engineStep_idle_pending {s t : State} (h : engineStep exec s = .next t) :
    t.status.busy = false ∧ t.pending = s.pending := by
  cases decoded : decode s.cmd with
  | ok i =>
    rw [engineStep_of_decode exec decoded] at h
    obtain ⟨-, -, -, -, -, -, -, -, -, -, -, -, pending, -⟩ := commandsKeepTheirInputs i s t h
    exact ⟨(exec_ends h).idle, pending⟩
  | error e =>
    rw [engineStep_of_decode_error exec decoded] at h
    cases h
    exact ⟨rfl, rfl⟩

/-! ## Every schedule drains -/

/-- A bound on the steps until the machine waits: two for each event to come, which can land and start a command, and one for the
command that runs. -/
def stepsLeft (s : State) : Nat := 2 * s.pending.length + s.status.busy.toNat

theorem stepsLeft_le (s : State) : stepsLeft s ≤ 2 * s.pending.length + 1 :=
  Nat.add_le_add_left s.status.busy.toNat_le _

theorem stepsLeft_eq_zero_iff (s : State) : stepsLeft s = 0 ↔ s.pending = [] ∧ s.status.busy = false := by
  simp [stepsLeft]

/-- An event that lands counts two, and the command that it can start counts one. -/
theorem stepsLeft_hostStep_lt {s : State} {e : HostEvent} {rest : List HostEvent} (event : s.pending = e :: rest) (a : HostAction) :
    stepsLeft (hostStep a { s with pending := rest }) < stepsLeft s := by
  have landed : stepsLeft (hostStep a { s with pending := rest }) ≤ 2 * rest.length + 1 := by
    simpa using stepsLeft_le (hostStep a { s with pending := rest })
  have counted : stepsLeft s = 2 * (rest.length + 1) + s.status.busy.toNat := by
    rw [stepsLeft, event, List.length_cons]
  omega

theorem stepsLeft_engineStep_lt {s t : State} (busy : s.status.busy = true) (h : engineStep exec s = .next t) :
    stepsLeft t < stepsLeft s := by
  obtain ⟨idle, pending⟩ := engineStep_idle_pending h
  simp [stepsLeft, idle, pending, busy]

/-- With steps left, a step has the machine move on: the engine's step, the next event's, and no wait (R81, R286, R322). -/
theorem stepsLeft_step_lt {s t : State} (left : stepsLeft s ≠ 0) (h : step s = .next t) : stepsLeft t < stepsLeft s := by
  by_cases engine : EngineNext s
  · rw [step_of_engineNext engine] at h
    exact stepsLeft_engineStep_lt engine.1 h
  · cases pending : s.pending with
    | cons e rest =>
      rw [step_of_event engine pending] at h
      cases h
      exact stepsLeft_hostStep_lt pending e.action
    | nil =>
      have idle : s.status.busy = false := Bool.eq_false_iff.mpr fun busy => engine ⟨busy, by simp [pending]⟩
      exact absurd ((stepsLeft_eq_zero_iff s).mpr ⟨pending, idle⟩) left

theorem run_succ_of_step {M : Host.Core} {s t : M.State} (h : M.step s = .next t) (n : Nat) : M.run (n + 1) s = M.run n t := by
  rw [Host.Core.run, h]

/-- Under the invariant, which every step keeps and which lets no step stop (O58, O59), the machine runs until no step is left. -/
theorem run_reaches_stepsLeft_zero {s : State} (ok : StateOk s) :
    ∃ (n : Nat) (t : State), n ≤ stepsLeft s ∧ core.run n s = .next t ∧ stepsLeft t = 0 := by
  induction left : stepsLeft s using Nat.strong_induction_on generalizing s with
  | _ m ih =>
    subst left
    by_cases done : stepsLeft s = 0
    · exact ⟨0, s, Nat.zero_le _, rfl, done⟩
    · obtain ⟨u, stepped⟩ := noStepStopsUnderTheInvariant s ok
      obtain ⟨okU, -, -⟩ := everyStepKeepsTheInvariant s u ok stepped
      have fewer := stepsLeft_step_lt done stepped
      obtain ⟨n, t, bound, ran, drained⟩ := ih _ fewer okU rfl
      exact ⟨n + 1, t, by omega, (run_succ_of_step (M := core) stepped n).trans ran, drained⟩

/-- Settles O60: `stepsLeft` is within the bound, and where it is 0 the machine is idle with nothing to come. -/
theorem everyScheduleRunsToAnIdleEngine : Obligations.EveryScheduleRunsToAnIdleEngine := by
  intro s ok
  obtain ⟨n, t, bound, ran, drained⟩ := run_reaches_stepsLeft_zero ok
  exact ⟨n, t, bound.trans (stepsLeft_le s), ran, (stepsLeft_eq_zero_iff t).mp drained⟩

end Sys2Proof.Machine
end
